-- ==== Sys2Proof/Word.lean ====
section
/-! DEFINITION. The word types of the unit (00_scope.md rules R10, R12): a data register or a packed value is 64 bits, a
command word is 32 bits, a buffer byte is 8 bits. -/

namespace Sys2Proof

/-- A data register, or the data of one register transaction (rules R12, R34). -/
abbrev Word := BitVec 64

/-- A command word (rule R70). -/
abbrev CmdWord := BitVec 32

/-- One byte of the buffer memory BUF (rule R29). -/
abbrev Byte := BitVec 8

end Sys2Proof
end

