-- ==== Sys2Proof/Config.lean ====
section
/-! DEFINITION. What is fixed for one unit and not state (00_scope.md rule R11): the parameters BUF_LEN and DIRTY_MODE; and
the model's free values. A free value is an `opaque` constant with no body: nothing can be proved of it, so a statement
that mentions it holds whatever it is. -/

namespace Sys2Proof

/-- `DIRTY_MODE` (10_state.md rule R30): what a pack command does when a target bit is already 1. -/
inductive DirtyMode where
  /-- the command raises DIRTY_TARGET and changes nothing (the default) -/
  | fault
  /-- the command ORs its bits in -/
  | or
  deriving DecidableEq, Repr

/-- The parameters of one unit (rule R11). BUF_LEN is held as the address of the last byte of BUF, so that every value of
this type is a legal configuration: `1 ≤ BUF_LEN ≤ 2^32`. -/
structure Params where
  /-- BUF_LEN - 1, the address of BUF's last byte -/
  bufLast   : BitVec 32
  dirtyMode : DirtyMode
  deriving DecidableEq, Repr

/-- `BUF_LEN` (rule R11). -/
def Params.bufLen (p : Params) : Nat :=
  p.bufLast.toNat + 1

/-- The last byte's address of the unit that `State.reset` describes: rule R11 leaves BUF_LEN open (OPEN, decision D4).
Free value (log entry 1). -/
opaque Config.bufLast : BitVec 32

/-- The parameters of the unit that `State.reset` describes: any BUF_LEN, and DIRTY_MODE at the default that rule R30 names
(log entry 2). -/
def Config.params : Params :=
  { bufLast := Config.bufLast, dirtyMode := .fault }

/-- The byte that address `a` of BUF holds after the `n`-th reset, until it is written (70_reset_and_hazards.md rule R241:
"the model draws every byte freely, at power-on and at every later reset"). Free value (log entry 3). -/
opaque Config.bufDraw : (n a : Nat) → Byte

end Sys2Proof
end

