-- ==== Sys2Proof/Syntax.lean ====
section
/-! DEFINITION. The commands of the unit: one constructor for each row of spec/opcode_table.json (30_encoding.md rule R73).
The one operand a command word encodes is the field W, unsigned 0..255 (rules R70, R71); every other operand is implicit in
the opcode (rule R72). -/

namespace Sys2Proof

/-- The commands (rule R73). `w` is the field W as it stands in the word: every value of it decodes (rule R75). -/
inductive Instr where
  /-- PACKBITS w, OPC 0x10 (40_bit_cursor.md rule R103) -/
  | packbits   (w : BitVec 8)
  /-- UNPACKBITS w, OPC 0x11 (40_bit_cursor.md rule R110) -/
  | unpackbits (w : BitVec 8)
  /-- PACKBLK w, OPC 0x20 (41_block_codec.md rule R133) -/
  | packblk    (w : BitVec 8)
  /-- UNPACKBLK w, OPC 0x21 (41_block_codec.md rule R140) -/
  | unpackblk  (w : BitVec 8)
  deriving DecidableEq, Repr

end Sys2Proof
end

