-- ==== Sys2Proof/Machine/Transaction.lean ====
section
/-! DEFINITION. The host's transactions (43_host_port.md): as a host program writes them (`HostOp`, which can be
ill-formed), and as the unit takes them (`Txn`). `resolve` goes from the first to the second, by the register map of
10_state.md rule R34, and names what is wrong with an ill-formed one (rule R197). -/

namespace Sys2Proof.Machine

/-- The registers of the port (rule R34). CMD is a port and holds no value (rule R28). -/
inductive Reg where
  | cmd
  | status
  | fcmd
  | cur
  | val
  | base
  | blk (j : Fin 8)
  deriving DecidableEq, Repr

/-- A transaction as a host program writes it. `off` is a byte offset of the register port, `bits` how many bits the access
moves. -/
inductive HostOp where
  /-- `rd` at an offset (rule R190) -/
  | rd (off bits : Nat)
  /-- `wr` at an offset (rules R191, R194) -/
  | wr (off bits : Nat) (v : Word)
  /-- `brd A` (rule R195) -/
  | brd (a : Nat)
  /-- `bwr A, B` (rule R196) -/
  | bwr (a b : Nat)
  /-- `reset` (rule R198) -/
  | reset
  deriving DecidableEq, Repr

/-- A transaction of the unit: a well-formed `HostOp` with its offset looked up. -/
inductive Txn where
  | rd (r : Reg)
  | wr (r : Reg) (v : Word)
  | brd (a : Nat)
  | bwr (a : Nat) (b : Byte)
  | reset
  deriving DecidableEq, Repr

/-- What makes a host transaction ill-formed: the four cases of rule R197. -/
inductive IllFormed where
  /-- "a host transaction at an unmapped register offset" -/
  | unmappedOffset
  /-- "a register access that is not one whole 64-bit word" -/
  | partialWord
  /-- "at a buffer address A >= BUF_LEN" -/
  | bufAddress
  /-- "a `bwr` byte above 255" -/
  | wideByte
  deriving DecidableEq, Repr

/-- What `resolve` answers. -/
inductive Resolved where
  | txn (t : Txn)
  | illFormed (why : IllFormed)
  deriving DecidableEq, Repr

/-- One value that a host read returned (43_host_port.md rule R201: "the sequence of values returned by the program's `rd`
and `brd` transactions"). -/
inductive Returned where
  | reg (r : Reg) (v : Word)
  | buf (a : Nat) (b : Byte)
  deriving DecidableEq, Repr

/-- The register at a byte offset of the port (rule R34). Every offset not listed there is unmapped. -/
def Reg.atOffset (off : Nat) : Option Reg :=
  if off = 0x00 then some .cmd
  else if off = 0x08 then some .status
  else if off = 0x10 then some .fcmd
  else if off = 0x18 then some .cur
  else if off = 0x20 then some .val
  else if off = 0x28 then some .base
  else if off = 0x40 then some (.blk 0)
  else if off = 0x48 then some (.blk 1)
  else if off = 0x50 then some (.blk 2)
  else if off = 0x58 then some (.blk 3)
  else if off = 0x60 then some (.blk 4)
  else if off = 0x68 then some (.blk 5)
  else if off = 0x70 then some (.blk 6)
  else if off = 0x78 then some (.blk 7)
  else none

/-- The offset of a register (rule R34). -/
def Reg.offset : Reg → Nat
  | .cmd => 0x00
  | .status => 0x08
  | .fcmd => 0x10
  | .cur => 0x18
  | .val => 0x20
  | .base => 0x28
  | .blk j => 0x40 + 8 * j.val

/-- The register of one whole-word access at an offset, or why there is none (rule R197). -/
def resolveReg (off bits : Nat) (t : Reg → Txn) : Resolved :=
  match Reg.atOffset off with
  | none => .illFormed .unmappedOffset
  | some r => if bits = 64 then .txn (t r) else .illFormed .partialWord

/-- The transaction a host program's line asks for, or why it is none (rule R197). -/
def resolve (p : Params) : HostOp → Resolved
  | .rd off bits => resolveReg off bits .rd
  | .wr off bits v => resolveReg off bits (.wr · v)
  | .brd a => if a < p.bufLen then .txn (.brd a) else .illFormed .bufAddress
  | .bwr a b =>
    if p.bufLen ≤ a then .illFormed .bufAddress
    else if 255 < b then .illFormed .wideByte
    else .txn (.bwr a (BitVec.ofNat 8 b))
  | .reset => .txn .reset

/-- The first thing wrong with a host program, if anything is (rule R197: "a host program containing one is refused by the
model (it has no meaning), not executed"). -/
def programProblem (p : Params) : List HostOp → Option IllFormed
  | [] => none
  | h :: rest =>
    match resolve p h with
    | .illFormed why => some why
    | .txn _ => programProblem p rest

end Sys2Proof.Machine
end

