-- ==== Sys2Proof/WellFormed.lean ====
section
/-! DEFINITION. What is well-formed. A command's only field is W, and every value of it is a legal field of the word (30_encoding.md
rules R71, R75), so the type `Instr` holds well-formed commands only and needs no check. What can be ill-formed is a host
transaction (43_host_port.md rule R197), and with it the host program that contains one (premise P-FORMED of rule R200). -/

namespace Sys2Proof

/-- The transaction is one of the unit's (rule R197). -/
def HostOp.wf (p : Params) (h : Machine.HostOp) : Bool :=
  match Machine.resolve p h with
  | .txn _ => true
  | .illFormed _ => false

/-- P-FORMED (rule R200): "no transaction of the program is refused by rule R197". -/
def Program.wf (p : Params) (ops : List Machine.HostOp) : Bool :=
  ops.all (HostOp.wf p)

end Sys2Proof
end

