-- ==== Sys2Proof/Decode.lean ====
section
/-! DEFINITION. Decoding the 64-bit data of a CMD write (30_encoding.md rules R70, R74), and after it the encoder. The decoder is
total and names why it refuses. -/

namespace Sys2Proof

/-- Why the data of a CMD write is no command (rule R76). -/
inductive Illegal where
  /-- data bits 63:32 are not 0 -/
  | highBits
  /-- the reserved field RSV = data bits 15:0 is not 0 -/
  | reservedField
  /-- OPC = data bits 31:24 is none of 0x10, 0x11, 0x20, 0x21 -/
  | opcode
  deriving DecidableEq, Repr

/-- What the decoder answers. -/
inductive Decoded where
  | ok (i : Instr)
  | illegal (why : Illegal)
  deriving DecidableEq, Repr

/-- `d[63:32]`, which must be 0 (rule R70). -/
def cmdHigh (d : Word) : BitVec 32 := d.extractLsb' 32 32

/-- OPC = `d[31:24]` (rule R70). -/
def cmdOpc (d : Word) : BitVec 8 := d.extractLsb' 24 8

/-- W = `d[23:16]` (rule R70). -/
def cmdW (d : Word) : BitVec 8 := d.extractLsb' 16 8

/-- RSV = `d[15:0]`, which must be 0 (rule R70). -/
def cmdRsv (d : Word) : BitVec 16 := d.extractLsb' 0 16

/-- The decoder of rule R74. -/
def decode (d : Word) : Decoded :=
  if cmdHigh d ≠ 0 then .illegal .highBits
  else if cmdRsv d ≠ 0 then .illegal .reservedField
  else if cmdOpc d = 0x10 then .ok (.packbits (cmdW d))
  else if cmdOpc d = 0x11 then .ok (.unpackbits (cmdW d))
  else if cmdOpc d = 0x20 then .ok (.packblk (cmdW d))
  else if cmdOpc d = 0x21 then .ok (.unpackblk (cmdW d))
  else .illegal .opcode

/-- The opcode of a command (rule R73). -/
def Instr.opc : Instr → BitVec 8
  | .packbits _ => 0x10
  | .unpackbits _ => 0x11
  | .packblk _ => 0x20
  | .unpackblk _ => 0x21

/-- The width field of a command. -/
def Instr.w : Instr → BitVec 8
  | .packbits w => w
  | .unpackbits w => w
  | .packblk w => w
  | .unpackblk w => w

/-- The command word: OPC in bits 31:24, W in bits 23:16, RSV = 0 (rules R70, R73). -/
def encode (i : Instr) : CmdWord :=
  BitVec.ofNat 32 (i.opc.toNat * 2 ^ 24 + i.w.toNat * 2 ^ 16)

/-- The 64-bit data of the CMD write that issues a command: its word, bits 63:32 zero (rules R28, R70). -/
def cmdData (i : Instr) : Word :=
  (encode i).setWidth 64

/-- The host's question to the decoder: the command of the CMD data whose low `nbits` bits are those of `w` and whose other
bits are 0. Data that does not fit in one 64-bit write is no command. -/
def decodeTableWord (nbits w : Nat) : Option Instr :=
  if 2 ^ 64 ≤ w % 2 ^ nbits then none
  else
    match decode (BitVec.ofNat 64 (w % 2 ^ nbits)) with
    | .ok i => some i
    | .illegal _ => none

end Sys2Proof
end

