-- ==== Sys2Proof/Machine/State.lean ====
section
/-! DEFINITION. The state of the machine: the unit's architectural state (10_state.md rule R21), its parameters, and the
host's pending transactions and returned values (43_host_port.md rules R200, R201). Plain data. -/

namespace Sys2Proof.Machine

/-- The causes of a fault, as STATUS.FCAUSE numbers them (60_exceptions.md rule R212). Taking one is a next state (rule
R214), never an end of the machine. -/
inductive FaultCause where
  /-- 1: a CMD write that does not decode (rule R218) -/
  | illegalCmd
  /-- 2: a cursor command with w = 0 or w > 63 (40_bit_cursor.md rule R102) -/
  | cursorWidth
  /-- 3: a byte the command would touch is not in BUF (rule R219) -/
  | bounds
  /-- 4: a value to pack is >= 2^w (rules R106, R135) -/
  | valueRange
  /-- 5: a target bit is already 1, DIRTY_MODE = FAULT (rules R104, R134) -/
  | dirtyTarget
  deriving DecidableEq, Repr

/-- Reasons for the machine to stop with a fault: none. Every fault the spec describes is a state of the unit (60_exceptions.md
rules R214, R215) in which reads and reset still act, so it is a next state here. -/
inductive Fault where
  deriving DecidableEq, Repr

/-- Reasons for a step to have no meaning. -/
inductive Refusal where
  /-- An instruction the model gives no meaning yet. Raised by nobody: every command has its meaning. Safe: the machine
  stops. -/
  | notModelled (mnemonic : String)
  /-- The host program holds an ill-formed transaction. Raised by `step` (43_host_port.md rule R197: "a host program containing one is
  refused by the model (it has no meaning), not executed"). Safe: nothing is claimed of such a program. -/
  | illFormed (why : IllFormed)
  deriving DecidableEq, Repr

/-- The bytes of BUF that have been written since the last reset, by address, addresses strictly rising. An address not
listed holds no written byte: what it reads as is the free draw of `State.byte` (log entry 4). -/
abbrev Memory := List Host.Cell

/-- The machine. -/
structure State where
  /-- VAL (rule R22) -/
  val     : Word
  /-- CUR, the bit cursor as one stream bit position (rule R23) -/
  cur     : Word
  /-- BASE, the byte address of a block command's window (rule R24) -/
  base    : Word
  /-- BLK[0..7], the block lane file (rule R25) -/
  blk     : Vector Word 8
  /-- STATUS (rule R26) -/
  status  : Word
  /-- FCMD (rule R27) -/
  fcmd    : Word
  /-- BUF (rule R29): the bytes written since the last reset -/
  buf     : Memory
  /-- BUF_LEN and DIRTY_MODE (rule R11): configuration, written by nothing -/
  params  : Params
  /-- The model's own field: how many resets the unit has taken. The free draws of BUF are a function of it (log entry 3). -/
  resets  : Nat
  /-- The model's own field: the host's transactions not yet issued, the next one first (rule R200, log entry 5) -/
  program : List HostOp
  /-- The model's own field: the values returned to the host, the oldest first (rule R201, log entry 5) -/
  trace   : List Returned
  deriving DecidableEq, Repr

/-- The unit after power-on, which is a reset (10_state.md rule R36, 70_reset_and_hazards.md rule R240), with no host
transaction pending. -/
def State.reset : State where
  val := 0
  cur := 0
  base := 0
  blk := #v[0, 0, 0, 0, 0, 0, 0, 0]
  status := 0
  fcmd := 0
  buf := []
  params := Config.params
  resets := 0
  program := []
  trace := []

end Sys2Proof.Machine
end

