-- ==== Sys2Proof/Machine/Memory.lean ====
section
/-! DEFINITION. The operations over the written bytes of BUF, and their canonical form: addresses strictly rising, so that equal
memories are equal lists. A listed byte is always a written one, so no entry equals what an unlisted address holds (no written byte). -/

namespace Sys2Proof.Machine

/-- The byte written at address `a` since the last reset, if one was. -/
def Memory.lookup : Memory → Nat → Option Byte
  | [], _ => none
  | (k, b) :: m, a => if a = k then some b else Memory.lookup m a

/-- Write byte `b` at address `a`. -/
def Memory.insert (a : Nat) (b : Byte) : Memory → Memory
  | [] => [(a, b)]
  | (k, c) :: m =>
    if a < k then (a, b) :: (k, c) :: m
    else if a = k then (a, b) :: m
    else (k, c) :: Memory.insert a b m

/-- Addresses rise strictly, and the first is at least `lo`. -/
def Memory.risingFrom : Nat → Memory → Bool
  | _, [] => true
  | lo, (k, _) :: m => decide (lo ≤ k) && Memory.risingFrom (k + 1) m

/-- The canonical form. -/
def Memory.wf (m : Memory) : Bool :=
  Memory.risingFrom 0 m

/-- Every listed address is one of BUF (rule R29: "A byte address outside 0 .. BUF_LEN-1 does not exist"). -/
def Memory.within (n : Nat) (m : Memory) : Bool :=
  m.all fun c => decide (c.1 < n)

end Sys2Proof.Machine
end

