-- ==== Sys2Proof/Machine/Flags.lean ====
section
/-! DEFINITION. The fields of STATUS (10_state.md rule R26) and the codes in them (60_exceptions.md rules R211, R212). The unit
has no other flag: no command sets one from a data result (rule R32). -/

namespace Sys2Proof.Machine

/-- STATUS.ERR, bits 3:0. -/
def statusErr (st : Word) : BitVec 4 := st.extractLsb' 0 4

/-- STATUS.FAULT, bit 8. -/
def statusFault (st : Word) : Bool := st.getLsbD 8

/-- STATUS.FCAUSE, bits 15:12. -/
def statusFcause (st : Word) : BitVec 4 := st.extractLsb' 12 4

/-- STATUS with ERR written, every other bit as it was. -/
def withErr (st : Word) (e : BitVec 4) : Word :=
  (st &&& ~~~(0xF : Word)) ||| e.setWidth 64

/-- STATUS with FAULT set, every other bit as it was. -/
def withFault (st : Word) : Word :=
  st ||| 0x100

/-- STATUS with FCAUSE written, every other bit as it was. -/
def withFcause (st : Word) (c : BitVec 4) : Word :=
  (st &&& ~~~(0xF000 : Word)) ||| (c.setWidth 64 <<< 12)

/-- ERR = OK (rule R211). -/
def errOk : BitVec 4 := 0

/-- ERR = INVALID_WIDTH (rule R211). -/
def errInvalidWidth : BitVec 4 := 1

/-- ERR = FAULTED (rule R211). -/
def errFaulted : BitVec 4 := 2

/-- The code of a cause in STATUS.FCAUSE (rule R212). -/
def FaultCause.code : FaultCause → BitVec 4
  | .illegalCmd => 1
  | .cursorWidth => 2
  | .bounds => 3
  | .valueRange => 4
  | .dirtyTarget => 5

/-- The STATUS words a unit can hold (rules R26, R211, R212): OK, INVALID_WIDTH, and a fault of each cause. -/
def legalStatus (st : Word) : Bool :=
  st == 0x0000 || st == 0x0001 || st == 0x1102 || st == 0x2102 || st == 0x3102 || st == 0x4102 || st == 0x5102

end Sys2Proof.Machine
end

