-- ==== Sys2Proof/Machine/Ops.lean ====
section
/-! DEFINITION. The shared operations over BUF and the registers: the byte and stream primitives of 00_scope.md rule R15,
register access through the port (10_state.md rule R34), the fault entry (60_exceptions.md rule R214), the InvalidWidth report (rule R213), the outcome of
a command (rule R210), and reset (70_reset_and_hazards.md rule R240). There is no return from a fault but reset (rule R222). -/

namespace Sys2Proof.Machine

/-! ### BUF -/

/-- `BUF[a]`: the byte written last since the reset, else the byte the reset drew (rules R29, R241). -/
def State.byte (s : State) (a : Nat) : Byte :=
  (Memory.lookup s.buf a).getD (Config.bufDraw s.resets a)

/-- `BUF[a] <- b`. -/
def State.setByte (s : State) (a : Nat) (b : Byte) : State :=
  { s with buf := Memory.insert a b s.buf }

/-- `BUF[a] <- BUF[a] OR b`. -/
def State.orByte (s : State) (a : Nat) (b : Byte) : State :=
  s.setByte a (s.byte a ||| b)

/-- `StreamBit(p) = BUF[p div 8][7 - (p mod 8)]` (rules R14, R15). -/
def State.streamBit (s : State) (p : Nat) : Bool :=
  (s.byte (p / 8)).getLsbD (7 - p % 8)

/-- `StreamRead(p, w)`: the w-bit integer whose bit w-1-i is `StreamBit(p+i)` (rule R15), so the first stream bit is the most
significant. -/
def State.streamRead (s : State) (p : Nat) : (w : Nat) → Nat
  | 0 => 0
  | w + 1 => 2 * s.streamRead p w + (s.streamBit (p + w)).toNat

/-- `MemRead(a, n)`: the 8n-bit integer with `BUF[a]` most significant (rule R15). -/
def State.memRead (s : State) (a : Nat) : (n : Nat) → Nat
  | 0 => 0
  | n + 1 => 256 * s.memRead a n + (s.byte (a + n)).toNat

/-- `MemWrite(a, n, v)`: byte k of the n bytes at `a` takes `v[8(n-1-k)+7 : 8(n-1-k)]` (rule R15). -/
def State.memWrite (s : State) (a : Nat) : (n : Nat) → (v : Nat) → State
  | 0, _ => s
  | n + 1, v => (s.setByte a (BitVec.ofNat 8 (v / 2 ^ (8 * n)))).memWrite (a + 1) n v

/-- The byte whose bit `7 - i` is `f i` (rule R14: the most significant bit is the first of the stream). -/
def byteOfBits (f : Nat → Bool) : Byte :=
  BitVec.ofBoolListBE [f 0, f 1, f 2, f 3, f 4, f 5, f 6, f 7]

/-- The bits that `StreamOr(p, w, v)` ORs into byte `a`: stream bit `p+i` takes `v[w-1-i]`, `i` in `0..w-1` (rule R15). -/
def fieldByte (p w v a : Nat) : Byte :=
  byteOfBits fun i => decide (p ≤ 8 * a + i) && decide (8 * a + i < p + w) && v.testBit (p + w - 1 - (8 * a + i))

/-- OR `f a`, `f (a+1)`, ... into the `n` bytes from address `a` on. -/
def State.orBytes (s : State) (a : Nat) : (n : Nat) → (f : Nat → Byte) → State
  | 0, _ => s
  | n + 1, f => (s.orByte a (f a)).orBytes (a + 1) n f

/-- The number of bytes a field of `w` bits at stream position `p` touches (20_memory.md rule R58). -/
def touchedCount (p w : Nat) : Nat :=
  (p % 8 + w - 1) / 8 + 1

/-- `StreamOr(p, w, v)` (rule R15), byte by byte over the touched bytes. -/
def State.streamOr (s : State) (p w v : Nat) : State :=
  s.orBytes (p / 8) (touchedCount p w) (fieldByte p w v)

/-- The `n` stream bits from position `p` on are all 0. -/
def State.streamZero (s : State) (p n : Nat) : Bool :=
  (List.range n).all fun i => !s.streamBit (p + i)

/-! ### Registers -/

/-- The value a register read returns (43_host_port.md rule R190): a read of CMD returns 0. -/
def State.regRead (s : State) : Reg → Word
  | .cmd => 0
  | .status => s.status
  | .fcmd => s.fcmd
  | .cur => s.cur
  | .val => s.val
  | .base => s.base
  | .blk j => s.blk[j]

/-- What a host write stores (rules R191, R193): STATUS and FCMD are read-only, CMD holds no value. -/
def State.regWrite (s : State) (r : Reg) (v : Word) : State :=
  match r with
  | .cmd => s
  | .status => s
  | .fcmd => s
  | .cur => { s with cur := v }
  | .val => { s with val := v }
  | .base => { s with base := v }
  | .blk j => { s with blk := s.blk.set j v }

/-! ### Outcomes of a command -/

/-- STATUS.FAULT = 1 (rule R26). -/
def State.faulted (s : State) : Bool :=
  statusFault s.status

/-- `raise Fault(c)` by the CMD write of data `d`: the fault entry of rule R214, and nothing else. -/
def State.takeFault (s : State) (c : FaultCause) (d : Word) : State :=
  { s with status := withFcause (withFault (withErr s.status errFaulted)) c.code, fcmd := d }

/-- `report InvalidWidth` (rule R213): STATUS.ERR <- 1 and nothing else. -/
def State.reportInvalidWidth (s : State) : State :=
  { s with status := withErr s.status errInvalidWidth }

/-- `STATUS.ERR <- 0`: the command completed (rule R211). -/
def State.succeed (s : State) : State :=
  { s with status := withErr s.status errOk }

/-- How a command ends (rule R210): done, the recoverable error, or a fault. -/
inductive Verdict where
  | done
  | invalidWidth
  | fault (c : FaultCause)
  deriving DecidableEq, Repr

/-- The end of a command issued by the CMD write of data `d`: on `done` all the writes of `body` and ERR = 0, else
nothing but the report (rules R55, R210). -/
def State.conclude (s : State) (d : Word) (v : Verdict) (body : State) : State :=
  match v with
  | .done => body.succeed
  | .invalidWidth => s.reportInvalidWidth
  | .fault c => s.takeFault c d

/-- A command issued by the CMD write of data `d`. "While STATUS.FAULT = 1 the unit executes no command" (rule R215). -/
def State.command (s : State) (d : Word) (v : Verdict) (body : State) : State :=
  if s.faulted then s else s.conclude d v body

/-! ### Reset -/

/-- Reset (rules R36, R198, R240): every register takes its reset value, every byte of BUF is drawn anew (rule R241); the parameters and what is
the host's stay. -/
def State.takeReset (s : State) : State :=
  { State.reset with params := s.params, resets := s.resets + 1, program := s.program, trace := s.trace }

end Sys2Proof.Machine
end

