-- ==== Sys2Proof/Machine/Operands.lean ====
section
/-! DEFINITION. The operands of the commands (30_encoding.md rules R71, R72): the width, the cursor's field and target
(40_bit_cursor.md rule R100), the window of a block and its lanes (41_block_codec.md rules R131, R132), and the conditions
that the checks test. -/

namespace Sys2Proof.Machine

/-- The width is one of 1..63 (rule R10). -/
def widthOk (w : Nat) : Bool :=
  decide (1 ≤ w) && decide (w ≤ 63)

/-- BYTE_INDEX = CUR[63:3] (10_state.md rule R23). -/
def byteIndex (cur : Word) : BitVec 61 := cur.extractLsb' 3 61

/-- BIT_OFFSET = CUR[2:0] (rule R23). -/
def bitOffset (cur : Word) : BitVec 3 := cur.extractLsb' 0 3

/-- The address of the last byte a field of `w` bits at `p` touches: `(p+w-1) div 8` (rule R100). -/
def lastTouched (p w : Nat) : Nat :=
  (p + w - 1) / 8

/-- The length of a pack's target, the positions `p .. 8*(last+1)-1`: the field and its trailing bits (rule R100). -/
def targetLength (p w : Nat) : Nat :=
  8 * (lastTouched p w + 1) - p

/-- BOUNDS of a cursor command: `p + w > 8 * BUF_LEN`, in unbounded integers (60_exceptions.md rule R219). -/
def cursorOutside (s : State) (w : Nat) : Bool :=
  decide (8 * s.params.bufLen < s.cur.toNat + w)

/-- BOUNDS of a block command: `BASE + w > BUF_LEN`, in unbounded integers (rule R219). -/
def windowOutside (s : State) (w : Nat) : Bool :=
  decide (s.params.bufLen < s.base.toNat + w)

/-- `v >= 2^w` (rules R106, R135). -/
def tooWide (w : Nat) (v : Word) : Bool :=
  decide (2 ^ w ≤ v.toNat)

/-- The dirty-target check is made and fails: DIRTY_MODE = FAULT and one of the `n` stream bits from `p` on is 1 (rules R104, R134). -/
def dirty (s : State) (p n : Nat) : Bool :=
  decide (s.params.dirtyMode = .fault) && !s.streamZero p n

/-- The eight lanes, lane 0 first (rule R25). -/
def State.lanes (s : State) : List Word :=
  s.blk.toList

/-- The concatenation of the low `w` bits of values, the first most significant (rule R132). -/
def concatLanes (w : Nat) (vs : List Word) : Nat :=
  vs.foldl (fun t v => t * 2 ^ w + v.toNat % 2 ^ w) 0

/-- Lane `j` of an 8w-bit concatenation: `T[8w-1-j*w : 8w-w-j*w]`, zero-extended to 64 bits (41_block_codec.md rule R140). -/
def laneOf (w t j : Nat) : Word :=
  BitVec.ofNat 64 (t / 2 ^ (8 * w - w - j * w) % 2 ^ w)

end Sys2Proof.Machine
end

