-- ==== Sys2Proof/Machine/Block.lean ====
section
/-! DEFINITION. The block commands PACKBLK and UNPACKBLK (41_block_codec.md): the width dispatcher (rule R130), the checks, and
the engines by the closed form of rules R132, R133 and R140 (rule R145: "a model may implement E_w by the closed form of rule
R132 for every w"). -/

namespace Sys2Proof.Machine

/-- The checks of PACKBLK, in order (rule R133); the first is the dispatcher's (rule R130). -/
def packblkVerdict (w : Nat) (s : State) : Verdict :=
  if !widthOk w then .invalidWidth
  else if windowOutside s w then .fault .bounds
  else if s.lanes.any (tooWide w) then .fault .valueRange
  else if dirty s (8 * s.base.toNat) (8 * w) then .fault .dirtyTarget
  else .done

/-- The writes of PACKBLK: the 8w-bit concatenation T ORed into the window's w bytes, most significant byte first, which is
`StreamOr(8*BASE, 8w, T)` (rules R131, R133). -/
def packWindow (w : Nat) (s : State) : State :=
  s.streamOr (8 * s.base.toNat) (8 * w) (concatLanes w s.lanes)

/-- PACKBLK w (rule R133). -/
def execPackblk (w : BitVec 8) (s : State) : Host.Outcome State Fault Refusal :=
  .next (s.command (cmdData (.packblk w)) (packblkVerdict w.toNat s) (packWindow w.toNat s))

/-- The checks of UNPACKBLK, in order (rule R140); the first is the dispatcher's (rule R130). -/
def unpackblkVerdict (w : Nat) (s : State) : Verdict :=
  if !widthOk w then .invalidWidth
  else if windowOutside s w then .fault .bounds
  else .done

/-- The writes of UNPACKBLK: `T <- MemRead(BASE, w)`, then `BLK[j]` takes slice j of T (rule R140). -/
def unpackWindow (w : Nat) (s : State) : State :=
  let t := s.memRead s.base.toNat w
  { s with blk := #v[laneOf w t 0, laneOf w t 1, laneOf w t 2, laneOf w t 3,
                     laneOf w t 4, laneOf w t 5, laneOf w t 6, laneOf w t 7] }

/-- UNPACKBLK w (rule R140). -/
def execUnpackblk (w : BitVec 8) (s : State) : Host.Outcome State Fault Refusal :=
  .next (s.command (cmdData (.unpackblk w)) (unpackblkVerdict w.toNat s) (unpackWindow w.toNat s))

end Sys2Proof.Machine
end

