-- ==== Sys2Proof/Machine/Cursor.lean ====
section
/-! DEFINITION. The bit-cursor commands PACKBITS and UNPACKBITS (40_bit_cursor.md), by the closed forms of rules R103 and R110. -/

namespace Sys2Proof.Machine

/-- The checks of PACKBITS, in order (rule R103). -/
def packbitsVerdict (w : Nat) (s : State) : Verdict :=
  if !widthOk w then .fault .cursorWidth
  else if cursorOutside s w then .fault .bounds
  else if tooWide w s.val then .fault .valueRange
  else if dirty s s.cur.toNat (targetLength s.cur.toNat w) then .fault .dirtyTarget
  else .done

/-- The writes of PACKBITS: `StreamOr(p, w, VAL[w-1:0])`, `CUR <- p + w` (rule R103). -/
def packField (w : Nat) (s : State) : State :=
  { s.streamOr s.cur.toNat w s.val.toNat with cur := BitVec.ofNat 64 (s.cur.toNat + w) }

/-- PACKBITS w (rule R103). -/
def execPackbits (w : BitVec 8) (s : State) : Host.Outcome State Fault Refusal :=
  .next (s.command (cmdData (.packbits w)) (packbitsVerdict w.toNat s) (packField w.toNat s))

/-- The checks of UNPACKBITS, in order (rule R110). -/
def unpackbitsVerdict (w : Nat) (s : State) : Verdict :=
  if !widthOk w then .fault .cursorWidth
  else if cursorOutside s w then .fault .bounds
  else .done

/-- The writes of UNPACKBITS: `VAL <- zext_64(StreamRead(p, w))`, `CUR <- p + w` (rule R110). -/
def unpackField (w : Nat) (s : State) : State :=
  { s with val := BitVec.ofNat 64 (s.streamRead s.cur.toNat w), cur := BitVec.ofNat 64 (s.cur.toNat + w) }

/-- UNPACKBITS w (rule R110). -/
def execUnpackbits (w : BitVec 8) (s : State) : Host.Outcome State Fault Refusal :=
  .next (s.command (cmdData (.unpackbits w)) (unpackbitsVerdict w.toNat s) (unpackField w.toNat s))

end Sys2Proof.Machine
end

