-- ==== Sys2Proof/Machine/Dispatch.lean ====
section
/-! DEFINITION. One arm for each command (30_encoding.md rule R73). -/

namespace Sys2Proof.Machine

def exec (i : Instr) (s : State) : Host.Outcome State Fault Refusal :=
  match i with
  | .packbits w => Sys2Proof.Machine.execPackbits w s
  | .unpackbits w => Sys2Proof.Machine.execUnpackbits w s
  | .packblk w => Sys2Proof.Machine.execPackblk w s
  | .unpackblk w => Sys2Proof.Machine.execUnpackblk w s

end Sys2Proof.Machine
end

