-- ==== Sys2Proof/Machine/Port.lean ====
section
/-! DEFINITION. The host's transactions on the unit (43_host_port.md rules R190 to R198). -/

namespace Sys2Proof.Machine

/-- The unit takes the CMD write of data `d` with STATUS.FAULT = 0 (rule R194): it decodes `d` and executes the command, or
raises ILLEGAL_CMD (60_exceptions.md rule R218). -/
def issue (d : Word) (s : State) : Host.Outcome State Fault Refusal :=
  match decode d with
  | .ok i => exec i s
  | .illegal _ => .next (s.takeFault .illegalCmd d)

/-- A host write of `v` to register `r` with STATUS.FAULT = 0 (rules R191, R193, R194). -/
def writeReg (r : Reg) (v : Word) (s : State) : Host.Outcome State Fault Refusal :=
  match r with
  | .cmd => issue v s
  | r => .next (s.regWrite r v)

/-- A host read returned `v` (rule R201). -/
def State.returns (s : State) (v : Returned) : State :=
  { s with trace := s.trace ++ [v] }

/-- One transaction of the unit. Reads act in every state (rules R190, R195); "While STATUS.FAULT = 1, every host write (to a
register, to CMD or to BUF) is ignored" (rule R192); reset acts in every state (rule R198). -/
def perform (t : Txn) (s : State) : Host.Outcome State Fault Refusal :=
  match t with
  | .rd r => .next (s.returns (.reg r (s.regRead r)))
  | .wr r v => if s.faulted then .next s else writeReg r v s
  | .brd a => .next (s.returns (.buf a (s.byte a)))
  | .bwr a b => if s.faulted then .next s else .next (s.setByte a b)
  | .reset => .next s.takeReset

/-- One line of the host program: its transaction, or a refusal if it is none (rule R197). -/
def performOp (h : HostOp) (s : State) : Host.Outcome State Fault Refusal :=
  match resolve s.params h with
  | .txn t => perform t s
  | .illFormed why => .refused (.illFormed why)

/-- The host's next move. With no transaction pending the unit waits, all state retained (60_exceptions.md rule R229). A
program that holds an ill-formed transaction anywhere is refused, not executed (rule R197; 93_implementation_defined.md U11: "the model rejects it before it runs").
Else the first pending transaction acts, and is no longer pending. -/
def advance (s : State) : Host.Outcome State Fault Refusal :=
  match s.program with
  | [] => .next s
  | h :: rest =>
    match programProblem s.params (h :: rest) with
    | some why => .refused (.illFormed why)
    | none => performOp h { s with program := rest }

/-- The host is about to write `d` to CMD: a whole-word write at CMD's offset, ahead of everything pending. -/
def State.withCommand (s : State) (d : Word) : State :=
  { s with program := .wr Reg.cmd.offset 64 d :: s.program }

end Sys2Proof.Machine
end

