-- ==== Sys2Proof/Machine/Step.lean ====
section
/-! DEFINITION. One step of the machine: the host's next transaction, with the command it issues (20_memory.md rules R55, R62). -/

namespace Sys2Proof.Machine

def step (s : State) : Host.Outcome State Fault Refusal :=
  advance s

/-- `s` with the command whose word is `w` as the host's next transaction. The unit fetches nothing (10_state.md rule R31): its
"fetch" is the CMD write the host issues next. Bits of the 64-bit CMD data above `nbits` are 0. -/
def State.withFetchWord (s : State) (nbits w : Nat) : State :=
  s.withCommand (BitVec.ofNat 64 (w % 2 ^ nbits))

end Sys2Proof.Machine
end

