-- ==== Sys2Proof/Machine/CursorPhases.lean ====
section
/-! DEFINITION. The phase machines PARTIAL, FULL, TAIL of the cursor engine (40_bit_cursor.md rules R101 and R111): the
source's own description of what one PACKBITS or UNPACKBITS does after its checks pass. `exec` uses the closed forms of rules R103
and R110, to which the spec says these are equal. `b` is the byte the machine is at, `rem` the bits left. -/

namespace Sys2Proof.Machine

/-- FULL of rule R101, `n` rounds of its loop: one whole byte of `v` from the top of the bits left. -/
def packFull (v : Nat) : (n b rem : Nat) → State → State
  | 0, _, _, s => s
  | n + 1, b, rem, s => packFull v n (b + 1) (rem - 8) (s.orByte b (BitVec.ofNat 8 (v / 2 ^ (rem - 8))))

/-- TAIL of rule R101: the last 1 to 7 bits, left-aligned in byte `b`. -/
def packTail (v b rem : Nat) (s : State) : State :=
  if 0 < rem then
    { s.orByte b (BitVec.ofNat 8 (v * 2 ^ (8 - rem))) with cur := BitVec.ofNat 64 (8 * b + rem) }
  else { s with cur := BitVec.ofNat 64 (8 * b) }

/-- FULL, `while rem >= 8`, then TAIL (rule R101). -/
def packFullTail (v b rem : Nat) (s : State) : State :=
  packTail v (b + rem / 8) (rem % 8) (packFull v (rem / 8) b rem s)

/-- The pack phase machine (rule R101). -/
def packPhases (w : Nat) (s : State) : State :=
  let b := s.cur.toNat / 8
  let o := s.cur.toNat % 8
  let v := s.val.toNat
  if 0 < o then
    let chunk := 8 - o
    if w < chunk then
      { s.orByte b (BitVec.ofNat 8 (v * 2 ^ (chunk - w) % 2 ^ chunk)) with cur := BitVec.ofNat 64 (8 * b + (o + w)) }
    else
      packFullTail v (b + 1) (w - chunk) (s.orByte b (BitVec.ofNat 8 (v / 2 ^ (w - chunk) % 2 ^ chunk)))
  else packFullTail v b w s

/-- FULL of rule R111, `n` rounds of its loop: one whole byte appended to `v`. -/
def unpackFull (s : State) : (n b v : Nat) → Nat
  | 0, _, v => v
  | n + 1, b, v => unpackFull s n (b + 1) (v * 2 ^ 8 + (s.byte b).toNat)

/-- TAIL of rule R111: the top `rem` bits of byte `b` appended. -/
def unpackTail (b rem v : Nat) (s : State) : State :=
  if 0 < rem then
    { s with val := BitVec.ofNat 64 (v * 2 ^ rem + (s.byte b).toNat / 2 ^ (8 - rem)), cur := BitVec.ofNat 64 (8 * b + rem) }
  else { s with val := BitVec.ofNat 64 v, cur := BitVec.ofNat 64 (8 * b) }

/-- FULL, `while rem >= 8`, then TAIL (rule R111). -/
def unpackFullTail (b rem v : Nat) (s : State) : State :=
  unpackTail (b + rem / 8) (rem % 8) (unpackFull s (rem / 8) b v) s

/-- The unpack phase machine (rule R111). -/
def unpackPhases (w : Nat) (s : State) : State :=
  let b := s.cur.toNat / 8
  let o := s.cur.toNat % 8
  if 0 < o then
    let chunk := 8 - o
    if w < chunk then
      { s with val := BitVec.ofNat 64 ((s.byte b).toNat / 2 ^ (chunk - w) % 2 ^ w), cur := BitVec.ofNat 64 (8 * b + (o + w)) }
    else
      unpackFullTail (b + 1) (w - chunk) ((s.byte b).toNat % 2 ^ chunk) s
  else unpackFullTail b w 0 s

end Sys2Proof.Machine
end

