-- ==== Sys2Proof/Machine/Assembler.lean ====
section
/-! DEFINITION. The assembly lines and pseudo-instructions of host programs (30_encoding.md rules R78, R79), as the host transactions
they stand for. -/

namespace Sys2Proof.Machine

/-- `wr REG, V` (rule R78). -/
def asmWr (r : Reg) (v : Word) : HostOp := .wr r.offset 64 v

/-- `rd REG` (rule R78). -/
def asmRd (r : Reg) : HostOp := .rd r.offset 64

/-- `packbits W` = `wr CMD, 0x10 * 2^24 + W * 2^16` (rule R78). -/
def asmPackbits (w : Nat) : HostOp := asmWr .cmd (BitVec.ofNat 64 (0x10 * 2 ^ 24 + w * 2 ^ 16))

/-- `unpackbits W` = `wr CMD, 0x11 * 2^24 + W * 2^16` (rule R78). -/
def asmUnpackbits (w : Nat) : HostOp := asmWr .cmd (BitVec.ofNat 64 (0x11 * 2 ^ 24 + w * 2 ^ 16))

/-- `packblk W` = `wr CMD, 0x20 * 2^24 + W * 2^16` (rule R78). -/
def asmPackblk (w : Nat) : HostOp := asmWr .cmd (BitVec.ofNat 64 (0x20 * 2 ^ 24 + w * 2 ^ 16))

/-- `unpackblk W` = `wr CMD, 0x21 * 2^24 + W * 2^16` (rule R78). -/
def asmUnpackblk (w : Nat) : HostOp := asmWr .cmd (BitVec.ofNat 64 (0x21 * 2 ^ 24 + w * 2 ^ 16))

/-- `setcur B, O` (rule R79). -/
def asmSetcur (b o : Nat) : List HostOp := [asmWr .cur (BitVec.ofNat 64 (8 * b + o))]

/-- `setval V` (rule R79). -/
def asmSetval (v : Word) : List HostOp := [asmWr .val v]

/-- `setbase A` (rule R79). -/
def asmSetbase (a : Word) : List HostOp := [asmWr .base a]

/-- `setblk V0, ..., V7`: eight writes, in order (rule R79). -/
def asmSetblk (v : Vector Word 8) : List HostOp :=
  [asmWr (.blk 0) v[0], asmWr (.blk 1) v[1], asmWr (.blk 2) v[2], asmWr (.blk 3) v[3],
   asmWr (.blk 4) v[4], asmWr (.blk 5) v[5], asmWr (.blk 6) v[6], asmWr (.blk 7) v[7]]

/-- `bzero A, N`: N writes of 0 from address A on (rule R79). -/
def asmBzero (a n : Nat) : List HostOp := (List.range n).map fun k => .bwr (a + k) 0

/-- `pack W, V` (rule R79). -/
def asmPack (w : Nat) (v : Word) : List HostOp := [asmWr .val v, asmPackbits w]

/-- `unpack W` (rule R79). -/
def asmUnpack (w : Nat) : List HostOp := [asmUnpackbits w, asmRd .val]

/-- `chk` (rule R79). -/
def asmChk : List HostOp := [asmRd .status]

end Sys2Proof.Machine
end

