-- ==== Sys2Proof/Machine/DeltaPipeline.lean ====
section
/-! DEFINITION. The delta-pack pipeline (42_delta_pipeline.md): the host's arithmetic and the host program it issues. It is a
host-side procedure and no command (00_scope.md rule R8): nothing in the unit's step refers to it. -/

namespace Sys2Proof.Machine

/-- The deltas of entries, `previous` starting at `prev` (rule R171: 0). -/
def deltasFrom (prev : Word) : List Word → List Word
  | [] => []
  | e :: es => (e - prev) :: deltasFrom e es

/-- Rule R171. -/
def deltas (es : List Word) : List Word := deltasFrom 0 es

/-- The running sums that give the entries back (rule R177), mod 2^64. -/
def sumsFrom (prev : Word) : List Word → List Word
  | [] => []
  | d :: ds => (prev + d) :: sumsFrom (prev + d) ds

/-- Rule R177. -/
def entriesOf (ds : List Word) : List Word := sumsFrom 0 ds

/-- G, the number of full groups (rule R173). -/
def groupCount (n : Nat) : Nat := n / 8

/-- t, the number of tail values (rule R174). -/
def tailCount (n : Nat) : Nat := n % 8

/-- L, the length of the packed region in bytes (rule R175). -/
def regionLength (w n : Nat) : Nat :=
  groupCount n * w + (tailCount n * w + 7) / 8

/-- The transactions that pack group `g` of the deltas into `w` bytes of the region at `r` (rule R173). -/
def packGroup (w r : Nat) (ds : List Word) (g : Nat) : List HostOp :=
  asmSetblk #v[ds.getD (8 * g) 0, ds.getD (8 * g + 1) 0, ds.getD (8 * g + 2) 0, ds.getD (8 * g + 3) 0,
               ds.getD (8 * g + 4) 0, ds.getD (8 * g + 5) 0, ds.getD (8 * g + 6) 0, ds.getD (8 * g + 7) 0]
    ++ asmSetbase (BitVec.ofNat 64 (r + g * w)) ++ [asmPackblk w]

/-- The transactions that pack the tail (rule R174). -/
def packRest (w r : Nat) (ds : List Word) : List HostOp :=
  asmSetcur (r + groupCount ds.length * w) 0 ++ (ds.drop (8 * groupCount ds.length)).flatMap (asmPack w)

/-- The host program that packs entries at width `w` into the region at `r` (rules R171, R173, R174). -/
def packProgram (w r : Nat) (es : List Word) : List HostOp :=
  (List.range (groupCount es.length)).flatMap (packGroup w r (deltas es)) ++ packRest w r (deltas es)

/-- The transactions that unpack group `g` (rule R177). -/
def unpackGroup (w r g : Nat) : List HostOp :=
  asmSetbase (BitVec.ofNat 64 (r + g * w)) ++
    [asmUnpackblk w, asmRd (.blk 0), asmRd (.blk 1), asmRd (.blk 2), asmRd (.blk 3), asmRd (.blk 4), asmRd (.blk 5),
     asmRd (.blk 6), asmRd (.blk 7)]

/-- The host program that unpacks `n` deltas of width `w` from the region at `r`; its reads return them in order (rule R177). -/
def unpackProgram (w r n : Nat) : List HostOp :=
  (List.range (groupCount n)).flatMap (unpackGroup w r) ++ asmSetcur (r + groupCount n * w) 0 ++
    (List.range (tailCount n)).flatMap fun _ => asmUnpack w

end Sys2Proof.Machine
end

