-- ==== Sys2Proof/Machine/Engines.lean ====
section
/-! DEFINITION. The 63 width-specialized engines as networks of slices (41_block_codec.md rule R137): `packWiring w k` and
`unpackWiring w j` are the slice lists that 44_block_engines.md writes out for every width (rules R300 to R363), computed from the
widths; the byte-aligned engines (rule R138); and the alignment pattern (rule R139). `exec` uses the closed forms, to
which the spec says these are equal (rule R145). -/

namespace Sys2Proof.Machine

/-- The slice `x[hi:lo]` of source number `src`: a lane when packing, a window byte when unpacking (rule R300). -/
structure Slice where
  src : Nat
  hi  : Nat
  lo  : Nat
  deriving DecidableEq, Repr

/-- The slices of the lanes that window byte `k` of engine E_w is the concatenation of: for each value `j` that has a
stream bit among 8k .. 8k+7, its bits there (rules R132, R137). -/
def packWiring (w k : Nat) : List Slice :=
  (List.range ((8 * k + 7) / w - 8 * k / w + 1)).map fun i =>
    let j := 8 * k / w + i
    let first := max (8 * k) (j * w)
    let past := min (8 * k + 8) (j * w + w)
    { src := j, hi := w - 1 - (first - j * w), lo := w - (past - j * w) }

/-- The slices of the window bytes that value `j` of engine E_w is the concatenation of: for each byte `k` that holds a
stream bit of j*w .. j*w+w-1, its bits there (rules R132, R137). -/
def unpackWiring (w j : Nat) : List Slice :=
  (List.range ((j * w + w - 1) / 8 - j * w / 8 + 1)).map fun i =>
    let k := j * w / 8 + i
    let first := max (j * w) (8 * k)
    let past := min (j * w + w) (8 * k + 8)
    { src := k, hi := 7 - (first - 8 * k), lo := 8 - (past - 8 * k) }

/-- `x[hi:lo]` of an integer (rule R13). -/
def sliceOf (hi lo x : Nat) : Nat :=
  x / 2 ^ lo % 2 ^ (hi - lo + 1)

/-- The concatenation of slices, the first most significant (rule R300). -/
def joinSlices (source : Nat → Nat) (sl : List Slice) : Nat :=
  sl.foldl (fun t x => t * 2 ^ (x.hi - x.lo + 1) + sliceOf x.hi x.lo (source x.src)) 0

/-- Window byte `k` as engine E_w forms it. -/
def enginePackByte (w : Nat) (vs : List Word) (k : Nat) : Byte :=
  BitVec.ofNat 8 (joinSlices (fun j => (vs.getD j 0).toNat) (packWiring w k))

/-- Engine E_w, pack direction: each byte of the window ORed with what the network forms for it. -/
def enginePack (w : Nat) (s : State) : State :=
  s.orBytes s.base.toNat w fun a => enginePackByte w s.lanes (a - s.base.toNat)

/-- Value `j` as engine E_w forms it from the window. -/
def engineUnpackLane (w : Nat) (s : State) (j : Nat) : Word :=
  BitVec.ofNat 64 (joinSlices (fun k => (s.byte (s.base.toNat + k)).toNat) (unpackWiring w j))

/-- Engine E_w, unpack direction. -/
def engineUnpack (w : Nat) (s : State) : State :=
  { s with blk := #v[engineUnpackLane w s 0, engineUnpackLane w s 1, engineUnpackLane w s 2, engineUnpackLane w s 3,
                     engineUnpackLane w s 4, engineUnpackLane w s 5, engineUnpackLane w s 6, engineUnpackLane w s 7] }

/-- The byte-aligned pack engine of width 8m over lanes, the first at address `a`: `MemWrite(a, m, v)` for each (rule R138). -/
def alignedPack (m : Nat) : (a : Nat) → List Word → State → State
  | _, [], s => s
  | a, v :: vs, s => alignedPack m (a + m) vs (s.memWrite a m v.toNat)

/-- The byte-aligned unpack engine of width 8m: value `j` is `MemRead(BASE + j*m, m)` (rule R138). -/
def alignedUnpackLane (m : Nat) (s : State) (j : Nat) : Word :=
  BitVec.ofNat 64 (s.memRead (s.base.toNat + j * m) m)

/-- The window byte at which value `j` starts (rule R139). -/
def laneStartByte (w j : Nat) : Nat := j * w / 8

/-- The bit offset in that byte at which value `j` starts (rule R139). -/
def laneStartOffset (w j : Nat) : Nat := j * w % 8

/-- How many bytes value `j` spans (rule R139). -/
def laneSpan (w j : Nat) : Nat := (j * w % 8 + w - 1) / 8 + 1

/-- The period of the start offsets (rule R139, 90_conflicts.md C4). -/
def offsetPeriod (w : Nat) : Nat := 8 / Nat.gcd w 8

end Sys2Proof.Machine
end

