-- ==== Sys2Proof/Safety.lean ====
section
/-! DEFINITION. The terms that claims about the machine use: its invariants, the verdict on a CMD write, sequences of
commands, and a run with its premises and its end (43_host_port.md rules R200, R201). -/

namespace Sys2Proof.Machine

/-- The state is one a unit can be in: BUF in canonical form and inside BUF_LEN (10_state.md rule R29), STATUS one of the words that are
ever written (rules R26, R211, R212), FCMD "0 while STATUS.FAULT is 0" (rule R27). -/
def State.Inv (s : State) : Prop :=
  Memory.wf s.buf = true ∧ Memory.within s.params.bufLen s.buf = true ∧ legalStatus s.status = true ∧
    (s.faulted = false → s.fcmd = 0)

/-- When PACKBITS w executes normally (40_bit_cursor.md rule R103, its four checks). The target is the positions p .. 8*(last+1)-1
with last = (p+w-1) div 8 (rule R100). -/
def State.PackbitsFits (s : State) (w : Nat) : Prop :=
  (1 ≤ w ∧ w ≤ 63) ∧ s.cur.toNat + w ≤ 8 * s.params.bufLen ∧ s.val.toNat < 2 ^ w ∧
    (s.params.dirtyMode = .fault →
      ∀ q, s.cur.toNat ≤ q → q < 8 * ((s.cur.toNat + w - 1) / 8 + 1) → s.streamBit q = false)

/-- When UNPACKBITS w executes normally (rule R110, its two checks). -/
def State.UnpackbitsFits (s : State) (w : Nat) : Prop :=
  (1 ≤ w ∧ w ≤ 63) ∧ s.cur.toNat + w ≤ 8 * s.params.bufLen

/-- When PACKBLK w executes normally (41_block_codec.md rule R133, its four checks). -/
def State.PackblkFits (s : State) (w : Nat) : Prop :=
  (1 ≤ w ∧ w ≤ 63) ∧ s.base.toNat + w ≤ s.params.bufLen ∧ (∀ v ∈ s.blk.toList, v.toNat < 2 ^ w) ∧
    (s.params.dirtyMode = .fault → ∀ a, s.base.toNat ≤ a → a < s.base.toNat + w → s.byte a = 0)

/-- When UNPACKBLK w executes normally (rule R140, its two checks). -/
def State.UnpackblkFits (s : State) (w : Nat) : Prop :=
  (1 ≤ w ∧ w ≤ 63) ∧ s.base.toNat + w ≤ s.params.bufLen

/-- The checks of a command, in the order of 60_exceptions.md rule R216. -/
def commandVerdict (i : Instr) (s : State) : Verdict :=
  match i with
  | .packbits w => packbitsVerdict w.toNat s
  | .unpackbits w => unpackbitsVerdict w.toNat s
  | .packblk w => packblkVerdict w.toNat s
  | .unpackblk w => unpackblkVerdict w.toNat s

/-- The writes of a command whose checks pass. -/
def commandBody (i : Instr) (s : State) : State :=
  match i with
  | .packbits w => packField w.toNat s
  | .unpackbits w => unpackField w.toNat s
  | .packblk w => packWindow w.toNat s
  | .unpackblk w => unpackWindow w.toNat s

/-- The checks of the CMD write of data `d`: decoding, then the command's (rule R216). -/
def verdictOf (d : Word) (s : State) : Verdict :=
  match decode d with
  | .illegal _ => .fault .illegalCmd
  | .ok i => commandVerdict i s

/-- A faulted state explains its own fault: the checks of the CMD write that FCMD holds, made against the state as it
stands, fail with the cause that FCAUSE names (rule R212: "the cause is recomputable from FCMD and the unchanged registers"). -/
def State.CauseRecomputable (s : State) : Prop :=
  s.faulted = true → ∃ c, verdictOf s.fcmd s = .fault c ∧ statusFcause s.status = c.code

/-- `wr VAL, v; packbits w` for each width and value in turn, as long as the commands answer a next state (40_bit_cursor.md
rule R108). -/
def packAll : List (BitVec 8 × Word) → State → Host.Outcome State Fault Refusal
  | [], s => .next s
  | (w, v) :: rest, s =>
    match exec (.packbits w) (s.regWrite .val v) with
    | .next t => packAll rest t
    | .fault r => .fault r
    | .refused r => .refused r

/-- `unpackbits w` for each width in turn, VAL read after each: the state at the end, and the values read after `vs` (41_block_codec.md
rule R141, 40_bit_cursor.md rule R114). -/
def unpackAll : List (BitVec 8) → State → List Word → Host.Outcome (State × List Word) Fault Refusal
  | [], s, vs => .next (s, vs)
  | w :: rest, s, vs =>
    match exec (.unpackbits w) s with
    | .next t => unpackAll rest t (vs ++ [t.val])
    | .fault r => .fault r
    | .refused r => .refused r

/-- The bits that a list of widths takes. -/
def totalBits (ws : List (BitVec 8)) : Nat :=
  (ws.map (·.toNat)).sum

/-- The concatenation of values at their widths, the first most significant (rule R108). -/
def concatFields (ps : List (BitVec 8 × Word)) : Nat :=
  ps.foldl (fun t x => t * 2 ^ x.1.toNat + x.2.toNat) 0

/-- The host issues a program, each transaction completing before the next (rules R194, R200). -/
def runProgram (s : State) (ops : List HostOp) : Host.Outcome State Fault Refusal :=
  Host.Core.run Sys2Proof.core ops.length { s with program := ops }

/-- A run: one `reset`, then a host program (rule R200, P-RESET). -/
def runOf (s : State) (ops : List HostOp) : Host.Outcome State Fault Refusal :=
  runProgram s (.reset :: ops)

/-- "The run ends correctly when, in that state, STATUS.FAULT = 0 and no transaction was refused" (rule R201). -/
def endsCorrectly (o : Host.Outcome State Fault Refusal) : Prop :=
  match o with
  | .next t => t.faulted = false ∧ t.program = []
  | .fault _ => False
  | .refused _ => False

/-- The bytes of BUF that a pack command issued by the CMD write of data `d` touches: reads or writes (00_scope.md rule R19), the
bytes of 20_memory.md rule R58. A command that is not executed, or that ends at its width, BOUNDS or VALUE_RANGE check, touches none:
only the check after these reads the target (60_exceptions.md rules R215, R216; log entry 11). -/
def packTouches (d : Word) (s : State) : List Nat :=
  match decode d with
  | .ok (.packbits w) =>
    if s.faulted || !widthOk w.toNat || cursorOutside s w.toNat || tooWide w.toNat s.val then []
    else (List.range (touchedCount s.cur.toNat w.toNat)).map (s.cur.toNat / 8 + ·)
  | .ok (.packblk w) =>
    if s.faulted || !widthOk w.toNat || windowOutside s w.toNat || s.lanes.any (tooWide w.toNat) then []
    else (List.range w.toNat).map (s.base.toNat + ·)
  | .ok (.unpackbits _) => []
  | .ok (.unpackblk _) => []
  | .illegal _ => []

/-- The bytes that a line of the host program touches by a pack command. -/
def opTouches (h : HostOp) (s : State) : List Nat :=
  match h with
  | .wr off bits d => if off = Reg.cmd.offset ∧ bits = 64 then packTouches d s else []
  | .rd _ _ => []
  | .brd _ => []
  | .bwr _ _ => []
  | .reset => []

/-- The addresses written 0 by `bwr` since the last reset, after a line of the host program. A faulted unit ignores the write (rule
R192). -/
def clearedAfter (h : HostOp) (s : State) (cleared : List Nat) : List Nat :=
  match h with
  | .reset => []
  | .bwr a b => if b = 0 ∧ s.faulted = false then a :: cleared else cleared
  | .rd _ _ => cleared
  | .wr _ _ _ => cleared
  | .brd _ => cleared

/-- P-CLEAN for the rest of a run that has come to state `s`, the addresses `cleared` having been written 0 since the last reset. -/
def cleanFrom : List HostOp → State → List Nat → Bool
  | [], _, _ => true
  | h :: rest, s, cleared =>
    (opTouches h s).all (fun a => cleared.contains a) &&
      match performOp h s with
      | .next t => cleanFrom rest t (clearedAfter h s cleared)
      | .fault _ => true
      | .refused _ => true

/-- P-CLEAN (rule R200) of the run `runOf s ops`: "every BUF byte a pack command of the run touches was written 0 by `bwr` after the reset and
before that command". -/
def premiseClean (s : State) (ops : List HostOp) : Bool :=
  cleanFrom (.reset :: ops) s []

end Sys2Proof.Machine
end

