-- ==== Sys2Proof/Certificates/Slice0/Obligations.lean ====
section
/-! DEFINITION. The statements for the provers, each from the numbered rules of spec/ that its docstring names. A state `s` is any
state, reachable or not; `exec i s` is command `i` on `s`, `issue d s` the CMD write of data `d`, `performOp` one host transaction. -/

open Sys2Proof Sys2Proof.Machine

/-! ### Encoding (30_encoding.md) -/

/-- Rule R80, every example of it, with what becomes of the two that "decodes, then INVALID_WIDTH". -/
def Obligations.ExampleWordsDecode : Prop :=
  (cmdData (.packbits 7) = 0x10070000 ∧ decode 0x10070000 = .ok (.packbits 7)) ∧
  (cmdData (.unpackbits 63) = 0x113F0000 ∧ decode 0x113F0000 = .ok (.unpackbits 63)) ∧
  (cmdData (.packblk 1) = 0x20010000 ∧ decode 0x20010000 = .ok (.packblk 1)) ∧
  (cmdData (.unpackblk 56) = 0x21380000 ∧ decode 0x21380000 = .ok (.unpackblk 56)) ∧
  (cmdData (.packblk 0) = 0x20000000 ∧ decode 0x20000000 = .ok (.packblk 0)) ∧
  (cmdData (.packblk 64) = 0x20400000 ∧ decode 0x20400000 = .ok (.packblk 64)) ∧
  decode 0x12070000 = .illegal .opcode ∧
  decode 0x10070001 = .illegal .reservedField ∧
  ∀ s : State, s.faulted = false →
    issue 0x20000000 s = .next { s with status := withErr s.status 1 } ∧
    issue 0x20400000 s = .next { s with status := withErr s.status 1 }

/-- The decoder gives a command on the data that encodes it and on no other data: decoding inverts encoding for every command and
every width, and no bit of the 64 is ignored (rules R70, R73, R74). -/
def Obligations.DecodeExactlyTheEncodings : Prop :=
  ∀ (d : Word) (i : Instr), decode d = .ok i ↔ d = cmdData i

/-- Rule R74 (and R218), with the fields written as quotients and remainders of the data: the data that is ILLEGAL raises
Fault(ILLEGAL_CMD), all other data is the command that bits 31:24 name, at the width in bits 23:16. -/
def Obligations.DecodeFollowsTheFields : Prop :=
  ∀ (d : Word) (s : State), s.faulted = false →
    let opc := d.toNat / 2 ^ 24 % 2 ^ 8
    let w : BitVec 8 := BitVec.ofNat 8 (d.toNat / 2 ^ 16 % 2 ^ 8)
    if d.toNat / 2 ^ 32 ≠ 0 ∨ d.toNat % 2 ^ 16 ≠ 0 ∨ (opc ≠ 0x10 ∧ opc ≠ 0x11 ∧ opc ≠ 0x20 ∧ opc ≠ 0x21) then
      (∃ why, decode d = .illegal why) ∧ issue d s = .next (s.takeFault .illegalCmd d)
    else
      decode d = .ok (if opc = 0x10 then .packbits w else if opc = 0x11 then .unpackbits w
        else if opc = 0x20 then .packblk w else .unpackblk w)

/-- Rules R75 and R102: every W value decodes, for each opcode; a width outside 1..63 is the recoverable error for a block command and
Fault(CURSOR_WIDTH), with nothing else changed, for a cursor command. -/
def Obligations.EveryWidthDecodes : Prop :=
  ∀ w : BitVec 8,
    decode (BitVec.ofNat 64 (0x10 * 2 ^ 24 + w.toNat * 2 ^ 16)) = .ok (.packbits w) ∧
    decode (BitVec.ofNat 64 (0x11 * 2 ^ 24 + w.toNat * 2 ^ 16)) = .ok (.unpackbits w) ∧
    decode (BitVec.ofNat 64 (0x20 * 2 ^ 24 + w.toNat * 2 ^ 16)) = .ok (.packblk w) ∧
    decode (BitVec.ofNat 64 (0x21 * 2 ^ 24 + w.toNat * 2 ^ 16)) = .ok (.unpackblk w) ∧
    ∀ s : State, s.faulted = false → (w.toNat = 0 ∨ 63 < w.toNat) →
      exec (.packbits w) s = .next (s.takeFault .cursorWidth (cmdData (.packbits w))) ∧
      exec (.unpackbits w) s = .next (s.takeFault .cursorWidth (cmdData (.unpackbits w))) ∧
      exec (.packblk w) s = .next s.reportInvalidWidth ∧
      exec (.unpackblk w) s = .next s.reportInvalidWidth

/-! ### The bit-cursor commands (40_bit_cursor.md) -/

/-- Rule R103 (with R104 and R106): PACKBITS in full, in every state that is not faulted. When its checks pass it completes: CUR is
`p + w` as an unbounded integer, stream bit `p+i` takes `VAL[w-1-i]` by OR, every other stream bit stays, STATUS.ERR is 0 and no
other status bit changes, and nothing else of the state changes. When they do not, the first that fails is the fault. The rule's
example stands last. -/
def Obligations.PackbitsFollowsItsRule : Prop :=
  (∀ (w : BitVec 8) (s : State), s.faulted = false →
    (s.PackbitsFits w.toNat →
      ∃ t, exec (.packbits w) s = .next t ∧
        t = { s with buf := t.buf, cur := t.cur, status := t.status } ∧
        t.cur.toNat = s.cur.toNat + w.toNat ∧
        (∀ q, t.streamBit q = (s.streamBit q ||
          (decide (s.cur.toNat ≤ q ∧ q < s.cur.toNat + w.toNat) && s.val.getLsbD (s.cur.toNat + w.toNat - 1 - q)))) ∧
        statusErr t.status = 0 ∧ ∀ i, 4 ≤ i → t.status.getLsbD i = s.status.getLsbD i) ∧
    ((w.toNat = 0 ∨ 63 < w.toNat) → exec (.packbits w) s = .next (s.takeFault .cursorWidth (cmdData (.packbits w)))) ∧
    (1 ≤ w.toNat → w.toNat ≤ 63 →
      (8 * s.params.bufLen < s.cur.toNat + w.toNat →
        exec (.packbits w) s = .next (s.takeFault .bounds (cmdData (.packbits w)))) ∧
      (s.cur.toNat + w.toNat ≤ 8 * s.params.bufLen →
        (2 ^ w.toNat ≤ s.val.toNat →
          exec (.packbits w) s = .next (s.takeFault .valueRange (cmdData (.packbits w)))) ∧
        (s.val.toNat < 2 ^ w.toNat → s.params.dirtyMode = .fault →
          (∃ q, s.cur.toNat ≤ q ∧ q < 8 * ((s.cur.toNat + w.toNat - 1) / 8 + 1) ∧ s.streamBit q = true) →
          exec (.packbits w) s = .next (s.takeFault .dirtyTarget (cmdData (.packbits w))))))) ∧
  (∀ s : State, s.faulted = false → s.byte 0 = 0xA0 → s.cur = 3 → s.val = 0x1B →
    ∃ t, exec (.packbits 5) s = .next t ∧ t.byte 0 = 0xBB ∧ t.cur = 8)

/-- Rule R110 (with R112): UNPACKBITS in full, in every state that is not faulted: bit `w-1-i` of VAL is stream bit `p+i`, the bits of VAL
from `w` up are 0, CUR is `p + w`, STATUS.ERR is 0, nothing else changes. The rule's example stands last. -/
def Obligations.UnpackbitsFollowsItsRule : Prop :=
  (∀ (w : BitVec 8) (s : State), s.faulted = false →
    (s.UnpackbitsFits w.toNat →
      ∃ t, exec (.unpackbits w) s = .next t ∧
        t = { s with val := t.val, cur := t.cur, status := t.status } ∧
        t.cur.toNat = s.cur.toNat + w.toNat ∧
        (∀ i, t.val.getLsbD i = (decide (i < w.toNat) && s.streamBit (s.cur.toNat + w.toNat - 1 - i))) ∧
        t.val.toNat < 2 ^ w.toNat ∧
        statusErr t.status = 0 ∧ ∀ i, 4 ≤ i → t.status.getLsbD i = s.status.getLsbD i) ∧
    ((w.toNat = 0 ∨ 63 < w.toNat) → exec (.unpackbits w) s = .next (s.takeFault .cursorWidth (cmdData (.unpackbits w)))) ∧
    (1 ≤ w.toNat → w.toNat ≤ 63 → 8 * s.params.bufLen < s.cur.toNat + w.toNat →
      exec (.unpackbits w) s = .next (s.takeFault .bounds (cmdData (.unpackbits w))))) ∧
  (∀ s : State, s.faulted = false → s.byte 0 = 0xBB → s.cur = 3 →
    ∃ t, exec (.unpackbits 5) s = .next t ∧ t.val = 0x1B ∧ t.cur = 8)

/-- Rule R101: the phase machine PARTIAL, FULL, TAIL packs what PACKBITS packs, at every width, offset and value. -/
def Obligations.PackPhaseMachine : Prop :=
  ∀ (w : BitVec 8) (s : State), s.faulted = false → s.PackbitsFits w.toNat →
    exec (.packbits w) s = .next (packPhases w.toNat s).succeed

/-- Rule R111: the unpack phase machine gives the VAL and CUR that UNPACKBITS gives, at every width, offset and buffer content. -/
def Obligations.UnpackPhaseMachine : Prop :=
  ∀ (w : BitVec 8) (s : State), s.faulted = false → s.UnpackbitsFits w.toNat →
    exec (.unpackbits w) s = .next (unpackPhases w.toNat s).succeed

/-- Rule R105: the cursor state machine, for both cursor commands: a success takes (b, o) to (b + (o+w) div 8, (o+w) mod 8), which is
the source's three cases; any other end of a command leaves the cursor. CUR is the pair (10_state.md rule R23). -/
def Obligations.CursorStateMachine : Prop :=
  ∀ (w : BitVec 8) (i : Instr) (s t : State), (i = .packbits w ∨ i = .unpackbits w) → exec i s = .next t →
    let b := (byteIndex s.cur).toNat
    let o := (bitOffset s.cur).toNat
    let b' := (byteIndex t.cur).toNat
    let o' := (bitOffset t.cur).toNat
    s.cur.toNat = 8 * b + o ∧ o ≤ 7 ∧
    if s.faulted = false ∧ t.faulted = false then
      b' = b + (o + w.toNat) / 8 ∧ o' = (o + w.toNat) % 8 ∧
      (0 < o → w.toNat < 8 - o → b' = b ∧ o' = o + w.toNat) ∧
      (0 < o → 8 - o ≤ w.toNat → b' = b + 1 + (w.toNat - (8 - o)) / 8 ∧ o' = (w.toNat - (8 - o)) % 8) ∧
      (o = 0 → b' = b + w.toNat / 8 ∧ o' = w.toNat % 8)
    else t.cur = s.cur

/-- Rule R107, the corner cases of a PACKBITS that completes (the touched bytes by 20_memory.md rule R58). -/
def Obligations.PackbitsCorners : Prop :=
  ∀ (w : BitVec 8) (s : State), s.faulted = false → s.PackbitsFits w.toNat →
    ∃ t, exec (.packbits w) s = .next t ∧
      let b := s.cur.toNat / 8
      let o := s.cur.toNat % 8
      (0 < o → w.toNat = 8 - o →
        t.cur.toNat = 8 * (b + 1) ∧ t.byte b = s.byte b ||| BitVec.ofNat 8 s.val.toNat ∧ ∀ a, a ≠ b → t.byte a = s.byte a) ∧
      (o = 0 → w.toNat < 8 →
        t.cur.toNat = 8 * b + w.toNat ∧ t.byte b = s.byte b ||| BitVec.ofNat 8 (s.val.toNat * 2 ^ (8 - w.toNat)) ∧
        ∀ a, a ≠ b → t.byte a = s.byte a) ∧
      (o = 0 → ∀ m, w.toNat = 8 * m →
        t.cur.toNat = 8 * (b + m) ∧
        ∀ k, k < m → t.byte (b + k) = s.byte (b + k) ||| BitVec.ofNat 8 (s.val.toNat / 2 ^ (8 * (m - 1 - k)))) ∧
      (w.toNat = 63 → touchedCount s.cur.toNat w.toNat = if 2 ≤ o then 9 else 8) ∧
      (s.val = 0 → ∀ a, t.byte a = s.byte a) ∧
      (s.cur.toNat + w.toNat = 8 * s.params.bufLen →
        t.cur.toNat = 8 * s.params.bufLen ∧
        ∀ v : BitVec 8, 1 ≤ v.toNat → v.toNat ≤ 63 →
          exec (.packbits v) t = .next (t.takeFault .bounds (cmdData (.packbits v))) ∧
          exec (.unpackbits v) t = .next (t.takeFault .bounds (cmdData (.unpackbits v)))) ∧
      ∀ q, s.cur.toNat + w.toNat ≤ q → t.streamBit q = s.streamBit q

/-- 20_memory.md rule R53, for a value of whole bytes packed at a byte boundary into zero bytes: its bytes are BUF[a], the most
significant, and on, so that MemRead(a, m) is the value. -/
def Obligations.AlignedFieldIsBigEndian : Prop :=
  ∀ (w : BitVec 8) (m a : Nat) (s : State), s.faulted = false → s.PackbitsFits w.toNat → w.toNat = 8 * m →
    s.cur.toNat = 8 * a → (∀ k, k < m → s.byte (a + k) = 0) →
    ∃ t, exec (.packbits w) s = .next t ∧ t.memRead a m = s.val.toNat ∧
      ∀ k, k < m → t.byte (a + k) = BitVec.ofNat 8 (s.val.toNat / 2 ^ (8 * (m - 1 - k)))

/-- Rule R113: pack and immediately unpack, at every width, value and start position whose target is clean; in both DIRTY_MODEs. -/
def Obligations.RoundTripBits : Prop :=
  ∀ (w : BitVec 8) (v : Word) (s : State), s.faulted = false → 1 ≤ w.toNat → w.toNat ≤ 63 → v.toNat < 2 ^ w.toNat →
    s.cur.toNat + w.toNat ≤ 8 * s.params.bufLen →
    (∀ q, s.cur.toNat ≤ q → q < 8 * ((s.cur.toNat + w.toNat - 1) / 8 + 1) → s.streamBit q = false) →
    ∃ t u, exec (.packbits w) { s with val := v } = .next t ∧
      exec (.unpackbits w) { t with cur := s.cur } = .next u ∧
      u.val = v ∧ u.cur = t.cur ∧ t.cur.toNat = s.cur.toNat + w.toNat

/-- Rule R108: sequential packing into cleared bytes from a byte boundary. `concatFields` is the concatenation of the values, the first
most significant. -/
def Obligations.SequentialPacking : Prop :=
  ∀ (ps : List (BitVec 8 × Word)) (b0 : Nat) (s : State), s.faulted = false → s.cur.toNat = 8 * b0 →
    (∀ x ∈ ps, 1 ≤ x.1.toNat ∧ x.1.toNat ≤ 63 ∧ x.2.toNat < 2 ^ x.1.toNat) →
    let total := totalBits (ps.map (·.1))
    8 * b0 + total ≤ 8 * s.params.bufLen →
    (∀ a, b0 ≤ a → a ≤ (8 * b0 + total - 1) / 8 → s.byte a = 0) →
    ∃ t, packAll ps s = .next t ∧ t.faulted = false ∧
      t.streamRead (8 * b0) total = concatFields ps ∧
      (∀ q, 8 * b0 + total ≤ q → q < 8 * ((8 * b0 + total - 1) / 8 + 1) → t.streamBit q = false) ∧
      t.cur.toNat = 8 * b0 + total

/-- Rule R114: UNPACKBITS reads the stream bits of its field alone; and what rule R108 packs, unpacking in the same order from the same start at
the same widths gives back. -/
def Obligations.UnpackIgnoresOutsideBits : Prop :=
  (∀ (w : BitVec 8) (s s' : State), s.faulted = false → s'.faulted = false → s.UnpackbitsFits w.toNat →
    s'.UnpackbitsFits w.toNat → s'.cur = s.cur →
    (∀ q, s.cur.toNat ≤ q → q < s.cur.toNat + w.toNat → s'.streamBit q = s.streamBit q) →
    ∃ t t', exec (.unpackbits w) s = .next t ∧ exec (.unpackbits w) s' = .next t' ∧ t'.val = t.val) ∧
  (∀ (ps : List (BitVec 8 × Word)) (b0 : Nat) (s : State), s.faulted = false → s.cur.toNat = 8 * b0 →
    (∀ x ∈ ps, 1 ≤ x.1.toNat ∧ x.1.toNat ≤ 63 ∧ x.2.toNat < 2 ^ x.1.toNat) →
    8 * b0 + totalBits (ps.map (·.1)) ≤ 8 * s.params.bufLen →
    (∀ a, b0 ≤ a → a ≤ (8 * b0 + totalBits (ps.map (·.1)) - 1) / 8 → s.byte a = 0) →
    ∃ t u, packAll ps s = .next t ∧ unpackAll (ps.map (·.1)) { t with cur := s.cur } [] = .next (u, ps.map (·.2)))

/-! ### The block commands (41_block_codec.md) -/

/-- Rule R133 (with R134 and R135): PACKBLK in full, in every state that is not faulted. When its checks pass, stream bit `q` of the window takes
bit `w-1-(q mod w)` of lane `q div w` by OR, every other stream bit stays, STATUS.ERR is 0, and nothing else changes. The rule's
example stands last. -/
def Obligations.PackblkFollowsItsRule : Prop :=
  (∀ (w : BitVec 8) (s : State), s.faulted = false →
    (s.PackblkFits w.toNat →
      ∃ t, exec (.packblk w) s = .next t ∧
        t = { s with buf := t.buf, status := t.status } ∧
        (∀ q, t.streamBit (8 * s.base.toNat + q) = (s.streamBit (8 * s.base.toNat + q) ||
          (decide (q < 8 * w.toNat) && (s.blk.toList.getD (q / w.toNat) 0).getLsbD (w.toNat - 1 - q % w.toNat)))) ∧
        (∀ a, a < s.base.toNat ∨ s.base.toNat + w.toNat ≤ a → t.byte a = s.byte a) ∧
        statusErr t.status = 0 ∧ ∀ i, 4 ≤ i → t.status.getLsbD i = s.status.getLsbD i) ∧
    ((w.toNat = 0 ∨ 63 < w.toNat) → exec (.packblk w) s = .next s.reportInvalidWidth) ∧
    (1 ≤ w.toNat → w.toNat ≤ 63 →
      (s.params.bufLen < s.base.toNat + w.toNat →
        exec (.packblk w) s = .next (s.takeFault .bounds (cmdData (.packblk w)))) ∧
      (s.base.toNat + w.toNat ≤ s.params.bufLen →
        ((∃ j : Fin 8, 2 ^ w.toNat ≤ s.blk[j].toNat) →
          exec (.packblk w) s = .next (s.takeFault .valueRange (cmdData (.packblk w)))) ∧
        ((∀ j : Fin 8, s.blk[j].toNat < 2 ^ w.toNat) → s.params.dirtyMode = .fault →
          (∃ a, s.base.toNat ≤ a ∧ a < s.base.toNat + w.toNat ∧ s.byte a ≠ 0) →
          exec (.packblk w) s = .next (s.takeFault .dirtyTarget (cmdData (.packblk w))))))) ∧
  (∀ s : State, s.faulted = false → s.base.toNat < s.params.bufLen → s.byte s.base.toNat = 0 →
    s.blk = #v[1, 0, 1, 0, 1, 0, 1, 0] → ∃ t, exec (.packblk 1) s = .next t ∧ t.byte s.base.toNat = 0xAA)

/-- Rule R140: UNPACKBLK in full, in every state that is not faulted: bit `w-1-i` of BLK[j] is stream bit `j*w + i` of the window, the bits of
BLK[j] from `w` up are 0, STATUS.ERR is 0, nothing else changes. The rule's example stands last. -/
def Obligations.UnpackblkFollowsItsRule : Prop :=
  (∀ (w : BitVec 8) (s : State), s.faulted = false →
    (s.UnpackblkFits w.toNat →
      ∃ t, exec (.unpackblk w) s = .next t ∧
        t = { s with blk := t.blk, status := t.status } ∧
        (∀ (j : Fin 8) (i : Nat), t.blk[j].getLsbD i =
          (decide (i < w.toNat) && s.streamBit (8 * s.base.toNat + j.val * w.toNat + w.toNat - 1 - i))) ∧
        (∀ j : Fin 8, t.blk[j].toNat < 2 ^ w.toNat) ∧
        statusErr t.status = 0 ∧ ∀ i, 4 ≤ i → t.status.getLsbD i = s.status.getLsbD i) ∧
    ((w.toNat = 0 ∨ 63 < w.toNat) → exec (.unpackblk w) s = .next s.reportInvalidWidth) ∧
    (1 ≤ w.toNat → w.toNat ≤ 63 → s.params.bufLen < s.base.toNat + w.toNat →
      exec (.unpackblk w) s = .next (s.takeFault .bounds (cmdData (.unpackblk w))))) ∧
  (∀ s : State, s.faulted = false → s.base.toNat < s.params.bufLen → s.byte s.base.toNat = 0xAA →
    ∃ t, exec (.unpackblk 1) s = .next t ∧ t.blk = #v[1, 0, 1, 0, 1, 0, 1, 0])

/-- Rule R132, for a window of zero bytes (what DIRTY_MODE = FAULT checks): after PACKBLK the window read as one big-endian integer is
the concatenation of the eight lanes, and byte by byte and bit by bit it is as the rule says. -/
def Obligations.PackedBlockLayout : Prop :=
  ∀ (w : BitVec 8) (s : State), s.faulted = false → s.PackblkFits w.toNat →
    (∀ a, s.base.toNat ≤ a → a < s.base.toNat + w.toNat → s.byte a = 0) →
    ∃ t, exec (.packblk w) s = .next t ∧
      t.memRead s.base.toNat w.toNat =
        ((((((s.blk[0].toNat * 2 ^ w.toNat + s.blk[1].toNat) * 2 ^ w.toNat + s.blk[2].toNat) * 2 ^ w.toNat
          + s.blk[3].toNat) * 2 ^ w.toNat + s.blk[4].toNat) * 2 ^ w.toNat + s.blk[5].toNat) * 2 ^ w.toNat
          + s.blk[6].toNat) * 2 ^ w.toNat + s.blk[7].toNat ∧
      ∀ k i, k < w.toNat → i < 8 →
        (t.byte (s.base.toNat + k)).getLsbD (7 - i) =
          (s.blk.toList.getD ((8 * k + i) / w.toNat) 0).getLsbD (w.toNat - 1 - (8 * k + i) % w.toNat)

/-- Rules R137 and R145: the shift, mask and OR network of engine E_w, at every width, leaves the state that the closed forms leave, in both
directions. -/
def Obligations.EngineNetworks : Prop :=
  ∀ (w : BitVec 8) (s : State), s.faulted = false →
    (s.PackblkFits w.toNat → exec (.packblk w) s = .next (enginePack w.toNat s).succeed) ∧
    (s.UnpackblkFits w.toNat → exec (.unpackblk w) s = .next (engineUnpack w.toNat s).succeed)

/-- 44_block_engines.md rules R301, R303 and R308, every line of them: the slices of each window byte and of each value. -/
def Obligations.EngineListings : Prop :=
  (packWiring 1 0 = [⟨0, 0, 0⟩, ⟨1, 0, 0⟩, ⟨2, 0, 0⟩, ⟨3, 0, 0⟩, ⟨4, 0, 0⟩, ⟨5, 0, 0⟩, ⟨6, 0, 0⟩, ⟨7, 0, 0⟩] ∧
    (∀ j, j < 8 → unpackWiring 1 j = [⟨0, 7 - j, 7 - j⟩]) ∧ offsetPeriod 1 = 8) ∧
  (packWiring 3 0 = [⟨0, 2, 0⟩, ⟨1, 2, 0⟩, ⟨2, 2, 1⟩] ∧
    packWiring 3 1 = [⟨2, 0, 0⟩, ⟨3, 2, 0⟩, ⟨4, 2, 0⟩, ⟨5, 2, 2⟩] ∧
    packWiring 3 2 = [⟨5, 1, 0⟩, ⟨6, 2, 0⟩, ⟨7, 2, 0⟩] ∧
    unpackWiring 3 0 = [⟨0, 7, 5⟩] ∧ unpackWiring 3 1 = [⟨0, 4, 2⟩] ∧ unpackWiring 3 2 = [⟨0, 1, 0⟩, ⟨1, 7, 7⟩] ∧
    unpackWiring 3 3 = [⟨1, 6, 4⟩] ∧ unpackWiring 3 4 = [⟨1, 3, 1⟩] ∧ unpackWiring 3 5 = [⟨1, 0, 0⟩, ⟨2, 7, 6⟩] ∧
    unpackWiring 3 6 = [⟨2, 5, 3⟩] ∧ unpackWiring 3 7 = [⟨2, 2, 0⟩] ∧ offsetPeriod 3 = 8) ∧
  (∀ k, k < 8 → packWiring 8 k = [⟨k, 7, 0⟩] ∧ unpackWiring 8 k = [⟨k, 7, 0⟩])

/-- Rule R138: the byte-aligned engines, w = 8m, m = 1..7: PACKBLK into zero bytes writes what MemWrite(BASE + j*m, m, BLK[j]) for
j = 0..7 writes, and UNPACKBLK gives BLK[j] = MemRead(BASE + j*m, m). -/
def Obligations.ByteAlignedEngines : Prop :=
  ∀ (m : Nat) (w : BitVec 8) (s : State), 1 ≤ m → m ≤ 7 → w.toNat = 8 * m → s.faulted = false →
    (s.PackblkFits w.toNat → (∀ a, s.base.toNat ≤ a → a < s.base.toNat + w.toNat → s.byte a = 0) →
      ∃ t, exec (.packblk w) s = .next t ∧
        (∀ a, t.byte a = (alignedPack m s.base.toNat s.blk.toList s).byte a) ∧
        ∀ j : Fin 8, t.memRead (s.base.toNat + j.val * m) m = s.blk[j].toNat) ∧
    (s.UnpackblkFits w.toNat →
      ∃ t, exec (.unpackblk w) s = .next t ∧
        ∀ j : Fin 8, t.blk[j] = alignedUnpackLane m s j.val ∧ t.blk[j].toNat = s.memRead (s.base.toNat + j.val * m) m)

/-- Rule R139: where value `j` of a block starts and how many bytes it spans; and the start offsets repeat with period 8/gcd(w, 8) and take that
many distinct values, for every width and every number of values. -/
def Obligations.AlignmentPattern : Prop :=
  ∀ w j : Nat, 1 ≤ w →
    8 * laneStartByte w j + laneStartOffset w j = j * w ∧ laneStartOffset w j < 8 ∧
    laneStartByte w j + laneSpan w j = (j * w + w - 1) / 8 + 1 ∧
    laneStartOffset w (j + offsetPeriod w) = laneStartOffset w j ∧
    ((List.range (offsetPeriod w)).map (laneStartOffset w)).Nodup

/-- Rule R136: eight PACKBITS from CUR = 8*BASE leave the BUF that PACKBLK leaves, byte for byte (and, where BUF is in canonical
form, the same list), CUR = 8*(BASE + w), and differ from it in CUR and VAL only. -/
def Obligations.CrossPathPack : Prop :=
  ∀ (w : BitVec 8) (s : State), s.faulted = false → 1 ≤ w.toNat → w.toNat ≤ 63 →
    s.base.toNat + w.toNat ≤ s.params.bufLen → (∀ j : Fin 8, s.blk[j].toNat < 2 ^ w.toNat) →
    (∀ a, s.base.toNat ≤ a → a < s.base.toNat + w.toNat → s.byte a = 0) →
    ∃ t u, exec (.packblk w) s = .next t ∧
      packAll (s.blk.toList.map fun v => (w, v)) { s with cur := BitVec.ofNat 64 (8 * s.base.toNat) } = .next u ∧
      (∀ a, u.byte a = t.byte a) ∧
      u.cur.toNat = 8 * (s.base.toNat + w.toNat) ∧
      u = { t with cur := u.cur, val := u.val, buf := u.buf } ∧
      (Memory.wf s.buf = true → u.buf = t.buf)

/-- Rule R141: eight UNPACKBITS from CUR = 8*BASE read the eight values that UNPACKBLK leaves in BLK[0..7], for every window content, and leave
CUR = 8*(BASE + w). -/
def Obligations.CrossPathUnpack : Prop :=
  ∀ (w : BitVec 8) (s : State), s.faulted = false → s.UnpackblkFits w.toNat →
    ∃ t u, exec (.unpackblk w) s = .next t ∧
      unpackAll (List.replicate 8 w) { s with cur := BitVec.ofNat 64 (8 * s.base.toNat) } [] = .next (u, t.blk.toList) ∧
      u.cur.toNat = 8 * (s.base.toNat + w.toNat)

/-- Rule R142: the block round trip in all four combinations: packed by PACKBLK or by eight PACKBITS, then unpacked by UNPACKBLK (whatever
stands in BLK by then) or by eight UNPACKBITS, the values come back. -/
def Obligations.RoundTripBlock : Prop :=
  ∀ (w : BitVec 8) (s : State), s.faulted = false → 1 ≤ w.toNat → w.toNat ≤ 63 →
    s.base.toNat + w.toNat ≤ s.params.bufLen → (∀ j : Fin 8, s.blk[j].toNat < 2 ^ w.toNat) →
    (∀ a, s.base.toNat ≤ a → a < s.base.toNat + w.toNat → s.byte a = 0) →
    ∃ t u, exec (.packblk w) s = .next t ∧
      packAll (s.blk.toList.map fun v => (w, v)) { s with cur := BitVec.ofNat 64 (8 * s.base.toNat) } = .next u ∧
      ∀ x, (x = t ∨ x = u) →
        (∀ k : Vector Word 8, ∃ y, exec (.unpackblk w) { x with blk := k } = .next y ∧ y.blk = s.blk) ∧
        ∃ y, unpackAll (List.replicate 8 w) { x with cur := BitVec.ofNat 64 (8 * s.base.toNat) } [] = .next (y, s.blk.toList)

/-! ### What every command leaves alone -/

/-- 10_state.md rule R35 ("A command writes nothing outside its row"), for every end of a command: done, error, fault or not executed. The
bytes are those of 20_memory.md rule R58. -/
def Obligations.CommandFrame : Prop :=
  ∀ (i : Instr) (s t : State), exec i s = .next t →
    (t.base = s.base ∧ t.params = s.params ∧ t.resets = s.resets ∧ t.program = s.program ∧ t.trace = s.trace) ∧
    (t.faulted = s.faulted → t.fcmd = s.fcmd ∧ ∀ n, 4 ≤ n → t.status.getLsbD n = s.status.getLsbD n) ∧
    (∀ n, (4 ≤ n ∧ n < 8) ∨ (9 ≤ n ∧ n < 12) ∨ 16 ≤ n → t.status.getLsbD n = s.status.getLsbD n) ∧
    match i with
    | .packbits w => t.val = s.val ∧ t.blk = s.blk ∧
        ∀ a, a < s.cur.toNat / 8 ∨ (s.cur.toNat + w.toNat - 1) / 8 < a → t.byte a = s.byte a
    | .unpackbits _ => t.blk = s.blk ∧ t.buf = s.buf
    | .packblk w => t.val = s.val ∧ t.cur = s.cur ∧ t.blk = s.blk ∧
        ∀ a, a < s.base.toNat ∨ s.base.toNat + w.toNat ≤ a → t.byte a = s.byte a
    | .unpackblk _ => t.val = s.val ∧ t.cur = s.cur ∧ t.buf = s.buf

/-- Rules R35 and R72 ("Register operands are implicit in the opcode"): a command neither reads nor writes the registers that its row leaves
out, nor what is pending or returned: change them and the command does the same and leaves them as changed. An UNPACKBITS or UNPACKBLK that
completes does not read the old VAL or BLK either. -/
def Obligations.CommandsReadOnlyTheirOperands : Prop :=
  ∀ (w : BitVec 8) (s : State) (v c b : Word) (k : Vector Word 8) (p : List HostOp) (r : List Returned),
    (∃ t, exec (.packbits w) s = .next t ∧
      exec (.packbits w) { s with base := b, blk := k, program := p, trace := r } =
        .next { t with base := b, blk := k, program := p, trace := r }) ∧
    (∃ t, exec (.unpackbits w) s = .next t ∧
      exec (.unpackbits w) { s with base := b, blk := k, program := p, trace := r } =
        .next { t with base := b, blk := k, program := p, trace := r }) ∧
    (∃ t, exec (.packblk w) s = .next t ∧
      exec (.packblk w) { s with val := v, cur := c, program := p, trace := r } =
        .next { t with val := v, cur := c, program := p, trace := r }) ∧
    (∃ t, exec (.unpackblk w) s = .next t ∧
      exec (.unpackblk w) { s with val := v, cur := c, program := p, trace := r } =
        .next { t with val := v, cur := c, program := p, trace := r }) ∧
    (s.faulted = false → s.UnpackbitsFits w.toNat → exec (.unpackbits w) { s with val := v } = exec (.unpackbits w) s) ∧
    (s.faulted = false → s.UnpackblkFits w.toNat → exec (.unpackblk w) { s with blk := k } = exec (.unpackblk w) s)

/-- 20_memory.md rule R58: how many bytes a cursor command touches: from 1 to 9, and 9 exactly when (p mod 8) + w >= 65; they are the bytes from p div
8 to (p+w-1) div 8. -/
def Obligations.TouchedBytes : Prop :=
  ∀ p w : Nat, 1 ≤ w → w ≤ 63 →
    p / 8 + touchedCount p w = (p + w - 1) / 8 + 1 ∧ 1 ≤ touchedCount p w ∧ touchedCount p w ≤ 9 ∧
    (touchedCount p w = 9 ↔ 65 ≤ p % 8 + w)

/-- 20_memory.md rule R59: reads and unpack commands change no byte; a pack command sets only bits inside its field and clears none; the
unpack commands are idempotent given the same CUR or BASE; a repeated pack of a non-zero value faults with DIRTY_TARGET when DIRTY_MODE = FAULT. -/
def Obligations.PackOnlySetsUnpackOnlyReads : Prop :=
  (∀ (r : Reg) (a : Nat) (s t : State), (perform (.rd r) s = .next t ∨ perform (.brd a) s = .next t) →
    ∀ x, t.byte x = s.byte x) ∧
  (∀ (w : BitVec 8) (s t : State), (exec (.unpackbits w) s = .next t ∨ exec (.unpackblk w) s = .next t) →
    ∀ x, t.byte x = s.byte x) ∧
  (∀ (w : BitVec 8) (s t : State) (q : Nat),
    (exec (.packbits w) s = .next t → (s.streamBit q = true → t.streamBit q = true) ∧
      (q < s.cur.toNat ∨ s.cur.toNat + w.toNat ≤ q → t.streamBit q = s.streamBit q)) ∧
    (exec (.packblk w) s = .next t → (s.streamBit q = true → t.streamBit q = true) ∧
      (q < 8 * s.base.toNat ∨ 8 * s.base.toNat + 8 * w.toNat ≤ q → t.streamBit q = s.streamBit q))) ∧
  (∀ (w : BitVec 8) (s t : State),
    (exec (.unpackbits w) s = .next t → exec (.unpackbits w) { t with cur := s.cur } = .next t) ∧
    (exec (.unpackblk w) s = .next t → exec (.unpackblk w) t = .next t)) ∧
  (∀ (w : BitVec 8) (s : State), s.faulted = false → s.params.dirtyMode = .fault →
    (s.PackbitsFits w.toNat → s.val ≠ 0 →
      ∃ t u, exec (.packbits w) s = .next t ∧ exec (.packbits w) { t with cur := s.cur } = .next u ∧
        u.faulted = true ∧ statusFcause u.status = FaultCause.dirtyTarget.code) ∧
    (s.PackblkFits w.toNat → (∃ j : Fin 8, s.blk[j] ≠ 0) →
      ∃ t u, exec (.packblk w) s = .next t ∧ exec (.packblk w) t = .next u ∧
        u.faulted = true ∧ statusFcause u.status = FaultCause.dirtyTarget.code))

/-! ### Errors and faults (60_exceptions.md) -/

/-- Rule R210: a CMD write taken by a unit that is not faulted ends in exactly one of done, error and fault, told apart by STATUS.ERR; an error
writes STATUS.ERR only, a fault STATUS and FCMD only (20_memory.md rule R55). -/
def Obligations.ThreeOutcomes : Prop :=
  ∀ (d : Word) (s : State), s.faulted = false →
    ∃ t, issue d s = .next t ∧
      ((statusErr t.status = 0 ∧ t.faulted = false ∧ ∃ i, decode d = .ok i ∧ t = (commandBody i s).succeed) ∨
       (statusErr t.status = 1 ∧ t.faulted = false ∧ t = { s with status := t.status } ∧
          ∀ n, 4 ≤ n → t.status.getLsbD n = s.status.getLsbD n) ∨
       (statusErr t.status = 2 ∧ t.faulted = true ∧ t = { s with status := t.status, fcmd := d } ∧
          1 ≤ (statusFcause t.status).toNat ∧ (statusFcause t.status).toNat ≤ 5))

/-- Rule R213: a block command whose width fails the dispatcher writes STATUS.ERR = 1 and changes nothing else, and the unit is not faulted. -/
def Obligations.InvalidWidthReport : Prop :=
  ∀ (w : BitVec 8) (i : Instr) (s : State), s.faulted = false → (w.toNat = 0 ∨ 63 < w.toNat) →
    (i = .packblk w ∨ i = .unpackblk w) →
    ∃ t, exec i s = .next t ∧ t = { s with status := t.status } ∧ statusErr t.status = 1 ∧ t.faulted = false ∧
      (∀ n, 4 ≤ n → t.status.getLsbD n = s.status.getLsbD n) ∧
      ∀ j : Instr, exec j t = .next (t.conclude (cmdData j) (commandVerdict j t) (commandBody j t))

/-- Rule R130: the dispatcher rejects a width outside 1..63 and no other: with w in 1..63 the command goes on to its remaining checks and, when
they pass, engine E_w. -/
def Obligations.WidthDispatch : Prop :=
  ∀ (w : BitVec 8) (s : State), s.faulted = false →
    if w.toNat = 0 ∨ 63 < w.toNat then
      exec (.packblk w) s = .next { s with status := withErr s.status 1 } ∧
      exec (.unpackblk w) s = .next { s with status := withErr s.status 1 }
    else
      (∃ t, exec (.packblk w) s = .next t ∧ statusErr t.status ≠ 1 ∧
        (t.faulted = false → ∀ a, t.byte a = (enginePack w.toNat s).byte a)) ∧
      (∃ t, exec (.unpackblk w) s = .next t ∧ statusErr t.status ≠ 1 ∧
        (t.faulted = false → t.blk = (engineUnpack w.toNat s).blk))

/-- Rule R214: a CMD write whose checks fail with a cause leaves ERR = 2, FAULT = 1, FCAUSE = the cause's code, FCMD = the whole data, and nothing
else changes. -/
def Obligations.FaultEntry : Prop :=
  ∀ (d : Word) (c : FaultCause) (s : State), s.faulted = false → verdictOf d s = .fault c →
    ∃ t, issue d s = .next t ∧
      t = { s with status := t.status, fcmd := t.fcmd } ∧
      statusErr t.status = 2 ∧ statusFault t.status = true ∧ statusFcause t.status = c.code ∧ t.fcmd = d ∧
      ∀ n, (4 ≤ n ∧ n < 8) ∨ (9 ≤ n ∧ n < 12) ∨ 16 ≤ n → t.status.getLsbD n = s.status.getLsbD n

/-- Rule R216: the checks are made in the order decode, width, BOUNDS, VALUE_RANGE, DIRTY_TARGET, against the state before the command, and the
first that fails is the outcome: STATUS.ERR and STATUS.FCAUSE of every CMD write of a unit that is not faulted. -/
def Obligations.CheckOrder : Prop :=
  ∀ (d : Word) (s : State), s.faulted = false →
    ∃ t, issue d s = .next t ∧
      (statusErr t.status, statusFcause t.status) =
        match decode d with
        | .illegal _ => (2, 1)
        | .ok (.packbits w) =>
          if w.toNat = 0 ∨ 63 < w.toNat then (2, 2)
          else if 8 * s.params.bufLen < s.cur.toNat + w.toNat then (2, 3)
          else if 2 ^ w.toNat ≤ s.val.toNat then (2, 4)
          else if s.params.dirtyMode = .fault ∧
              s.streamZero s.cur.toNat (8 * ((s.cur.toNat + w.toNat - 1) / 8 + 1) - s.cur.toNat) = false then (2, 5)
          else (0, statusFcause s.status)
        | .ok (.unpackbits w) =>
          if w.toNat = 0 ∨ 63 < w.toNat then (2, 2)
          else if 8 * s.params.bufLen < s.cur.toNat + w.toNat then (2, 3)
          else (0, statusFcause s.status)
        | .ok (.packblk w) =>
          if w.toNat = 0 ∨ 63 < w.toNat then (1, statusFcause s.status)
          else if s.params.bufLen < s.base.toNat + w.toNat then (2, 3)
          else if ∃ j : Fin 8, 2 ^ w.toNat ≤ s.blk[j].toNat then (2, 4)
          else if s.params.dirtyMode = .fault ∧ s.streamZero (8 * s.base.toNat) (8 * w.toNat) = false then (2, 5)
          else (0, statusFcause s.status)
        | .ok (.unpackblk w) =>
          if w.toNat = 0 ∨ 63 < w.toNat then (1, statusFcause s.status)
          else if s.params.bufLen < s.base.toNat + w.toNat then (2, 3)
          else (0, statusFcause s.status)

/-- Rule R219: BOUNDS, in unbounded integers: a command of width 1..63 raises it exactly when its last byte is not below BUF_LEN; a CUR or BASE that
lies past the end can be written. -/
def Obligations.BoundsExactly : Prop :=
  ∀ (w : BitVec 8) (v : Word) (s : State), s.faulted = false → 1 ≤ w.toNat → w.toNat ≤ 63 →
    (exec (.packbits w) s = .next (s.takeFault .bounds (cmdData (.packbits w))) ↔
      8 * s.params.bufLen < s.cur.toNat + w.toNat) ∧
    (exec (.unpackbits w) s = .next (s.takeFault .bounds (cmdData (.unpackbits w))) ↔
      8 * s.params.bufLen < s.cur.toNat + w.toNat) ∧
    (8 * s.params.bufLen < s.cur.toNat + w.toNat ↔ s.params.bufLen ≤ (s.cur.toNat + w.toNat - 1) / 8) ∧
    (exec (.packblk w) s = .next (s.takeFault .bounds (cmdData (.packblk w))) ↔
      s.params.bufLen < s.base.toNat + w.toNat) ∧
    (exec (.unpackblk w) s = .next (s.takeFault .bounds (cmdData (.unpackblk w))) ↔
      s.params.bufLen < s.base.toNat + w.toNat) ∧
    performOp (.wr 0x18 64 v) s = .next { s with cur := v } ∧
    performOp (.wr 0x28 64 v) s = .next { s with base := v }

/-- 43_host_port.md rule R192 (and rule R215): a faulted unit ignores every host write and executes no command, and stays faulted until
reset. Its reads are those of `ReadsReturnTheState`. -/
def Obligations.FaultedUnitIsFrozen : Prop :=
  ∀ s : State, s.faulted = true →
    (∀ (r : Reg) (v : Word), perform (.wr r v) s = .next s) ∧
    (∀ (a : Nat) (b : Byte), perform (.bwr a b) s = .next s) ∧
    (∀ i : Instr, exec i s = .next s) ∧
    ∀ (x : Txn) (t : State), perform x s = .next t → (t.faulted = false ↔ x = .reset)

/-- Rule R212: "the cause is recomputable from FCMD and the unchanged registers" — an invariant of every step, from every state. -/
def Obligations.CauseRecomputableKept : Prop :=
  ∀ s t : State, s.CauseRecomputable → step s = .next t → t.CauseRecomputable

/-- The STATUS words (10_state.md rule R26, rules R211 and R212; 95_test_vectors.md's conventions): from a legal STATUS of a unit that is not
faulted, a completed command leaves 0, the dispatcher's report 1, and a fault the word 0x?102 of its cause. -/
def Obligations.StatusWords : Prop :=
  ∀ (s : State) (d : Word), legalStatus s.status = true → s.faulted = false →
    s.succeed.status = 0x0000 ∧ s.reportInvalidWidth.status = 0x0001 ∧
    (s.takeFault .illegalCmd d).status = 0x1102 ∧ (s.takeFault .cursorWidth d).status = 0x2102 ∧
    (s.takeFault .bounds d).status = 0x3102 ∧ (s.takeFault .valueRange d).status = 0x4102 ∧
    (s.takeFault .dirtyTarget d).status = 0x5102

/-! ### The host port (43_host_port.md), reset (70_reset_and_hazards.md), and the step -/

/-- A step runs the decoded command (rules R194, R200): where the host's next transaction writes data `d` to CMD, `d` decodes to `i` and the program
is well-formed, the step is `exec i` on the state with that transaction no longer pending. `withFetchWord` makes it the next. -/
def Obligations.StepRunsTheDecodedCommand : Prop :=
  (∀ (s : State) (d : Word) (rest : List HostOp) (i : Instr), s.program = .wr 0x00 64 d :: rest →
    Program.wf s.params rest = true → decode d = .ok i → step s = exec i { s with program := rest }) ∧
  (∀ (s : State) (nbits w : Nat) (i : Instr), Program.wf s.params s.program = true →
    decodeTableWord nbits w = some i → step (s.withFetchWord nbits w) = exec i s)

/-- One transaction a step, in the host's order (rule R200, 20_memory.md rule R62), and a unit with none pending waits with all state
retained (60_exceptions.md rule R229). -/
def Obligations.StepPerformsTheNextTransaction : Prop :=
  ∀ s : State,
    (s.program = [] → step s = .next s) ∧
    ∀ (op : HostOp) (rest : List HostOp), s.program = op :: rest → Program.wf s.params (op :: rest) = true →
      step s = performOp op { s with program := rest }

/-- Rules R190 and R195 over the register map of 10_state.md rule R34: a read returns the value and changes nothing of the unit, faulted or
not; CMD reads 0. What is returned is appended to the model's `trace` (log entry 5). -/
def Obligations.ReadsReturnTheState : Prop :=
  ∀ s : State,
    performOp (.rd 0x00 64) s = .next { s with trace := s.trace ++ [.reg .cmd 0] } ∧
    performOp (.rd 0x08 64) s = .next { s with trace := s.trace ++ [.reg .status s.status] } ∧
    performOp (.rd 0x10 64) s = .next { s with trace := s.trace ++ [.reg .fcmd s.fcmd] } ∧
    performOp (.rd 0x18 64) s = .next { s with trace := s.trace ++ [.reg .cur s.cur] } ∧
    performOp (.rd 0x20 64) s = .next { s with trace := s.trace ++ [.reg .val s.val] } ∧
    performOp (.rd 0x28 64) s = .next { s with trace := s.trace ++ [.reg .base s.base] } ∧
    (∀ j : Fin 8, performOp (.rd (0x40 + 8 * j.val) 64) s = .next { s with trace := s.trace ++ [.reg (.blk j) s.blk[j]] }) ∧
    ∀ a : Nat, a < s.params.bufLen → performOp (.brd a) s = .next { s with trace := s.trace ++ [.buf a (s.byte a)] }

/-- Rules R191 and R193 over the register map of 10_state.md rule R34: a write to CUR, VAL, BASE or BLK[j] sets that register, at every value, and
nothing else; a write to STATUS or FCMD is ignored. -/
def Obligations.WritesSetTheRegister : Prop :=
  ∀ (v : Word) (s : State), s.faulted = false →
    performOp (.wr 0x18 64 v) s = .next { s with cur := v } ∧
    performOp (.wr 0x20 64 v) s = .next { s with val := v } ∧
    performOp (.wr 0x28 64 v) s = .next { s with base := v } ∧
    (∀ j : Fin 8, ∃ t, performOp (.wr (0x40 + 8 * j.val) 64 v) s = .next t ∧ t = { s with blk := t.blk } ∧
      ∀ k : Fin 8, t.blk[k] = if k = j then v else s.blk[k]) ∧
    performOp (.wr 0x08 64 v) s = .next s ∧
    performOp (.wr 0x10 64 v) s = .next s

/-- Rule R196: a buffer write sets the byte it addresses and no other. -/
def Obligations.BufferWriteSetsTheByte : Prop :=
  ∀ (a b : Nat) (s : State), s.faulted = false → a < s.params.bufLen → b ≤ 255 →
    ∃ t, performOp (.bwr a b) s = .next t ∧ t = { s with buf := t.buf } ∧ (t.byte a).toNat = b ∧
      ∀ x, x ≠ a → t.byte x = s.byte x

/-- Rule R197: the step is refused exactly when the pending program holds an ill-formed transaction, anywhere in it; then nothing of the program
is executed. -/
def Obligations.IllFormedProgramsAreRefused : Prop :=
  ∀ s : State,
    (∃ why, step s = .refused (.illFormed why)) ↔
      ∃ op ∈ s.program,
        match op with
        | .rd off bits => off ∉ [0x00, 0x08, 0x10, 0x18, 0x20, 0x28, 0x40, 0x48, 0x50, 0x58, 0x60, 0x68, 0x70, 0x78] ∨ bits ≠ 64
        | .wr off bits _ => off ∉ [0x00, 0x08, 0x10, 0x18, 0x20, 0x28, 0x40, 0x48, 0x50, 0x58, 0x60, 0x68, 0x70, 0x78] ∨ bits ≠ 64
        | .brd a => s.params.bufLen ≤ a
        | .bwr a b => s.params.bufLen ≤ a ∨ 255 < b
        | .reset => False

/-- Rules R200 and R201: a run of a well-formed program completes, every transaction issued, and it ends correctly exactly when the end state is not
faulted; a program with an ill-formed transaction is never a correct end. -/
def Obligations.RunsOfFormedProgramsComplete : Prop :=
  ∀ (s : State) (ops : List HostOp),
    (Program.wf s.params ops = true →
      ∃ t, runOf s ops = .next t ∧ t.program = [] ∧ t.params = s.params ∧
        (endsCorrectly (runOf s ops) ↔ t.faulted = false)) ∧
    (Program.wf s.params ops = false → ¬ endsCorrectly (runOf s ops))

/-- The bytes a pack command touches (00_scope.md rule R19, 20_memory.md rule R58, rules R100 and R131): none unless it is executed and comes as
far as reading its target (log entry 11), and then exactly the field's bytes or the window's, all of them in BUF. -/
def Obligations.BytesAPackTouches : Prop :=
  ∀ (w : BitVec 8) (d : Word) (s : State) (a : Nat),
    (a ∈ packTouches (cmdData (.packbits w)) s ↔
      s.faulted = false ∧ (1 ≤ w.toNat ∧ w.toNat ≤ 63) ∧ s.cur.toNat + w.toNat ≤ 8 * s.params.bufLen ∧
        s.val.toNat < 2 ^ w.toNat ∧ s.cur.toNat / 8 ≤ a ∧ a ≤ (s.cur.toNat + w.toNat - 1) / 8) ∧
    (a ∈ packTouches (cmdData (.packblk w)) s ↔
      s.faulted = false ∧ (1 ≤ w.toNat ∧ w.toNat ≤ 63) ∧ s.base.toNat + w.toNat ≤ s.params.bufLen ∧
        (∀ j : Fin 8, s.blk[j].toNat < 2 ^ w.toNat) ∧ s.base.toNat ≤ a ∧ a < s.base.toNat + w.toNat) ∧
    packTouches (cmdData (.unpackbits w)) s = [] ∧ packTouches (cmdData (.unpackblk w)) s = [] ∧
    (a ∈ packTouches d s → a < s.params.bufLen)

/-- Rule R200's P-CLEAN, for a well-formed program: it holds of a run exactly when every byte that a CMD write of the run touches by a pack command
was written 0 by an earlier `bwr`, with no reset in between. -/
def Obligations.PremiseCleanMeansCleared : Prop :=
  ∀ (s : State) (ops : List HostOp), Program.wf s.params ops = true →
    let prog := HostOp.reset :: ops
    (premiseClean s ops = true ↔
      ∀ (k : Nat) (d : Word) (u : State), prog[k]? = some (.wr 0x00 64 d) →
        Host.Core.run Sys2Proof.core k { s with program := prog } = .next u →
        ∀ a ∈ packTouches d u, ∃ j, j < k ∧ prog[j]? = some (.bwr a 0) ∧ ∀ i, j < i → i < k → prog[i]? ≠ some .reset)

/-- What P-CLEAN is for (rules R200, R241, R243): in a run that meets it no pack command touches a byte that nothing has written since the
reset, so none reads a draw. -/
def Obligations.CleanPacksMeetNoDraw : Prop :=
  ∀ (s : State) (ops : List HostOp) (k : Nat) (d : Word) (u : State), Program.wf s.params ops = true → premiseClean s ops = true →
    (HostOp.reset :: ops)[k]? = some (.wr 0x00 64 d) →
    Host.Core.run Sys2Proof.core k { s with program := .reset :: ops } = .next u →
    ∀ a ∈ packTouches d u, ∃ b, Memory.lookup u.buf a = some b

/-- Rules R198 and R240 (with 10_state.md rule R36): reset takes, in one step and from every state, the reset values; power-on has them;
it is the only transaction that clears FAULT. -/
def Obligations.ResetValues : Prop :=
  ∀ s : State,
    (∃ t, perform .reset s = .next t ∧ t.faulted = false ∧
      t.status = 0 ∧ t.fcmd = 0 ∧ t.cur = 0 ∧ t.val = 0 ∧ t.base = 0 ∧ (∀ j : Fin 8, t.blk[j] = 0) ∧ t.params = s.params) ∧
    (State.reset.status = 0 ∧ State.reset.fcmd = 0 ∧ State.reset.cur = 0 ∧ State.reset.val = 0 ∧ State.reset.base = 0 ∧
      ∀ j : Fin 8, State.reset.blk[j] = 0) ∧
    ∀ (x : Txn) (t : State), perform x s = .next t → s.faulted = true → t.faulted = false → x = .reset

/-- Rule R241, by the model's choice of how a byte is drawn (log entries 3 and 4): after a reset every byte is the draw of that reset's own
number, whatever BUF held; no other transaction draws. -/
def Obligations.BufIsDrawnAtEveryReset : Prop :=
  (∀ s : State, ∃ t, perform .reset s = .next t ∧ t.resets = s.resets + 1 ∧ ∀ a, t.byte a = Config.bufDraw (s.resets + 1) a) ∧
  (∀ a, State.reset.byte a = Config.bufDraw 0 a) ∧
  ∀ (x : Txn) (s t : State), x ≠ .reset → perform x s = .next t → t.resets = s.resets

/-- Rules R11, R21 and R36: BUF_LEN and DIRTY_MODE are configuration: no step changes them. -/
def Obligations.ParametersNeverChange : Prop :=
  ∀ s t : State, step s = .next t → t.params = s.params

/-- The invariant of the unit, kept by every step from every state that meets it: BUF in canonical form and inside BUF_LEN (10_state.md rule R29),
STATUS one of the words that are ever written, its reserved bits 0 (rules R26, R211, R212), FCMD 0 while not faulted (rule R27). -/
def Obligations.InvariantKept : Prop :=
  ∀ s t : State, s.Inv → step s = .next t → t.Inv

/-- The invariant holds after power-on, and so does the recomputability of the cause of a fault. -/
def Obligations.InvariantAtPowerOn : Prop :=
  State.reset.Inv ∧ State.reset.CauseRecomputable

/-- 30_encoding.md rule R78: the four command lines of the assembler, at W = 0..255, are the CMD writes that execute the commands. -/
def Obligations.AssemblerCommandLines : Prop :=
  ∀ (w : Nat) (s : State), w ≤ 255 →
    performOp (asmPackbits w) s = exec (.packbits (BitVec.ofNat 8 w)) s ∧
    performOp (asmUnpackbits w) s = exec (.unpackbits (BitVec.ofNat 8 w)) s ∧
    performOp (asmPackblk w) s = exec (.packblk (BitVec.ofNat 8 w)) s ∧
    performOp (asmUnpackblk w) s = exec (.unpackblk (BitVec.ofNat 8 w)) s

/-- 30_encoding.md rule R79: every pseudo-instruction, run as the transactions it stands for by a unit that is not faulted: what it leaves. -/
def Obligations.PseudoInstructions : Prop :=
  ∀ (w b o a n : Nat) (v : Word) (k : Vector Word 8) (s : State), s.faulted = false → w ≤ 255 → o ≤ 7 → 8 * b + o < 2 ^ 64 →
    (∃ t, runProgram s (asmSetcur b o) = .next t ∧ t = { s with cur := t.cur, program := [] } ∧ t.cur.toNat = 8 * b + o) ∧
    runProgram s (asmSetval v) = .next { s with val := v, program := [] } ∧
    runProgram s (asmSetbase v) = .next { s with base := v, program := [] } ∧
    runProgram s (asmSetblk k) = .next { s with blk := k, program := [] } ∧
    (a + n ≤ s.params.bufLen → ∃ t, runProgram s (asmBzero a n) = .next t ∧ t = { s with buf := t.buf, program := [] } ∧
      ∀ x, t.byte x = if a ≤ x ∧ x < a + n then 0 else s.byte x) ∧
    runProgram s (asmPack w v) = exec (.packbits (BitVec.ofNat 8 w)) { s with val := v, program := [] } ∧
    (∃ t, exec (.unpackbits (BitVec.ofNat 8 w)) { s with program := [] } = .next t ∧
      runProgram s (asmUnpack w) = .next { t with trace := t.trace ++ [.reg .val t.val] }) ∧
    runProgram s asmChk = .next { s with program := [], trace := s.trace ++ [.reg .status s.status] }

/-! ### The host's delta pipeline (42_delta_pipeline.md) -/

/-- Rule R171: the deltas of entries: the first is the first entry, each later one the difference from the entry before; for ascending entries no
difference wraps. -/
def Obligations.DeltasOfEntries : Prop :=
  ∀ es : List Word,
    (deltas es).length = es.length ∧
    ∀ i, i < es.length →
      (deltas es).getD i 0 = (if i = 0 then es.getD 0 0 else es.getD i 0 - es.getD (i - 1) 0) ∧
      (es.Pairwise (fun x y => x.toNat ≤ y.toNat) →
        ((deltas es).getD i 0).toNat =
          if i = 0 then (es.getD 0 0).toNat else (es.getD i 0).toNat - (es.getD (i - 1) 0).toNat)

/-- Rule R177: the running sums of the deltas, mod 2^64, are the entries, whatever the entries (ascending or not). -/
def Obligations.RunningSumsGiveTheEntriesBack : Prop :=
  ∀ es : List Word, entriesOf (deltas es) = es

/-- Rules R175 and R176: the region of n values of width w, full groups first and then the tail, is as long as n*w bits need in whole
bytes. -/
def Obligations.RegionLength : Prop :=
  ∀ w n : Nat, regionLength w n = (n * w + 7) / 8

/-- Rules R173, R174 and R176 (with R170's cleared region and R172's width): the transactions by which the host packs the deltas of entries end without a
fault, the region read as one big-endian integer is the concatenation of all deltas at width w followed by zero bits to the end of its last
byte, CUR is where rule R174 says, and no byte outside the region changes. -/
def Obligations.DeltaRegionLayout : Prop :=
  ∀ (w r : Nat) (es : List Word) (s : State), s.faulted = false → 1 ≤ w → w ≤ 63 →
    let n := es.length
    (∀ d ∈ deltas es, d.toNat < 2 ^ w) →
    r + regionLength w n ≤ s.params.bufLen →
    (∀ a, r ≤ a → a < r + regionLength w n → s.byte a = 0) →
    ∃ t, runProgram s (packProgram w r es) = .next t ∧ t.faulted = false ∧
      t.memRead r (regionLength w n) =
        (deltas es).foldl (fun x d => x * 2 ^ w + d.toNat) 0 * 2 ^ (8 * regionLength w n - n * w) ∧
      t.cur.toNat = 8 * (r + groupCount n * w) + tailCount n * w ∧
      ∀ a, (a < r ∨ r + regionLength w n ≤ a) → t.byte a = s.byte a

/-- Rule R177: the transactions by which the host unpacks n values of width w from a region end without a fault and return, in order, the n
fields of the region's bit stream. The returned values are those appended to `trace`. -/
def Obligations.DeltaUnpackReturnsTheFields : Prop :=
  ∀ (w r n : Nat) (s : State), s.faulted = false → 1 ≤ w → w ≤ 63 → r + regionLength w n ≤ s.params.bufLen →
    ∃ t rs, runProgram s (unpackProgram w r n) = .next t ∧ t.faulted = false ∧ t.trace = s.trace ++ rs ∧
      (rs.map fun x => match x with
        | .reg _ v => v.toNat
        | .buf _ b => b.toNat) = (List.range n).map fun k => s.streamRead (8 * r + k * w) w
end

