-- ==== Sys2Proof/Laws/Memory.lean ====
section
/-! SUPPORT. The laws of written memory: a read after a write, the canonical form kept, and equal memories are equal lists. -/

namespace Sys2Proof.Machine

theorem Memory.lookup_insert (a : Nat) (b : Byte) (m : Memory) (x : Nat) :
    Memory.lookup (Memory.insert a b m) x = if x = a then some b else Memory.lookup m x := by
  induction m with
  | nil => simp [Memory.insert, Memory.lookup]
  | cons c m ih =>
    obtain ⟨k, c⟩ := c
    simp only [Memory.insert]
    split
    · simp [Memory.lookup]
    · split
      · rename_i h; subst h
        by_cases hx : x = a <;> simp [Memory.lookup, hx]
      · simp only [Memory.lookup, ih]
        by_cases hx : x = k
        · have : x ≠ a := by omega
          simp [hx, hx ▸ this]
        · simp [hx]

theorem Memory.lookup_insert_same (a : Nat) (b : Byte) (m : Memory) :
    Memory.lookup (Memory.insert a b m) a = some b := by
  simp [Memory.lookup_insert]

theorem Memory.lookup_insert_other {a x : Nat} (b : Byte) (m : Memory) (h : x ≠ a) :
    Memory.lookup (Memory.insert a b m) x = Memory.lookup m x := by
  simp [Memory.lookup_insert, h]

theorem Memory.risingFrom_insert {lo a : Nat} (b : Byte) {m : Memory} (h : Memory.risingFrom lo m = true)
    (ha : lo ≤ a) : Memory.risingFrom lo (Memory.insert a b m) = true := by
  induction m generalizing lo with
  | nil => simpa [Memory.insert, Memory.risingFrom] using ha
  | cons c m ih =>
    obtain ⟨k, c⟩ := c
    simp only [Memory.risingFrom, Bool.and_eq_true, decide_eq_true_eq] at h
    simp only [Memory.insert]
    split
    · simp only [Memory.risingFrom, Bool.and_eq_true, decide_eq_true_eq]
      exact ⟨ha, by omega, h.2⟩
    · split
      · rename_i h'; subst h'
        simpa [Memory.risingFrom] using h
      · simp only [Memory.risingFrom, Bool.and_eq_true, decide_eq_true_eq]
        exact ⟨h.1, ih h.2 (by omega)⟩

/-- A write keeps the canonical form. -/
theorem Memory.wf_insert (a : Nat) (b : Byte) {m : Memory} (h : Memory.wf m = true) :
    Memory.wf (Memory.insert a b m) = true :=
  Memory.risingFrom_insert b h (Nat.zero_le a)

/-- A write inside BUF keeps every listed address inside BUF. -/
theorem Memory.within_insert {n a : Nat} (b : Byte) {m : Memory} (h : Memory.within n m = true) (ha : a < n) :
    Memory.within n (Memory.insert a b m) = true := by
  induction m with
  | nil => simpa [Memory.insert, Memory.within] using ha
  | cons c m ih =>
    obtain ⟨k, c⟩ := c
    simp only [Memory.within, List.all_cons, Bool.and_eq_true, decide_eq_true_eq] at h ih
    simp only [Memory.insert]
    split
    · simp only [Memory.within, List.all_cons, Bool.and_eq_true, decide_eq_true_eq]
      exact ⟨ha, h.1, h.2⟩
    · split
      · simp only [Memory.within, List.all_cons, Bool.and_eq_true, decide_eq_true_eq]
        exact ⟨ha, h.2⟩
      · simp only [Memory.within, List.all_cons, Bool.and_eq_true, decide_eq_true_eq]
        exact ⟨h.1, ih h.2⟩

theorem Memory.lookup_eq_none_of_lt {lo x : Nat} {m : Memory} (h : Memory.risingFrom lo m = true) (hx : x < lo) :
    Memory.lookup m x = none := by
  induction m generalizing lo with
  | nil => rfl
  | cons c m ih =>
    obtain ⟨k, c⟩ := c
    simp only [Memory.risingFrom, Bool.and_eq_true, decide_eq_true_eq] at h
    have hk : x ≠ k := by omega
    simpa [Memory.lookup, hk] using ih h.2 (by omega)

/-- Equal memories are equal data: two lists in canonical form that hold the same written bytes are one list. -/
theorem Memory.ext_of_rising {lo lo' : Nat} {m m' : Memory} (h : Memory.risingFrom lo m = true)
    (h' : Memory.risingFrom lo' m' = true) (heq : ∀ x, Memory.lookup m x = Memory.lookup m' x) : m = m' := by
  induction m generalizing lo lo' m' with
  | nil =>
    cases m' with
    | nil => rfl
    | cons c' m' => simpa [Memory.lookup] using heq c'.1
  | cons c m ih =>
    obtain ⟨k, c⟩ := c
    cases m' with
    | nil => simpa [Memory.lookup] using heq k
    | cons c' m' =>
      obtain ⟨k', c'⟩ := c'
      simp only [Memory.risingFrom, Bool.and_eq_true, decide_eq_true_eq] at h h'
      have hk : k = k' := by
        rcases Nat.lt_trichotomy k k' with hlt | heq' | hlt
        · have := heq k
          simp [Memory.lookup, Nat.ne_of_lt hlt, Memory.lookup_eq_none_of_lt h'.2 (show k < k' + 1 by omega)] at this
        · exact heq'
        · have := heq k'
          simp [Memory.lookup, Nat.ne_of_lt hlt, Memory.lookup_eq_none_of_lt h.2 (show k' < k + 1 by omega)] at this
      subst hk
      have hc : c = c' := by simpa [Memory.lookup] using heq k
      subst hc
      congr 1
      refine ih h.2 h'.2 fun x => ?_
      by_cases hx : x = k
      · subst hx
        rw [Memory.lookup_eq_none_of_lt h.2 (by omega), Memory.lookup_eq_none_of_lt h'.2 (by omega)]
      · simpa [Memory.lookup, hx] using heq x

theorem Memory.ext_of_wf {m m' : Memory} (h : Memory.wf m = true) (h' : Memory.wf m' = true)
    (heq : ∀ x, Memory.lookup m x = Memory.lookup m' x) : m = m' :=
  Memory.ext_of_rising h h' heq

end Sys2Proof.Machine
end

