-- ==== Sys2Proof/Laws/State.lean ====
section
/-! SUPPORT. One lemma per field per update of the state: what each named operation leaves of each field. -/

namespace Sys2Proof.Machine

variable (s : State) (a n p w v : Nat) (b : Byte) (f : Nat → Byte)

/-! ### Writes to BUF change BUF only -/

theorem State.setByte_eq : s.setByte a b = { s with buf := (s.setByte a b).buf } := rfl

theorem State.orByte_eq : s.orByte a b = { s with buf := (s.orByte a b).buf } := rfl

theorem State.orBytes_eq (s : State) (a n : Nat) (f : Nat → Byte) :
    s.orBytes a n f = { s with buf := (s.orBytes a n f).buf } := by
  induction n generalizing s a with
  | zero => rfl
  | succ n ih =>
    simp only [State.orBytes]
    rw [ih (s.orByte a (f a)) (a + 1), State.orByte_eq]

theorem State.streamOr_eq : s.streamOr p w v = { s with buf := (s.streamOr p w v).buf } :=
  State.orBytes_eq ..

theorem State.memWrite_eq (s : State) (a n v : Nat) :
    s.memWrite a n v = { s with buf := (s.memWrite a n v).buf } := by
  induction n generalizing s a with
  | zero => rfl
  | succ n ih => simp only [State.memWrite]; rw [ih, State.setByte_eq]

@[simp] theorem State.setByte_val : (s.setByte a b).val = s.val := rfl
@[simp] theorem State.setByte_cur : (s.setByte a b).cur = s.cur := rfl
@[simp] theorem State.setByte_base : (s.setByte a b).base = s.base := rfl
@[simp] theorem State.setByte_blk : (s.setByte a b).blk = s.blk := rfl
@[simp] theorem State.setByte_status : (s.setByte a b).status = s.status := rfl
@[simp] theorem State.setByte_fcmd : (s.setByte a b).fcmd = s.fcmd := rfl
@[simp] theorem State.setByte_params : (s.setByte a b).params = s.params := rfl
@[simp] theorem State.setByte_resets : (s.setByte a b).resets = s.resets := rfl
@[simp] theorem State.setByte_program : (s.setByte a b).program = s.program := rfl
@[simp] theorem State.setByte_trace : (s.setByte a b).trace = s.trace := rfl
@[simp] theorem State.setByte_buf : (s.setByte a b).buf = Memory.insert a b s.buf := rfl

@[simp] theorem State.streamOr_val : (s.streamOr p w v).val = s.val := by rw [State.streamOr_eq]
@[simp] theorem State.streamOr_cur : (s.streamOr p w v).cur = s.cur := by rw [State.streamOr_eq]
@[simp] theorem State.streamOr_base : (s.streamOr p w v).base = s.base := by rw [State.streamOr_eq]
@[simp] theorem State.streamOr_blk : (s.streamOr p w v).blk = s.blk := by rw [State.streamOr_eq]
@[simp] theorem State.streamOr_status : (s.streamOr p w v).status = s.status := by rw [State.streamOr_eq]
@[simp] theorem State.streamOr_fcmd : (s.streamOr p w v).fcmd = s.fcmd := by rw [State.streamOr_eq]
@[simp] theorem State.streamOr_params : (s.streamOr p w v).params = s.params := by rw [State.streamOr_eq]
@[simp] theorem State.streamOr_resets : (s.streamOr p w v).resets = s.resets := by rw [State.streamOr_eq]
@[simp] theorem State.streamOr_program : (s.streamOr p w v).program = s.program := by rw [State.streamOr_eq]
@[simp] theorem State.streamOr_trace : (s.streamOr p w v).trace = s.trace := by rw [State.streamOr_eq]

/-! ### The ends of a command -/

@[simp] theorem State.succeed_val : s.succeed.val = s.val := rfl
@[simp] theorem State.succeed_cur : s.succeed.cur = s.cur := rfl
@[simp] theorem State.succeed_base : s.succeed.base = s.base := rfl
@[simp] theorem State.succeed_blk : s.succeed.blk = s.blk := rfl
@[simp] theorem State.succeed_status : s.succeed.status = withErr s.status errOk := rfl
@[simp] theorem State.succeed_fcmd : s.succeed.fcmd = s.fcmd := rfl
@[simp] theorem State.succeed_buf : s.succeed.buf = s.buf := rfl
@[simp] theorem State.succeed_params : s.succeed.params = s.params := rfl
@[simp] theorem State.succeed_resets : s.succeed.resets = s.resets := rfl
@[simp] theorem State.succeed_program : s.succeed.program = s.program := rfl
@[simp] theorem State.succeed_trace : s.succeed.trace = s.trace := rfl

@[simp] theorem State.reportInvalidWidth_val : s.reportInvalidWidth.val = s.val := rfl
@[simp] theorem State.reportInvalidWidth_cur : s.reportInvalidWidth.cur = s.cur := rfl
@[simp] theorem State.reportInvalidWidth_base : s.reportInvalidWidth.base = s.base := rfl
@[simp] theorem State.reportInvalidWidth_blk : s.reportInvalidWidth.blk = s.blk := rfl
@[simp] theorem State.reportInvalidWidth_status :
    s.reportInvalidWidth.status = withErr s.status errInvalidWidth := rfl
@[simp] theorem State.reportInvalidWidth_fcmd : s.reportInvalidWidth.fcmd = s.fcmd := rfl
@[simp] theorem State.reportInvalidWidth_buf : s.reportInvalidWidth.buf = s.buf := rfl
@[simp] theorem State.reportInvalidWidth_params : s.reportInvalidWidth.params = s.params := rfl
@[simp] theorem State.reportInvalidWidth_resets : s.reportInvalidWidth.resets = s.resets := rfl
@[simp] theorem State.reportInvalidWidth_program : s.reportInvalidWidth.program = s.program := rfl
@[simp] theorem State.reportInvalidWidth_trace : s.reportInvalidWidth.trace = s.trace := rfl

variable (c : FaultCause) (d : Word)

@[simp] theorem State.takeFault_val : (s.takeFault c d).val = s.val := rfl
@[simp] theorem State.takeFault_cur : (s.takeFault c d).cur = s.cur := rfl
@[simp] theorem State.takeFault_base : (s.takeFault c d).base = s.base := rfl
@[simp] theorem State.takeFault_blk : (s.takeFault c d).blk = s.blk := rfl
@[simp] theorem State.takeFault_fcmd : (s.takeFault c d).fcmd = d := rfl
@[simp] theorem State.takeFault_buf : (s.takeFault c d).buf = s.buf := rfl
@[simp] theorem State.takeFault_params : (s.takeFault c d).params = s.params := rfl
@[simp] theorem State.takeFault_resets : (s.takeFault c d).resets = s.resets := rfl
@[simp] theorem State.takeFault_program : (s.takeFault c d).program = s.program := rfl
@[simp] theorem State.takeFault_trace : (s.takeFault c d).trace = s.trace := rfl

/-! ### The port -/

@[simp] theorem State.returns_val (x : Returned) : (s.returns x).val = s.val := rfl
@[simp] theorem State.returns_cur (x : Returned) : (s.returns x).cur = s.cur := rfl
@[simp] theorem State.returns_base (x : Returned) : (s.returns x).base = s.base := rfl
@[simp] theorem State.returns_blk (x : Returned) : (s.returns x).blk = s.blk := rfl
@[simp] theorem State.returns_status (x : Returned) : (s.returns x).status = s.status := rfl
@[simp] theorem State.returns_fcmd (x : Returned) : (s.returns x).fcmd = s.fcmd := rfl
@[simp] theorem State.returns_buf (x : Returned) : (s.returns x).buf = s.buf := rfl
@[simp] theorem State.returns_params (x : Returned) : (s.returns x).params = s.params := rfl
@[simp] theorem State.returns_resets (x : Returned) : (s.returns x).resets = s.resets := rfl
@[simp] theorem State.returns_program (x : Returned) : (s.returns x).program = s.program := rfl
@[simp] theorem State.returns_trace (x : Returned) : (s.returns x).trace = s.trace ++ [x] := rfl

/-- A host write changes the register it names among CUR, VAL, BASE, BLK and nothing else. -/
theorem State.regWrite_eq (r : Reg) (x : Word) :
    s.regWrite r x = { s with val := (s.regWrite r x).val, cur := (s.regWrite r x).cur,
                              base := (s.regWrite r x).base, blk := (s.regWrite r x).blk } := by
  cases r <;> rfl

@[simp] theorem State.regWrite_status (r : Reg) (x : Word) : (s.regWrite r x).status = s.status := by
  rw [State.regWrite_eq]
@[simp] theorem State.regWrite_fcmd (r : Reg) (x : Word) : (s.regWrite r x).fcmd = s.fcmd := by
  rw [State.regWrite_eq]
@[simp] theorem State.regWrite_buf (r : Reg) (x : Word) : (s.regWrite r x).buf = s.buf := by
  rw [State.regWrite_eq]
@[simp] theorem State.regWrite_params (r : Reg) (x : Word) : (s.regWrite r x).params = s.params := by
  rw [State.regWrite_eq]
@[simp] theorem State.regWrite_resets (r : Reg) (x : Word) : (s.regWrite r x).resets = s.resets := by
  rw [State.regWrite_eq]
@[simp] theorem State.regWrite_program (r : Reg) (x : Word) : (s.regWrite r x).program = s.program := by
  rw [State.regWrite_eq]
@[simp] theorem State.regWrite_trace (r : Reg) (x : Word) : (s.regWrite r x).trace = s.trace := by
  rw [State.regWrite_eq]

/-! ### Reset -/

@[simp] theorem State.takeReset_val : s.takeReset.val = 0 := rfl
@[simp] theorem State.takeReset_cur : s.takeReset.cur = 0 := rfl
@[simp] theorem State.takeReset_base : s.takeReset.base = 0 := rfl
@[simp] theorem State.takeReset_blk : s.takeReset.blk = #v[0, 0, 0, 0, 0, 0, 0, 0] := rfl
@[simp] theorem State.takeReset_status : s.takeReset.status = 0 := rfl
@[simp] theorem State.takeReset_fcmd : s.takeReset.fcmd = 0 := rfl
@[simp] theorem State.takeReset_buf : s.takeReset.buf = [] := rfl
@[simp] theorem State.takeReset_params : s.takeReset.params = s.params := rfl
@[simp] theorem State.takeReset_resets : s.takeReset.resets = s.resets + 1 := rfl
@[simp] theorem State.takeReset_program : s.takeReset.program = s.program := rfl
@[simp] theorem State.takeReset_trace : s.takeReset.trace = s.trace := rfl

end Sys2Proof.Machine
end

