-- ==== Sys2Proof/Laws/Status.lean ====
section
/-! SUPPORT. The fields of STATUS under the writes to them. -/

namespace Sys2Proof.Machine

/-- A write of ERR sets bits 3:0 and leaves every other bit. -/
theorem getLsbD_withErr (st : Word) (e : BitVec 4) (i : Nat) :
    (withErr st e).getLsbD i = if i < 4 then e.getLsbD i else st.getLsbD i := by
  by_cases h64 : i < 64
  · have hmask : (0xF : Word).getLsbD i = decide (i < 4) := by
      have : (0xF : Word) = BitVec.ofNat 64 (2 ^ 4 - 1) := rfl
      rw [this, BitVec.getLsbD_ofNat, Nat.testBit_two_pow_sub_one]
      simp [h64]
    simp only [withErr, BitVec.getLsbD_or, BitVec.getLsbD_and, BitVec.getLsbD_not, BitVec.getLsbD_setWidth, hmask]
    by_cases h : i < 4
    · simp [h, h64]
    · simp [h, h64, BitVec.getLsbD_of_ge e i (by omega)]
  · rw [BitVec.getLsbD_of_ge _ _ (by omega), if_neg (by omega), BitVec.getLsbD_of_ge _ _ (by omega)]

/-- Setting FAULT sets bit 8 and leaves every other bit. -/
theorem getLsbD_withFault (st : Word) (i : Nat) :
    (withFault st).getLsbD i = (decide (i = 8) || st.getLsbD i) := by
  have hmask : (0x100 : Word).getLsbD i = decide (i = 8) := by
    by_cases h64 : i < 64
    · have : (0x100 : Word) = BitVec.ofNat 64 (2 ^ 8) := rfl
      rw [this, BitVec.getLsbD_ofNat, Nat.testBit_two_pow]
      simp [h64, eq_comm]
    · rw [BitVec.getLsbD_of_ge _ _ (by omega)]
      simp; omega
  rw [withFault, BitVec.getLsbD_or, hmask, Bool.or_comm]

/-- A write of FCAUSE sets bits 15:12 and leaves every other bit. -/
theorem getLsbD_withFcause (st : Word) (c : BitVec 4) (i : Nat) :
    (withFcause st c).getLsbD i = if 12 ≤ i ∧ i < 16 then c.getLsbD (i - 12) else st.getLsbD i := by
  by_cases h64 : i < 64
  · have hmask : (0xF000 : Word).getLsbD i = decide (12 ≤ i ∧ i < 16) := by
      have : (0xF000 : Word) = BitVec.ofNat 64 ((2 ^ 4 - 1) <<< 12) := rfl
      rw [this, BitVec.getLsbD_ofNat, Nat.testBit_shiftLeft, Nat.testBit_two_pow_sub_one]
      by_cases h : 12 ≤ i <;> simp [h64, h]
      omega
    simp only [withFcause, BitVec.getLsbD_or, BitVec.getLsbD_and, BitVec.getLsbD_not, BitVec.getLsbD_setWidth,
      BitVec.getLsbD_shiftLeft, hmask]
    by_cases h : 12 ≤ i ∧ i < 16
    · simp [h, h64, show i - 12 < 64 by omega, show ¬ i < 12 by omega]
    · by_cases h12 : i < 12
      · simp [h, h64, h12]
      · simp [h, h64, h12, BitVec.getLsbD_of_ge c (i - 12) (by omega)]
  · rw [BitVec.getLsbD_of_ge _ _ (by omega), if_neg (by omega), BitVec.getLsbD_of_ge _ _ (by omega)]

@[simp] theorem statusErr_withErr (st : Word) (e : BitVec 4) : statusErr (withErr st e) = e := by
  ext i hi
  simp [statusErr, BitVec.getElem_extractLsb', getLsbD_withErr, hi]

@[simp] theorem statusFault_withErr (st : Word) (e : BitVec 4) : statusFault (withErr st e) = statusFault st := by
  simp only [statusFault, getLsbD_withErr]; rfl

@[simp] theorem statusFcause_withErr (st : Word) (e : BitVec 4) : statusFcause (withErr st e) = statusFcause st := by
  ext i hi
  simp only [statusFcause, BitVec.getElem_extractLsb', getLsbD_withErr, show ¬ 12 + i < 4 by omega, if_false]

@[simp] theorem statusErr_withFault (st : Word) : statusErr (withFault st) = statusErr st := by
  ext i hi
  simp [statusErr, BitVec.getElem_extractLsb', getLsbD_withFault, show i ≠ 8 by omega]

@[simp] theorem statusFault_withFault (st : Word) : statusFault (withFault st) = true := by
  simp only [statusFault, getLsbD_withFault]; rfl

@[simp] theorem statusFcause_withFault (st : Word) : statusFcause (withFault st) = statusFcause st := by
  ext i hi
  simp [statusFcause, BitVec.getElem_extractLsb', getLsbD_withFault, show 12 + i ≠ 8 by omega]

@[simp] theorem statusErr_withFcause (st : Word) (c : BitVec 4) : statusErr (withFcause st c) = statusErr st := by
  ext i hi
  simp [statusErr, BitVec.getElem_extractLsb', getLsbD_withFcause, show ¬ 12 ≤ i by omega]

@[simp] theorem statusFault_withFcause (st : Word) (c : BitVec 4) : statusFault (withFcause st c) = statusFault st := by
  simp only [statusFault, getLsbD_withFcause]; rfl

@[simp] theorem statusFcause_withFcause (st : Word) (c : BitVec 4) : statusFcause (withFcause st c) = c := by
  ext i hi
  simp [statusFcause, BitVec.getElem_extractLsb', getLsbD_withFcause, show 12 + i < 16 by omega, BitVec.getLsbD_eq_getElem hi]

/-! ### What the ends of a command leave in STATUS -/

@[simp] theorem State.succeed_faulted (s : State) : s.succeed.faulted = s.faulted := by
  simp [State.faulted]

@[simp] theorem State.reportInvalidWidth_faulted (s : State) : s.reportInvalidWidth.faulted = s.faulted := by
  simp [State.faulted]

@[simp] theorem State.takeFault_err (s : State) (c : FaultCause) (d : Word) :
    statusErr (s.takeFault c d).status = 2 := by
  simp [State.takeFault, errFaulted]

@[simp] theorem State.takeFault_faulted (s : State) (c : FaultCause) (d : Word) : (s.takeFault c d).faulted = true := by
  simp [State.faulted, State.takeFault]

@[simp] theorem State.takeFault_fcause (s : State) (c : FaultCause) (d : Word) :
    statusFcause (s.takeFault c d).status = c.code := by
  simp [State.takeFault]

theorem FaultCause.code_injective {c c' : FaultCause} (h : c.code = c'.code) : c = c' := by
  cases c <;> cases c' <;> first | rfl | (revert h; decide)

/-- From a legal STATUS, the writes of a command's end give a legal STATUS. -/
theorem legalStatus_cases {st : Word} (h : legalStatus st = true) :
    st = 0 ∨ st = 1 ∨ st = 0x1102 ∨ st = 0x2102 ∨ st = 0x3102 ∨ st = 0x4102 ∨ st = 0x5102 := by
  simpa [legalStatus, or_assoc] using h

theorem legalStatus_succeed {st : Word} (h : legalStatus st = true) (hf : statusFault st = false) :
    legalStatus (withErr st errOk) = true := by
  rcases legalStatus_cases h with rfl | rfl | rfl | rfl | rfl | rfl | rfl <;> revert hf <;> decide

theorem legalStatus_invalidWidth {st : Word} (h : legalStatus st = true) (hf : statusFault st = false) :
    legalStatus (withErr st errInvalidWidth) = true := by
  rcases legalStatus_cases h with rfl | rfl | rfl | rfl | rfl | rfl | rfl <;> revert hf <;> decide

theorem legalStatus_takeFault {st : Word} (h : legalStatus st = true) (hf : statusFault st = false) (c : FaultCause) :
    legalStatus (withFcause (withFault (withErr st errFaulted)) c.code) = true := by
  rcases legalStatus_cases h with rfl | rfl | rfl | rfl | rfl | rfl | rfl <;> cases c <;> revert hf <;> decide

end Sys2Proof.Machine
end

