-- ==== Sys2Proof/Laws/Stream.lean ====
section
/-! SUPPORT. What the byte and stream primitives do, one lemma each: cited where the primitives are used. -/

namespace Sys2Proof.Machine

/-! ### Bytes -/

theorem State.byte_setByte (s : State) (a : Nat) (b : Byte) (x : Nat) :
    (s.setByte a b).byte x = if x = a then b else s.byte x := by
  by_cases h : x = a <;> simp [State.byte, Memory.lookup_insert, h]

theorem State.byte_orByte (s : State) (a : Nat) (b : Byte) (x : Nat) :
    (s.orByte a b).byte x = if x = a then s.byte a ||| b else s.byte x :=
  State.byte_setByte ..

/-- `orBytes` ORs `f x` into every byte `x` of the range and touches no other. -/
theorem State.byte_orBytes (s : State) (a n : Nat) (f : Nat → Byte) (x : Nat) :
    (s.orBytes a n f).byte x = if a ≤ x ∧ x < a + n then s.byte x ||| f x else s.byte x := by
  induction n generalizing s a with
  | zero => simp [State.orBytes]
  | succ n ih =>
    rw [State.orBytes, ih, State.byte_orByte]
    by_cases hx : x = a
    · subst hx
      simp
    · by_cases h : a ≤ x ∧ x < a + (n + 1)
      · rw [if_pos (by omega), if_neg hx, if_pos h]
      · rw [if_neg (by omega), if_neg hx, if_neg h]

/-- Bit `j` of `byteOfBits f` is `f (7 - j)`. -/
theorem getLsbD_byteOfBits (f : Nat → Bool) {j : Nat} (hj : j < 8) : (byteOfBits f).getLsbD j = f (7 - j) := by
  have : j = 0 ∨ j = 1 ∨ j = 2 ∨ j = 3 ∨ j = 4 ∨ j = 5 ∨ j = 6 ∨ j = 7 := by omega
  rcases this with rfl | rfl | rfl | rfl | rfl | rfl | rfl | rfl <;>
    · simp only [byteOfBits]
      generalize f 0 = b0, f 1 = b1, f 2 = b2, f 3 = b3, f 4 = b4, f 5 = b5, f 6 = b6, f 7 = b7
      revert b0 b1 b2 b3 b4 b5 b6 b7
      decide

/-! ### Stream bits -/

/-- Stream bit `8a + i` is bit `7 - i` of byte `a` (00_scope.md rule R14). -/
theorem State.streamBit_of_byte (s : State) (a : Nat) {i : Nat} (hi : i < 8) :
    s.streamBit (8 * a + i) = (s.byte a).getLsbD (7 - i) := by
  rw [State.streamBit, show (8 * a + i) / 8 = a by omega, show (8 * a + i) % 8 = i by omega]

/-- Two states hold the same byte just when they hold the same eight stream bits. -/
theorem State.byte_eq_iff (s t : State) (a : Nat) :
    s.byte a = t.byte a ↔ ∀ i < 8, s.streamBit (8 * a + i) = t.streamBit (8 * a + i) := by
  constructor
  · intro h i hi
    rw [State.streamBit_of_byte s a hi, State.streamBit_of_byte t a hi, h]
  · intro h
    apply BitVec.eq_of_getLsbD_eq
    intro j hj
    have := h (7 - j) (by omega)
    rwa [State.streamBit_of_byte s a (by omega), State.streamBit_of_byte t a (by omega), show 7 - (7 - j) = j by omega] at this

/-- `StreamOr(p, w, v)` changes stream bit `q` just when `q` lies in the field, by ORing its bit of `v` (rule R15). -/
theorem State.streamBit_streamOr (s : State) (p v q : Nat) {w : Nat} (hw : 0 < w) :
    (s.streamOr p w v).streamBit q =
      (s.streamBit q || (decide (p ≤ q) && decide (q < p + w) && v.testBit (p + w - 1 - q))) := by
  rw [State.streamBit, State.streamOr, State.byte_orBytes]
  have hq : 8 * (q / 8) + (7 - (7 - q % 8)) = q := by omega
  split
  · rw [BitVec.getLsbD_or, fieldByte, getLsbD_byteOfBits _ (show 7 - q % 8 < 8 by omega), hq, State.streamBit]
  · rename_i h
    have : ¬ (p ≤ q ∧ q < p + w) := by
      intro hf
      apply h
      unfold touchedCount
      omega
    have hz : (decide (p ≤ q) && decide (q < p + w)) = false := by
      rw [← Bool.decide_and]; exact decide_eq_false this
    rw [hz, Bool.false_and, Bool.or_false, State.streamBit]

/-- `StreamOr` leaves every byte that holds no bit of the field (20_memory.md rule R58). -/
theorem State.byte_streamOr_outside (s : State) (p w v x : Nat) (hx : x < p / 8 ∨ p / 8 + touchedCount p w ≤ x) :
    (s.streamOr p w v).byte x = s.byte x := by
  rw [State.streamOr, State.byte_orBytes, if_neg (by omega)]

/-- Bit `i` of `StreamRead(p, w)` is stream bit `p + w - 1 - i` (rule R15). -/
theorem State.testBit_streamRead (s : State) (p w i : Nat) :
    (s.streamRead p w).testBit i = (decide (i < w) && s.streamBit (p + w - 1 - i)) := by
  induction w generalizing i with
  | zero => simp [State.streamRead]
  | succ w ih =>
    rw [State.streamRead]
    cases i with
    | zero =>
      rw [show p + (w + 1) - 1 - 0 = p + w by omega]
      cases s.streamBit (p + w) <;> simp [Nat.testBit_zero]
    | succ i =>
      rw [Nat.testBit_succ, show (2 * s.streamRead p w + (s.streamBit (p + w)).toNat) / 2 = s.streamRead p w by
        have := Bool.toNat_le (s.streamBit (p + w)); omega, ih, show p + (w + 1) - 1 - (i + 1) = p + w - 1 - i by omega]
      simp

theorem State.streamRead_lt (s : State) (p w : Nat) : s.streamRead p w < 2 ^ w := by
  induction w with
  | zero => simp [State.streamRead]
  | succ w ih =>
    rw [State.streamRead, Nat.pow_succ]
    have := Bool.toNat_le (s.streamBit (p + w))
    omega

/-- A stream read depends on the bits of its field alone. -/
theorem State.streamRead_congr {s t : State} {p w : Nat} (h : ∀ i < w, s.streamBit (p + i) = t.streamBit (p + i)) :
    s.streamRead p w = t.streamRead p w := by
  induction w with
  | zero => rfl
  | succ w ih => rw [State.streamRead, State.streamRead, ih fun i hi => h i (by omega), h w (by omega)]

/-- A stream read of `w + k` bits is one of `w` bits followed by one of `k`. -/
theorem State.streamRead_add (s : State) (p w k : Nat) :
    s.streamRead p (w + k) = s.streamRead p w * 2 ^ k + s.streamRead (p + w) k := by
  induction k with
  | zero => simp [State.streamRead]
  | succ k ih =>
    rw [← Nat.add_assoc, State.streamRead, ih, State.streamRead, Nat.pow_succ, Nat.add_assoc p w k]
    ring

/-- A byte is the stream read of its eight bits. -/
theorem State.byte_toNat (s : State) (a : Nat) : (s.byte a).toNat = s.streamRead (8 * a) 8 := by
  apply Nat.eq_of_testBit_eq
  intro j
  rw [State.testBit_streamRead]
  by_cases hj : j < 8
  · rw [show 8 * a + 8 - 1 - j = 8 * a + (7 - j) by omega, State.streamBit_of_byte s a (by omega),
      show 7 - (7 - j) = j by omega]
    simp [hj, BitVec.testBit_toNat]
  · simp only [hj, decide_false, Bool.false_and, BitVec.testBit_toNat]
    exact BitVec.getLsbD_of_ge _ _ (by omega)

/-- `MemRead(a, n) = StreamRead(8a, 8n)` (rule R15). -/
theorem State.memRead_eq_streamRead (s : State) (a n : Nat) : s.memRead a n = s.streamRead (8 * a) (8 * n) := by
  induction n with
  | zero => rfl
  | succ n ih =>
    rw [State.memRead, ih, State.byte_toNat, show 8 * (n + 1) = 8 * n + 8 by omega, State.streamRead_add,
      show 8 * (a + n) = 8 * a + 8 * n by omega]
    ring

theorem State.streamZero_iff (s : State) (p n : Nat) :
    s.streamZero p n = true ↔ ∀ q, p ≤ q → q < p + n → s.streamBit q = false := by
  simp only [State.streamZero, List.all_eq_true, List.mem_range, Bool.not_eq_true']
  constructor
  · intro h q h1 h2
    have := h (q - p) (by omega)
    rwa [show p + (q - p) = q by omega] at this
  · intro h i hi
    exact h (p + i) (by omega) (by omega)

/-! ### What the reads look at -/

theorem State.byte_congr {s t : State} (hb : s.buf = t.buf) (hr : s.resets = t.resets) (a : Nat) : s.byte a = t.byte a := by
  rw [State.byte, State.byte, hb, hr]

theorem State.streamBit_congr {s t : State} (hb : s.buf = t.buf) (hr : s.resets = t.resets) (q : Nat) :
    s.streamBit q = t.streamBit q := by
  rw [State.streamBit, State.streamBit, State.byte_congr hb hr]

theorem State.streamZero_congr {s t : State} (hb : s.buf = t.buf) (hr : s.resets = t.resets) (p n : Nat) :
    s.streamZero p n = t.streamZero p n := by
  simp only [State.streamZero, State.streamBit_congr hb hr]

/-! ### The canonical form of BUF -/

theorem State.wf_orBytes (s : State) (a n : Nat) (f : Nat → Byte) (h : Memory.wf s.buf = true) :
    Memory.wf (s.orBytes a n f).buf = true := by
  induction n generalizing s a with
  | zero => exact h
  | succ n ih => exact ih _ _ (Memory.wf_insert _ _ h)

theorem State.within_orBytes (s : State) (a n : Nat) (f : Nat → Byte) {m : Nat} (h : Memory.within m s.buf = true)
    (ha : a + n ≤ m) : Memory.within m (s.orBytes a n f).buf = true := by
  induction n generalizing s a with
  | zero => exact h
  | succ n ih => exact ih _ _ (Memory.within_insert _ h (by omega)) (by omega)

theorem State.wf_streamOr (s : State) (p w v : Nat) (h : Memory.wf s.buf = true) :
    Memory.wf (s.streamOr p w v).buf = true :=
  State.wf_orBytes _ _ _ _ h

theorem State.within_streamOr (s : State) (p w v : Nat) {m : Nat} (h : Memory.within m s.buf = true)
    (hw : 0 < w) (hp : p + w ≤ 8 * m) : Memory.within m (s.streamOr p w v).buf = true := by
  apply State.within_orBytes _ _ _ _ h
  unfold touchedCount
  omega

theorem State.wf_memWrite (s : State) (a n v : Nat) (h : Memory.wf s.buf = true) :
    Memory.wf (s.memWrite a n v).buf = true := by
  induction n generalizing s a with
  | zero => exact h
  | succ n ih => exact ih _ _ (Memory.wf_insert _ _ h)

/-! ### Lanes -/

theorem concatLanes_concat (w : Nat) (vs : List Word) (v : Word) :
    concatLanes w (vs ++ [v]) = concatLanes w vs * 2 ^ w + v.toNat % 2 ^ w := by
  simp [concatLanes, List.foldl_append]

/-- Bit `q` from the most significant end of a concatenation is bit `w-1-(q mod w)` of value `q div w` (41_block_codec.md rule R132);
here counted from the least significant end. -/
theorem testBit_concatLanes {w : Nat} (hw : 0 < w) (vs : List Word) (i : Nat) :
    (concatLanes w vs).testBit i =
      (decide (i < vs.length * w) && ((vs.getD (vs.length - 1 - i / w) 0).toNat).testBit (i % w)) := by
  induction vs using List.reverseRecOn generalizing i with
  | nil => simp [concatLanes]
  | append_singleton vs v ih =>
    rw [concatLanes_concat, Nat.mul_comm, Nat.testBit_two_pow_mul_add _ (Nat.mod_lt _ (Nat.two_pow_pos w))]
    by_cases hi : i < w
    · rw [if_pos hi, Nat.testBit_mod_two_pow, Nat.div_eq_of_lt hi, Nat.mod_eq_of_lt hi]
      have : i < (vs.length + 1) * w := by nlinarith
      simp [hi, this]
    · rw [if_neg hi, ih]
      have h1 : (i - w) / w = i / w - 1 := by
        rw [Nat.div_eq_sub_div hw (show w ≤ i by omega), Nat.add_sub_cancel]
      have h2 : (i - w) % w = i % w := (Nat.mod_eq_sub_mod (by omega)).symm
      have h3 : 1 ≤ i / w := (Nat.one_le_div_iff hw).mpr (by omega)
      have h4 : (i - w < vs.length * w) ↔ i < (vs.length + 1) * w := by rw [Nat.succ_mul]; omega
      rw [h1, h2, List.length_append, List.length_singleton]
      by_cases hlt : i < (vs.length + 1) * w
      · have h5 : i / w < vs.length + 1 := (Nat.div_lt_iff_lt_mul hw).mpr hlt
        have h6 : vs.length + 1 - 1 - i / w < vs.length := by omega
        rw [show vs.length - 1 - (i / w - 1) = vs.length + 1 - 1 - i / w by omega]
        simp only [hlt, h4.mpr hlt, decide_true, Bool.true_and, List.getD_eq_getElem?_getD,
          List.getElem?_append_left h6]
      · simp [hlt, h4]

end Sys2Proof.Machine
end

