-- ==== Sys2Proof/Laws/Exec.lean ====
section
/-! SUPPORT. What executing a command can do: one equation for `exec`, one case split on its end, one lemma for the checks of each
command, and what the writes of a command leave alone. -/

namespace Sys2Proof.Machine

/-- Every command is its checks followed by its end. -/
theorem exec_eq (i : Instr) (s : State) :
    exec i s = .next (s.command (cmdData i) (commandVerdict i s) (commandBody i s)) := by
  cases i <;> rfl

theorem exec_next {i : Instr} {s t : State} (h : exec i s = .next t) :
    t = s.command (cmdData i) (commandVerdict i s) (commandBody i s) := by
  rw [exec_eq] at h
  injection h with h
  exact h.symm

/-- In a state that is not faulted a command ends by its verdict. -/
theorem exec_ready {s : State} (hf : s.faulted = false) (i : Instr) :
    exec i s = .next (s.conclude (cmdData i) (commandVerdict i s) (commandBody i s)) := by
  rw [exec_eq, State.command, hf]; rfl

theorem exec_faulted {s : State} (hf : s.faulted = true) (i : Instr) : exec i s = .next s := by
  rw [exec_eq, State.command, hf]; rfl

theorem exec_done {i : Instr} {s : State} (hf : s.faulted = false) (hv : commandVerdict i s = .done) :
    exec i s = .next (commandBody i s).succeed := by
  rw [exec_ready hf, hv]; rfl

theorem exec_invalidWidth {i : Instr} {s : State} (hf : s.faulted = false) (hv : commandVerdict i s = .invalidWidth) :
    exec i s = .next s.reportInvalidWidth := by
  rw [exec_ready hf, hv]; rfl

theorem exec_fault {i : Instr} {s : State} {c : FaultCause} (hf : s.faulted = false) (hv : commandVerdict i s = .fault c) :
    exec i s = .next (s.takeFault c (cmdData i)) := by
  rw [exec_ready hf, hv]; rfl

/-- The four ways `exec` answers. -/
theorem exec_cases {i : Instr} {s t : State} (h : exec i s = .next t) :
    (s.faulted = true ∧ t = s) ∨
    (s.faulted = false ∧ commandVerdict i s = .done ∧ t = (commandBody i s).succeed) ∨
    (s.faulted = false ∧ commandVerdict i s = .invalidWidth ∧ t = s.reportInvalidWidth) ∨
    (s.faulted = false ∧ ∃ c, commandVerdict i s = .fault c ∧ t = s.takeFault c (cmdData i)) := by
  have ht := exec_next h
  cases hf : s.faulted with
  | true => left; simpa [State.command, hf] using ht
  | false =>
    right
    cases hv : commandVerdict i s with
    | done => left; simpa [State.command, hf, hv, State.conclude] using ht
    | invalidWidth => right; left; simpa [State.command, hf, hv, State.conclude] using ht
    | fault c => right; right; exact ⟨rfl, c, rfl, by simpa [State.command, hf, hv, State.conclude] using ht⟩

/-! ### The checks -/

theorem widthOk_iff (w : Nat) : widthOk w = true ↔ 1 ≤ w ∧ w ≤ 63 := by
  simp [widthOk]

theorem dirty_eq_false_iff (s : State) (p n : Nat) :
    dirty s p n = false ↔ (s.params.dirtyMode = .fault → ∀ q, p ≤ q → q < p + n → s.streamBit q = false) := by
  rw [← State.streamZero_iff]
  by_cases h : s.params.dirtyMode = .fault <;> simp [dirty, h]

/-- The positions of a pack's target (40_bit_cursor.md rule R100). -/
theorem target_end (p : Nat) {w : Nat} (hw : 1 ≤ w) : p + targetLength p w = 8 * ((p + w - 1) / 8 + 1) := by
  unfold targetLength lastTouched
  omega

/-- PACKBITS passes its checks just when rule R103 says so. -/
theorem packbitsVerdict_done_iff (w : Nat) (s : State) :
    packbitsVerdict w s = .done ↔
      (1 ≤ w ∧ w ≤ 63) ∧ s.cur.toNat + w ≤ 8 * s.params.bufLen ∧ s.val.toNat < 2 ^ w ∧
        dirty s s.cur.toNat (targetLength s.cur.toNat w) = false := by
  rw [← widthOk_iff]
  unfold packbitsVerdict cursorOutside tooWide
  split
  · simp_all
  · split
    · simp_all
    · split
      · simp_all
      · split <;> simp_all

/-- UNPACKBITS passes its checks just when rule R110 says so. -/
theorem unpackbitsVerdict_done_iff (w : Nat) (s : State) :
    unpackbitsVerdict w s = .done ↔ (1 ≤ w ∧ w ≤ 63) ∧ s.cur.toNat + w ≤ 8 * s.params.bufLen := by
  rw [← widthOk_iff]
  unfold unpackbitsVerdict cursorOutside
  split
  · simp_all
  · split <;> simp_all

/-- PACKBLK passes its checks just when 41_block_codec.md rule R133 says so. -/
theorem packblkVerdict_done_iff (w : Nat) (s : State) :
    packblkVerdict w s = .done ↔
      (1 ≤ w ∧ w ≤ 63) ∧ s.base.toNat + w ≤ s.params.bufLen ∧ (∀ v ∈ s.lanes, v.toNat < 2 ^ w) ∧
        dirty s (8 * s.base.toNat) (8 * w) = false := by
  rw [← widthOk_iff]
  unfold packblkVerdict windowOutside tooWide
  split
  · simp_all
  · split
    · simp_all
    · split
      · simp_all
      · split <;> simp_all

/-- UNPACKBLK passes its checks just when rule R140 says so. -/
theorem unpackblkVerdict_done_iff (w : Nat) (s : State) :
    unpackblkVerdict w s = .done ↔ (1 ≤ w ∧ w ≤ 63) ∧ s.base.toNat + w ≤ s.params.bufLen := by
  rw [← widthOk_iff]
  unfold unpackblkVerdict windowOutside
  split
  · simp_all
  · split <;> simp_all

theorem State.streamZero_bytes_iff (s : State) (a n : Nat) :
    s.streamZero (8 * a) (8 * n) = true ↔ ∀ x, a ≤ x → x < a + n → s.byte x = 0 := by
  rw [State.streamZero_iff]
  constructor
  · intro h x h1 h2
    apply BitVec.eq_of_getLsbD_eq
    intro j hj
    have := h (8 * x + (7 - j)) (by omega) (by omega)
    rw [State.streamBit_of_byte s x (by omega), show 7 - (7 - j) = j by omega] at this
    simpa using this
  · intro h q h1 h2
    rw [State.streamBit, h (q / 8) (by omega) (by omega)]
    simp

/-- The checks of PACKBITS pass just when the command executes normally. -/
theorem packbitsVerdict_iff_fits (w : Nat) (s : State) : packbitsVerdict w s = .done ↔ s.PackbitsFits w := by
  rw [packbitsVerdict_done_iff, State.PackbitsFits]
  refine and_congr_right fun hw => ?_
  rw [dirty_eq_false_iff, target_end _ hw.1]

theorem unpackbitsVerdict_iff_fits (w : Nat) (s : State) : unpackbitsVerdict w s = .done ↔ s.UnpackbitsFits w :=
  unpackbitsVerdict_done_iff w s

theorem packblkVerdict_iff_fits (w : Nat) (s : State) : packblkVerdict w s = .done ↔ s.PackblkFits w := by
  rw [packblkVerdict_done_iff, State.PackblkFits, ← State.streamZero_bytes_iff]
  have : dirty s (8 * s.base.toNat) (8 * w) = false ↔
      (s.params.dirtyMode = .fault → s.streamZero (8 * s.base.toNat) (8 * w) = true) := by
    by_cases h : s.params.dirtyMode = .fault <;> simp [dirty, h]
  rw [this, State.lanes]

theorem unpackblkVerdict_iff_fits (w : Nat) (s : State) : unpackblkVerdict w s = .done ↔ s.UnpackblkFits w :=
  unpackblkVerdict_done_iff w s

/-- A command that passes its checks has a width in 1..63. -/
theorem commandVerdict_done_width {i : Instr} {s : State} (h : commandVerdict i s = .done) :
    1 ≤ i.w.toNat ∧ i.w.toNat ≤ 63 := by
  cases i with
  | packbits w => exact ((packbitsVerdict_done_iff _ _).mp h).1
  | unpackbits w => exact ((unpackbitsVerdict_done_iff _ _).mp h).1
  | packblk w => exact ((packblkVerdict_done_iff _ _).mp h).1
  | unpackblk w => exact ((unpackblkVerdict_done_iff _ _).mp h).1

/-- A command never raises ILLEGAL_CMD: only decoding does. -/
theorem commandVerdict_ne_illegalCmd (i : Instr) (s : State) : commandVerdict i s ≠ .fault .illegalCmd := by
  cases i <;> simp only [commandVerdict, packbitsVerdict, unpackbitsVerdict, packblkVerdict, unpackblkVerdict] <;>
    (repeat' split) <;> simp

/-! ### The writes -/

theorem packField_eq (w : Nat) (s : State) :
    packField w s = { s with cur := (packField w s).cur, buf := (packField w s).buf } := by
  rw [packField, State.streamOr_eq]

theorem packWindow_eq (w : Nat) (s : State) : packWindow w s = { s with buf := (packWindow w s).buf } :=
  State.streamOr_eq ..

/-- The writes of a command change VAL, CUR, BLK and BUF at most (10_state.md rule R35). -/
theorem commandBody_eq (i : Instr) (s : State) :
    commandBody i s = { s with val := (commandBody i s).val, cur := (commandBody i s).cur,
                               blk := (commandBody i s).blk, buf := (commandBody i s).buf } := by
  cases i with
  | packbits w => simp only [commandBody]; rw [packField_eq]
  | unpackbits w => rfl
  | packblk w => simp only [commandBody]; rw [packWindow_eq]
  | unpackblk w => rfl

@[simp] theorem commandBody_base (i : Instr) (s : State) : (commandBody i s).base = s.base := by rw [commandBody_eq]
@[simp] theorem commandBody_status (i : Instr) (s : State) : (commandBody i s).status = s.status := by rw [commandBody_eq]
@[simp] theorem commandBody_fcmd (i : Instr) (s : State) : (commandBody i s).fcmd = s.fcmd := by rw [commandBody_eq]
@[simp] theorem commandBody_params (i : Instr) (s : State) : (commandBody i s).params = s.params := by rw [commandBody_eq]
@[simp] theorem commandBody_resets (i : Instr) (s : State) : (commandBody i s).resets = s.resets := by rw [commandBody_eq]
@[simp] theorem commandBody_program (i : Instr) (s : State) : (commandBody i s).program = s.program := by rw [commandBody_eq]
@[simp] theorem commandBody_trace (i : Instr) (s : State) : (commandBody i s).trace = s.trace := by rw [commandBody_eq]

/-- The writes of a command keep BUF in canonical form. -/
theorem commandBody_wf (i : Instr) {s : State} (h : Memory.wf s.buf = true) : Memory.wf (commandBody i s).buf = true := by
  cases i with
  | packbits w => exact State.wf_streamOr _ _ _ _ h
  | unpackbits w => exact h
  | packblk w => exact State.wf_streamOr _ _ _ _ h
  | unpackblk w => exact h

/-- The writes of a command whose checks pass stay inside BUF. -/
theorem commandBody_within {i : Instr} {s : State} (hv : commandVerdict i s = .done)
    (h : Memory.within s.params.bufLen s.buf = true) : Memory.within s.params.bufLen (commandBody i s).buf = true := by
  cases i with
  | packbits w =>
    have := (packbitsVerdict_done_iff _ _).mp hv
    exact State.within_streamOr _ _ _ _ h (by omega) (by omega)
  | unpackbits w => exact h
  | packblk w =>
    have := (packblkVerdict_done_iff _ _).mp hv
    exact State.within_streamOr _ _ _ _ h (by omega) (by omega)
  | unpackblk w => exact h

/-! ### The checks look at the registers, BUF and the parameters only -/

theorem commandVerdict_congr {s t : State} (i : Instr) (hval : t.val = s.val) (hcur : t.cur = s.cur) (hbase : t.base = s.base)
    (hblk : t.blk = s.blk) (hbuf : t.buf = s.buf) (hparams : t.params = s.params) (hresets : t.resets = s.resets) :
    commandVerdict i t = commandVerdict i s := by
  have hc : ∀ w, cursorOutside t w = cursorOutside s w := fun w => by rw [cursorOutside, cursorOutside, hcur, hparams]
  have hw : ∀ w, windowOutside t w = windowOutside s w := fun w => by rw [windowOutside, windowOutside, hbase, hparams]
  have hd : ∀ p n, dirty t p n = dirty s p n := fun p n => by
    rw [dirty, dirty, hparams, State.streamZero_congr hbuf hresets]
  have hl : t.lanes = s.lanes := by rw [State.lanes, State.lanes, hblk]
  cases i <;>
    simp only [commandVerdict, packbitsVerdict, unpackbitsVerdict, packblkVerdict, unpackblkVerdict, hc, hw, hd, hl, hval,
      hcur, hbase]

end Sys2Proof.Machine
end

