-- ==== Sys2Proof/Laws/PerInstr.lean ====
section
/-! SUPPORT. Statements made for every command, one lemma for each constructor: the word of a command is a word of its row of
spec/opcode_table.json (30_encoding.md rule R73): it matches under the row's mask, and its bits 23:16 are W. -/

namespace Sys2Proof.Laws.TableRow

/-- The row's `match` (rule R73). -/
def rowMatch : Instr → CmdWord
  | .packbits _ => 0x10000000
  | .unpackbits _ => 0x11000000
  | .packblk _ => 0x20000000
  | .unpackblk _ => 0x21000000

/-- The word of `i` is one of its row: under the mask 0xFF00FFFF it is the row's match, and the field it carries is `i`'s width. -/
def Statement (i : Instr) : Prop :=
  encode i &&& 0xFF00FFFF = rowMatch i ∧ (encode i).extractLsb' 16 8 = i.w

theorem packbits (w : BitVec 8) : Statement (.packbits w) := by
  unfold Statement; revert w; decide
theorem unpackbits (w : BitVec 8) : Statement (.unpackbits w) := by
  unfold Statement; revert w; decide
theorem packblk (w : BitVec 8) : Statement (.packblk w) := by
  unfold Statement; revert w; decide
theorem unpackblk (w : BitVec 8) : Statement (.unpackblk w) := by
  unfold Statement; revert w; decide

end Sys2Proof.Laws.TableRow
end

