-- ==== Sys2Proof/Laws/Port.lean ====
section
/-! SUPPORT. What a step can do: the transaction it performs, and that a transaction always answers a next state. -/

namespace Sys2Proof.Machine

theorem issue_next (d : Word) (s : State) : ∃ t, issue d s = .next t := by
  unfold issue
  split
  · exact ⟨_, exec_eq _ _⟩
  · exact ⟨_, rfl⟩

/-- The end of a CMD write is the end of its verdict. -/
theorem issue_cases {d : Word} {s t : State} (h : issue d s = .next t) :
    (∃ i, decode d = .ok i ∧ exec i s = .next t) ∨
    (∃ why, decode d = .illegal why ∧ t = s.takeFault .illegalCmd d) := by
  unfold issue at h
  split at h
  · rename_i i hi; exact .inl ⟨i, hi, h⟩
  · rename_i why hi
    injection h with h
    exact .inr ⟨why, hi, h.symm⟩

/-- A transaction always answers a next state. -/
theorem perform_next (x : Txn) (s : State) : ∃ t, perform x s = .next t := by
  cases x with
  | rd r => exact ⟨_, rfl⟩
  | wr r v =>
    cases hf : s.faulted
    · simp only [perform, hf]
      cases r <;> first | exact issue_next v s | exact ⟨_, rfl⟩
    · exact ⟨s, by simp [perform, hf]⟩
  | brd a => exact ⟨_, rfl⟩
  | bwr a b =>
    cases hf : s.faulted
    · exact ⟨s.setByte a b, by simp [perform, hf]⟩
    · exact ⟨s, by simp [perform, hf]⟩
  | reset => exact ⟨_, rfl⟩

/-- What a transaction can do. -/
theorem perform_cases {x : Txn} {s t : State} (h : perform x s = .next t) :
    (∃ y, t = s.returns y) ∨
    (s.faulted = true ∧ t = s) ∨
    (s.faulted = false ∧ ∃ r v, r ≠ .cmd ∧ x = .wr r v ∧ t = s.regWrite r v) ∨
    (s.faulted = false ∧ ∃ d, x = .wr .cmd d ∧ issue d s = .next t) ∨
    (s.faulted = false ∧ ∃ a b, x = .bwr a b ∧ t = s.setByte a b) ∨
    (x = .reset ∧ t = s.takeReset) := by
  cases x with
  | rd r => left; simp only [perform] at h; injection h with h; exact ⟨_, h.symm⟩
  | brd a => left; simp only [perform] at h; injection h with h; exact ⟨_, h.symm⟩
  | wr r v =>
    cases hf : s.faulted with
    | true => right; left; simp only [perform, hf, if_true] at h; injection h with h; exact ⟨rfl, h.symm⟩
    | false =>
      simp only [perform, hf] at h
      cases r with
      | cmd => right; right; right; left; exact ⟨rfl, v, rfl, h⟩
      | _ => right; right; left; refine ⟨rfl, _, v, ?_, rfl, ?_⟩ <;> [simp; (injection h with h; exact h.symm)]
  | bwr a b =>
    cases hf : s.faulted with
    | true => right; left; simp only [perform, hf, if_true] at h; injection h with h; exact ⟨rfl, h.symm⟩
    | false =>
      simp only [perform, hf] at h
      injection h with h
      right; right; right; right; left; exact ⟨rfl, a, b, rfl, h.symm⟩
  | reset => right; right; right; right; right; simp only [perform] at h; injection h with h; exact ⟨rfl, h.symm⟩

/-- A step waits, or performs the first pending transaction of a well-formed program. -/
theorem step_cases {s t : State} (h : step s = .next t) :
    (s.program = [] ∧ t = s) ∨
    (∃ op rest x, s.program = op :: rest ∧ programProblem s.params s.program = none ∧ resolve s.params op = .txn x ∧
      perform x { s with program := rest } = .next t) := by
  unfold step advance at h
  split at h
  · rename_i hp
    injection h with h
    exact .inl ⟨hp, h.symm⟩
  · rename_i op rest hp
    split at h
    · cases h
    · rename_i hprob
      simp only [performOp] at h
      split at h
      · rename_i x hx
        exact .inr ⟨op, rest, x, hp, by rw [hp]; exact hprob, hx, h⟩
      · cases h

/-- A step on a well-formed program performs its first transaction. -/
theorem step_cons {s : State} {op : HostOp} {rest : List HostOp} {x : Txn} (hp : s.program = op :: rest)
    (hx : resolve s.params op = .txn x) (hrest : programProblem s.params rest = none) :
    step s = perform x { s with program := rest } := by
  unfold step advance
  rw [hp]
  simp only [programProblem, hx, hrest, performOp]

theorem resolve_wr_cmd (p : Params) (d : Word) : resolve p (.wr Reg.cmd.offset 64 d) = .txn (.wr .cmd d) := rfl

/-- Looking a register's own offset up gives the register (10_state.md rule R34). -/
theorem Reg.atOffset_offset (r : Reg) : Reg.atOffset r.offset = some r := by
  cases r with
  | blk j => revert j; decide
  | _ => rfl

/-- A `bwr` that is a transaction writes inside BUF. -/
theorem resolve_bwr_lt {p : Params} {op : HostOp} {a : Nat} {b : Byte} (h : resolve p op = .txn (.bwr a b)) : a < p.bufLen := by
  cases op with
  | bwr a' b' =>
    simp only [resolve] at h
    split at h
    · cases h
    · split at h
      · cases h
      · injection h with h
        injection h with h1 h2
        omega
  | rd off bits => simp only [resolve, resolveReg] at h; split at h <;> [cases h; (split at h <;> cases h)]
  | wr off bits v => simp only [resolve, resolveReg] at h; split at h <;> [cases h; (split at h <;> cases h)]
  | brd a' => simp only [resolve] at h; split at h <;> cases h
  | reset => simp [resolve] at h

/-- P-FORMED and the machine's check of a program agree. -/
theorem programProblem_eq_none_iff (p : Params) (ops : List HostOp) : programProblem p ops = none ↔ Program.wf p ops = true := by
  induction ops with
  | nil => simp [programProblem, Program.wf]
  | cons op ops ih =>
    simp only [programProblem, Program.wf, List.all_cons, Bool.and_eq_true] at ih ⊢
    cases h : resolve p op <;> simp [HostOp.wf, h, ih]

end Sys2Proof.Machine
end

