-- ==== Sys2Proof/Tests/Slice0.lean ====
section
/-! SUPPORT. Tests of single steps, with expected values from spec/ (named at each), the refusal of every kind of ill-formed
transaction, and the witnesses: for every statement with hypotheses, a state and operands that meet them together. -/

namespace Sys2Proof.Tests

open Sys2Proof.Machine

/-- `n` consecutive zero bytes from address `a` on. -/
def zeros (a n : Nat) : Memory := (List.range n).map fun k => (a + k, 0)

/-- A unit of `n` bytes after reset, with some bytes of BUF written. -/
def unit (n : Nat) (mode : DirtyMode) (m : Memory) : State :=
  { State.reset with params := { bufLast := BitVec.ofNat 32 (n - 1), dirtyMode := mode }, buf := m }

/-- The state after a step that goes on. -/
def after : Host.Outcome State Fault Refusal → Option State
  | .next t => some t
  | .fault _ => none
  | .refused _ => none

/-- `n` bytes of BUF from address `a` on, after a step. -/
def bytesAfter (o : Host.Outcome State Fault Refusal) (a n : Nat) : List Nat :=
  match after o with
  | some t => (List.range n).map fun k => (t.byte (a + k)).toNat
  | none => []

/-- STATUS, FCMD, CUR and VAL after a step. -/
def regsAfter (o : Host.Outcome State Fault Refusal) : Option (Word × Word × Word × Word) :=
  (after o).map fun t => (t.status, t.fcmd, t.cur, t.val)

/-- BLK[0..7] after a step. -/
def lanesAfter (o : Host.Outcome State Fault Refusal) : List Nat :=
  match after o with
  | some t => t.blk.toList.map (·.toNat)
  | none => []

/-- The lanes 0, 1, ..., 7 of section 5 of 95_test_vectors.md. -/
def upLanes : Vector Word 8 := #v[0, 1, 2, 3, 4, 5, 6, 7]

/-! ### Decoding: words written out from the fields of 30_encoding.md rule R70, OPC W RSV -/

theorem test_decode_packbits : decode 0b00010000000001110000000000000000 = .ok (.packbits 7) := by decide

theorem test_decode_unpackbits : decode 0b00010001001111110000000000000000 = .ok (.unpackbits 63) := by decide

theorem test_decode_packblk : decode 0b00100000000000010000000000000000 = .ok (.packblk 1) := by decide

theorem test_decode_unpackblk : decode 0b00100001001110000000000000000000 = .ok (.unpackblk 56) := by decide

/-- B-D rows and rule R76: a reserved bit, a high bit, an unused opcode. -/
theorem test_decode_refuses : decode 0b00010000000001110000000000000001 = .illegal .reservedField ∧
    decode 0x110070000 = .illegal .highBits ∧ decode 0b00010010000001110000000000000000 = .illegal .opcode := by decide

theorem test_decodeTableWord : decodeTableWord 32 0x21FF0000 = some (.unpackblk 255) ∧ decodeTableWord 32 0x20000001 = none := by
  decide

/-! ### Ill-formed transactions (43_host_port.md rule R197), each kind refused -/

theorem test_refuses_unmappedOffset :
    step { unit 16 .fault [] with program := [.rd 0x30 64] } = .refused (.illFormed .unmappedOffset) := by rfl

theorem test_refuses_partialWord :
    step { unit 16 .fault [] with program := [.wr 0x20 32 5] } = .refused (.illFormed .partialWord) := by rfl

theorem test_refuses_bufAddress :
    step { unit 16 .fault [] with program := [.brd 16] } = .refused (.illFormed .bufAddress) := by rfl

theorem test_refuses_wideByte :
    step { unit 16 .fault [] with program := [.bwr 15 256] } = .refused (.illFormed .wideByte) := by rfl

/-- The program is refused before its first, well-formed, transaction acts (93_implementation_defined.md U11). -/
theorem test_refuses_before_it_runs :
    step { unit 16 .fault [] with program := [.wr 0x20 64 5, .brd 16] } = .refused (.illFormed .bufAddress) := by rfl

theorem test_wf_refuses : HostOp.wf { bufLast := 15, dirtyMode := .fault } (.rd 0x38 64) = false ∧
    HostOp.wf { bufLast := 15, dirtyMode := .fault } (.rd 0x08 8) = false ∧
    HostOp.wf { bufLast := 15, dirtyMode := .fault } (.bwr 16 0) = false ∧
    HostOp.wf { bufLast := 15, dirtyMode := .fault } (.bwr 0 256) = false ∧
    HostOp.wf { bufLast := 15, dirtyMode := .fault } (.bwr 15 255) = true := by decide

/-! ### One step of each command (95_test_vectors.md) -/

/-- C-X3: w = 63 at offset 2 spans nine bytes. -/
theorem test_packbits_nine_bytes :
    let o := exec (.packbits 63) { unit 16 .fault (zeros 0 16) with cur := 2, val := 0x7FFFFFFFFFFFFFFF }
    bytesAfter o 0 10 = [0x3F, 0xFF, 0xFF, 0xFF, 0xFF, 0xFF, 0xFF, 0xFF, 0x80, 0x00] ∧
      regsAfter o = some (0, 0, 65, 0x7FFFFFFFFFFFFFFF) := by decide

/-- C-X10: a trailing bit of the last touched byte is 1. -/
theorem test_packbits_dirty_trailing_bit :
    let o := exec (.packbits 6) { unit 16 .fault ((0, 0x01) :: zeros 1 15) with val := 0x2A }
    bytesAfter o 0 2 = [0x01, 0x00] ∧ regsAfter o = some (0x5102, 0x10060000, 0, 0x2A) := by decide

/-- C-UB8: offset 5, across a byte boundary; the old VAL is overwritten. -/
theorem test_unpackbits_across_bytes :
    regsAfter (exec (.unpackbits 8)
      { unit 16 .fault ([(0, 0x01), (1, 0x23)] ++ zeros 2 14) with cur := 5, val := 0xFFFFFFFFFFFFFFFF })
      = some (0, 0, 13, 0x24) := by decide

/-- C-UBX3: one bit past the end. -/
theorem test_unpackbits_bounds :
    regsAfter (exec (.unpackbits 7) { unit 4 .fault (zeros 0 4) with cur := 26, val := 7 })
      = some (0x3102, 0x11070000, 26, 7) := by decide

/-- B-F1: the window ends at the last byte of BUF. -/
theorem test_packblk_last_window :
    let o := exec (.packblk 7) { unit 16 .fault (zeros 0 16) with base := 9, blk := upLanes }
    bytesAfter o 8 8 = [0, 0, 0x04, 0x10, 0x30, 0x81, 0x43, 0x07] ∧ regsAfter o = some (0, 0, 0, 0) := by decide

/-- B-IW7: the dispatcher rejects before the window is looked at. -/
theorem test_packblk_width_first :
    regsAfter (exec (.packblk 0) { unit 16 .fault (zeros 0 16) with base := 1000, blk := upLanes }) = some (1, 0, 0, 0) := by
  decide

/-- B-F9: CUR and VAL untouched. -/
theorem test_unpackblk_lanes :
    let o := exec (.unpackblk 1) { unit 16 .fault (zeros 0 7 ++ [(7, 0xAA)] ++ zeros 8 8) with base := 7, cur := 5, val := 9 }
    lanesAfter o = [1, 0, 1, 0, 1, 0, 1, 0] ∧ regsAfter o = some (0, 0, 5, 9) := by decide

/-- B-F3: the window ends one byte past the end of BUF. -/
theorem test_unpackblk_bounds :
    let o := exec (.unpackblk 7) { unit 16 .fault (zeros 0 16) with base := 10, blk := upLanes }
    lanesAfter o = [0, 1, 2, 3, 4, 5, 6, 7] ∧ regsAfter o = some (0x3102, 0x21070000, 0, 0) := by decide

/-- The command runs as the first after reset: width 0 is CURSOR_WIDTH, whatever BUF_LEN is (C-X8). -/
theorem test_first_step_after_reset :
    regsAfter (step (State.reset.withFetchWord 32 0x10000000)) = some (0x2102, 0x10000000, 0, 0) := by decide

/-! ### Witnesses -/

/-- A unit with clean bytes. -/
def clean : State := { unit 16 .fault (zeros 0 16) with val := 0x55, blk := upLanes }

/-- A faulted unit: it has taken the fault of `packbits 0`. -/
def faultedUnit : State := clean.takeFault .cursorWidth (cmdData (.packbits 0))

/-- For `DecodeFollowsTheFields`, `ExampleWordsDecode`, `ThreeOutcomes`, `CheckOrder`, `WidthDispatch`, `WritesSetTheRegister`,
`EngineNetworks`: a unit that is not faulted. -/
theorem witness_not_faulted : clean.faulted = false := by decide

/-- `EveryWidthDecodes`, `InvalidWidthReport`: widths outside 1..63 at their bounds. -/
theorem witness_bad_widths : clean.faulted = false ∧ (0 : BitVec 8).toNat = 0 ∧ 63 < (64 : BitVec 8).toNat ∧
    63 < (255 : BitVec 8).toNat := by decide

/-- `PackbitsFollowsItsRule`, `PackPhaseMachine`, `PackbitsCorners`: the checks pass, also where the field ends with BUF. -/
theorem witness_PackbitsFits : clean.faulted = false ∧ clean.PackbitsFits 7 ∧ { clean with cur := 121 }.PackbitsFits 7 ∧
    { clean with cur := 65, val := 0x7FFFFFFFFFFFFFFF }.PackbitsFits 63 := by
  refine ⟨by decide, ?_, ?_, ?_⟩ <;> exact (packbitsVerdict_iff_fits _ _).mp (by decide)

/-- `PackbitsFollowsItsRule`: each failing clause at its bound. -/
theorem witness_packbits_faults :
    (8 * clean.params.bufLen < { clean with cur := 122 }.cur.toNat + 7) ∧
    (clean.cur.toNat + 7 ≤ 8 * clean.params.bufLen ∧ 2 ^ 7 ≤ { clean with val := 0x80 }.val.toNat) ∧
    (clean.val.toNat < 2 ^ 7 ∧ clean.params.dirtyMode = .fault ∧
      ∃ q, clean.cur.toNat ≤ q ∧ q < 8 * ((clean.cur.toNat + 7 - 1) / 8 + 1) ∧
        { clean with buf := (0, 0x01) :: zeros 1 15 }.streamBit q = true) := by
  refine ⟨by decide, by decide, by decide, by decide, 7, by decide⟩

/-- `PackbitsFollowsItsRule`, the example. -/
theorem witness_packbits_example :
    let s := { unit 16 .fault ((0, 0xA0) :: zeros 1 15) with cur := 3, val := 0x1B }
    s.faulted = false ∧ s.byte 0 = 0xA0 ∧ s.cur = 3 ∧ s.val = 0x1B := by decide

/-- `UnpackbitsFollowsItsRule`, `UnpackPhaseMachine`, `CommandsReadOnlyTheirOperands`. -/
theorem witness_UnpackbitsFits : clean.faulted = false ∧ clean.UnpackbitsFits 7 ∧ { clean with cur := 121 }.UnpackbitsFits 7 := by
  refine ⟨by decide, ?_, ?_⟩ <;> exact (unpackbitsVerdict_iff_fits _ _).mp (by decide)

/-- `UnpackbitsFollowsItsRule`, `BoundsExactly`: one bit past the end; the example. -/
theorem witness_unpackbits_clauses :
    (8 * clean.params.bufLen < { clean with cur := 122 }.cur.toNat + 7) ∧
    (let s := { unit 16 .fault ((0, 0xBB) :: zeros 1 15) with cur := 3 }; s.faulted = false ∧ s.byte 0 = 0xBB ∧ s.cur = 3) := by
  decide

/-- `CursorStateMachine`, `CommandFrame`, `PackOnlySetsUnpackOnlyReads`: both cursor commands answer a next state, done and
failed, at an offset in each of the source's cases. -/
theorem witness_cursor_commands :
    (∃ t, exec (.packbits 7) clean = .next t ∧ t.faulted = false) ∧
    (∃ t, exec (.unpackbits 3) { clean with cur := 2 } = .next t ∧ t.faulted = false) ∧
    (∃ t, exec (.unpackbits 13) { clean with cur := 3 } = .next t ∧ t.faulted = false) ∧
    (∃ t, exec (.packbits 0) clean = .next t ∧ t.faulted = true) := by
  refine ⟨⟨_, exec_eq _ _, ?_⟩, ⟨_, exec_eq _ _, ?_⟩, ⟨_, exec_eq _ _, ?_⟩, ⟨_, exec_eq _ _, ?_⟩⟩ <;> decide

/-- `PackbitsCorners`: a command at each corner. -/
theorem witness_packbits_corners :
    { clean with cur := 1 }.PackbitsFits 7 ∧ clean.PackbitsFits 7 ∧ clean.PackbitsFits 16 ∧
    { clean with cur := 2 }.PackbitsFits 63 ∧ { clean with val := 0 }.PackbitsFits 5 ∧
    { clean with cur := 121 }.cur.toNat + 7 = 8 * clean.params.bufLen := by
  refine ⟨?_, ?_, ?_, ?_, ?_, by decide⟩ <;> exact (packbitsVerdict_iff_fits _ _).mp (by decide)

/-- `AlignedFieldIsBigEndian`: two bytes at address 3. -/
theorem witness_AlignedFieldIsBigEndian :
    let s := { clean with cur := 24 }
    s.faulted = false ∧ s.PackbitsFits (16 : BitVec 8).toNat ∧ (16 : BitVec 8).toNat = 8 * 2 ∧ s.cur.toNat = 8 * 3 ∧
      ∀ k, k < 2 → s.byte (3 + k) = 0 := by
  refine ⟨by decide, (packbitsVerdict_iff_fits _ _).mp (by decide), by decide, by decide, by decide⟩

/-- `RoundTripBits`: the highest value of width 63 at offset 7. -/
theorem witness_RoundTripBits :
    let s := { clean with cur := 7 }
    let v : Word := 0x7FFFFFFFFFFFFFFF
    s.faulted = false ∧ v.toNat < 2 ^ (63 : BitVec 8).toNat ∧ s.cur.toNat + (63 : BitVec 8).toNat ≤ 8 * s.params.bufLen ∧
      ∀ q, s.cur.toNat ≤ q → q < 8 * ((s.cur.toNat + (63 : BitVec 8).toNat - 1) / 8 + 1) → s.streamBit q = false := by
  refine ⟨by decide, by decide, by decide, ?_⟩
  intro q h1 h2
  have hc : ({ clean with cur := 7 } : State).cur.toNat = 7 := by decide
  have hw : (63 : BitVec 8).toNat = 63 := by decide
  exact (State.streamZero_iff { clean with cur := 7 } 7 65).mp (by decide) q (by omega) (by omega)

/-- The deltas of S7a at width 7, and the highest value of width 63. -/
def fields : List (BitVec 8 × Word) := [(7, 5), (7, 7), (7, 0), (7, 28), (63, 0x7FFFFFFFFFFFFFFF)]

/-- `SequentialPacking`, `UnpackIgnoresOutsideBits`: the deltas of S7a, and the highest value of width 63, from byte 1 on. -/
theorem witness_SequentialPacking :
    let s := { clean with cur := 8 }
    s.faulted = false ∧ s.cur.toNat = 8 * 1 ∧
      (∀ x ∈ fields, 1 ≤ x.1.toNat ∧ x.1.toNat ≤ 63 ∧ x.2.toNat < 2 ^ x.1.toNat) ∧
      8 * 1 + totalBits (fields.map (·.1)) ≤ 8 * s.params.bufLen ∧
      ∀ a, 1 ≤ a → a ≤ (8 * 1 + totalBits (fields.map (·.1)) - 1) / 8 → s.byte a = 0 := by
  refine ⟨by decide, by decide, by simp [fields], by decide, ?_⟩
  intro a h1 h2
  have ht : totalBits (fields.map (·.1)) = 91 := by decide
  rw [ht] at h2
  exact (State.streamZero_bytes_iff { clean with cur := 8 } 1 12).mp (by decide) a h1 (by omega)

/-- `UnpackIgnoresOutsideBits`: two buffers that differ outside the field only. -/
theorem witness_UnpackIgnoresOutsideBits :
    let s := { clean with cur := 3 }
    let s' := { clean with cur := 3, buf := (0, 0xE7) :: zeros 1 15 }
    s.UnpackbitsFits 2 ∧ s'.UnpackbitsFits 2 ∧ s'.cur = s.cur ∧ s'.faulted = false ∧ s.byte 0 ≠ s'.byte 0 ∧
      ∀ q, s.cur.toNat ≤ q → q < s.cur.toNat + 2 → s'.streamBit q = s.streamBit q := by
  refine ⟨(unpackbitsVerdict_iff_fits _ _).mp (by decide), (unpackbitsVerdict_iff_fits _ _).mp (by decide), by decide, by decide,
    by decide, ?_⟩
  intro q h1 h2
  have : q = 3 ∨ q = 4 := by
    have : ({ clean with cur := 3 } : State).cur.toNat = 3 := by decide
    omega
  rcases this with rfl | rfl <;> decide

/-- `PackblkFollowsItsRule`, `EngineNetworks`: the checks pass, at both ends of BUF. -/
theorem witness_PackblkFits : clean.faulted = false ∧ clean.PackblkFits 7 ∧ { clean with base := 9 }.PackblkFits 7 := by
  refine ⟨by decide, ?_, ?_⟩ <;> exact (packblkVerdict_iff_fits _ _).mp (by decide)

/-- `PackblkFollowsItsRule`: each failing clause at its bound, and the example. -/
theorem witness_packblk_clauses :
    (clean.params.bufLen < { clean with base := 10 }.base.toNat + 7) ∧
    (∃ j : Fin 8, 2 ^ 2 ≤ clean.blk[j].toNat) ∧
    ((∀ j : Fin 8, clean.blk[j].toNat < 2 ^ 7) ∧ clean.params.dirtyMode = .fault ∧
      ∃ a, clean.base.toNat ≤ a ∧ a < clean.base.toNat + 7 ∧
        { clean with buf := zeros 0 6 ++ (6, 0x01) :: zeros 7 9 }.byte a ≠ 0) ∧
    (let s := { clean with blk := #v[1, 0, 1, 0, 1, 0, 1, 0] };
      s.base.toNat < s.params.bufLen ∧ s.byte s.base.toNat = 0 ∧ s.blk = #v[1, 0, 1, 0, 1, 0, 1, 0]) := by
  refine ⟨by decide, by decide, ⟨by decide, by decide, 6, by decide⟩, by decide⟩

/-- `UnpackblkFollowsItsRule`, `CrossPathUnpack`, `ByteAlignedEngines`; one byte past the end; the example. -/
theorem witness_unpackblk_clauses : clean.UnpackblkFits 8 ∧ { clean with base := 9 }.UnpackblkFits 7 ∧
    (clean.params.bufLen < { clean with base := 10 }.base.toNat + 7) ∧
    (let s := { clean with buf := (0, 0xAA) :: zeros 1 15 }; s.base.toNat < s.params.bufLen ∧ s.byte s.base.toNat = 0xAA) := by
  refine ⟨(unpackblkVerdict_iff_fits _ _).mp (by decide), (unpackblkVerdict_iff_fits _ _).mp (by decide), by decide, by decide⟩

/-- `PackedBlockLayout`, `ByteAlignedEngines`, `CrossPathPack`, `RoundTripBlock`: lanes below 2^w and a window of zero bytes, here of the
byte-aligned width 8 in DIRTY_MODE = OR at the last place in BUF; BUF in canonical form. -/
theorem witness_zero_window :
    let s := { unit 16 .or (zeros 0 16) with base := 8, blk := upLanes }
    s.faulted = false ∧ s.PackblkFits (8 : BitVec 8).toNat ∧ s.base.toNat + (8 : BitVec 8).toNat ≤ s.params.bufLen ∧
      (∀ j : Fin 8, s.blk[j].toNat < 2 ^ (8 : BitVec 8).toNat) ∧ (8 : BitVec 8).toNat = 8 * 1 ∧ Memory.wf s.buf = true ∧
      ∀ a, s.base.toNat ≤ a → a < s.base.toNat + (8 : BitVec 8).toNat → s.byte a = 0 := by
  refine ⟨by decide, (packblkVerdict_iff_fits _ _).mp (by decide), by decide, by decide, by decide, by decide, ?_⟩
  exact (State.streamZero_bytes_iff _ _ _).mp (by decide)

/-- `PackOnlySetsUnpackOnlyReads`, its last part, for both pack commands. -/
theorem witness_repeated_pack : clean.faulted = false ∧ clean.params.dirtyMode = .fault ∧ clean.PackbitsFits 7 ∧ clean.val ≠ 0 ∧
    clean.PackblkFits 7 ∧ ∃ j : Fin 8, clean.blk[j] ≠ 0 :=
  ⟨by decide, by decide, (packbitsVerdict_iff_fits _ _).mp (by decide), by decide,
    (packblkVerdict_iff_fits _ _).mp (by decide), by decide⟩

/-- `CommandFrame`, `PackOnlySetsUnpackOnlyReads`: the block commands answer a next state, and so do the reads. -/
theorem witness_block_commands :
    (∃ t, exec (.packblk 7) clean = .next t ∧ t.faulted = false) ∧ (∃ t, exec (.unpackblk 7) clean = .next t ∧ t.faulted = false) ∧
    (∃ t, perform (.rd .status) clean = .next t) ∧ ∃ t, perform (.brd 3) clean = .next t :=
  ⟨⟨_, exec_eq _ _, by decide⟩, ⟨_, exec_eq _ _, by decide⟩, ⟨_, rfl⟩, ⟨_, rfl⟩⟩

/-- `FaultEntry`: data that fails with each of the five causes. -/
theorem witness_FaultEntry :
    verdictOf 0x12070000 clean = .fault .illegalCmd ∧ verdictOf 0x10400000 clean = .fault .cursorWidth ∧
    verdictOf 0x21110000 clean = .fault .bounds ∧ verdictOf 0x10060000 clean = .fault .valueRange ∧
    verdictOf 0x20070000 { clean with buf := zeros 0 6 ++ (6, 0x01) :: zeros 7 9 } = .fault .dirtyTarget := by decide

/-- `BoundsExactly`: the two sides of each bound. -/
theorem witness_BoundsExactly : clean.faulted = false ∧ 1 ≤ (7 : BitVec 8).toNat ∧ (7 : BitVec 8).toNat ≤ 63 ∧
    { clean with cur := 121 }.cur.toNat + 7 = 8 * clean.params.bufLen ∧ { clean with base := 9 }.base.toNat + 7 = clean.params.bufLen := by
  decide

/-- `FaultedUnitIsFrozen`, `CauseRecomputableKept`, `ResetValues`: a faulted unit that explains its own fault, and a step of it. -/
theorem witness_faulted : faultedUnit.faulted = true ∧ faultedUnit.CauseRecomputable ∧
    (∃ t, step (faultedUnit.withCommand 0x10010000) = .next t) ∧ ∃ t, perform .reset faultedUnit = .next t ∧ t.faulted = false :=
  ⟨by decide, fun _ => ⟨.cursorWidth, by decide⟩, ⟨_, rfl⟩, ⟨_, rfl, by decide⟩⟩

/-- `StatusWords`: the two legal words of a unit that is not faulted. -/
theorem witness_StatusWords : legalStatus clean.status = true ∧ clean.faulted = false ∧
    legalStatus clean.reportInvalidWidth.status = true ∧ clean.reportInvalidWidth.faulted = false := by decide

/-- `StepRunsTheDecodedCommand`, `StepPerformsTheNextTransaction`: the next transaction issues a command, with more to come; with none
pending the unit waits. -/
theorem witness_StepRunsTheDecodedCommand :
    (clean.withCommand 0x10070000).program = .wr 0x00 64 0x10070000 :: [] ∧ Program.wf clean.params [.rd 0x08 64, .bwr 15 255] = true ∧
    decode 0x10070000 = .ok (.packbits 7) ∧ decodeTableWord 32 0x10070000 = some (.packbits 7) ∧
    Program.wf clean.params clean.program = true ∧ clean.program = [] := by decide

/-- `ReadsReturnTheState`, `BufferWriteSetsTheByte`, `AssemblerCommandLines`: the last address and the highest byte and width. -/
theorem witness_port : clean.faulted = false ∧ 15 < clean.params.bufLen ∧ (255 : Nat) ≤ 255 := by decide

/-- `IllFormedProgramsAreRefused`, `RunsOfFormedProgramsComplete`: a program of each kind. -/
theorem witness_programs : Program.wf clean.params [.bwr 15 255, .wr 0x78 64 1, .rd 0x00 64, .brd 0, .reset] = true ∧
    Program.wf clean.params [.rd 0x08 64, .brd 16] = false := by decide

/-- P-CLEAN on P4's commands (95_test_vectors.md section 6): the rejected widths 0 and 64 and a pack of a faulted unit touch no byte,
PACKBLK 1 touches the cleared byte 0, the fault of PACKBITS 8 is VALUE_RANGE. -/
theorem test_premiseClean_P4 : premiseClean (unit 4 .fault [])
    [.bwr 0 0, asmWr .cmd 0x20000000, asmWr .cmd 0x20400000, asmWr .cmd 0x20010000, asmWr .val 300, asmWr .cmd 0x10080000,
     asmWr .cmd 0x10090000, .reset] = true := by decide

/-- P-CLEAN fails where a pack touches a byte not cleared, and where the byte was cleared before the last reset only (rules R200, R243). -/
theorem test_premiseClean_fails : premiseClean (unit 4 .fault []) [.bwr 1 0, asmWr .cmd 0x20010000] = false ∧
    premiseClean (unit 4 .fault []) [.bwr 0 0, .reset, asmWr .cmd 0x20010000] = false := by decide

/-- `BytesAPackTouches`: the last byte of BUF is touched by each pack command. -/
theorem witness_BytesAPackTouches : 15 ∈ packTouches 0x10070000 { clean with cur := 121 } ∧
    15 ∈ packTouches 0x20070000 { clean with base := 9 } ∧ packTouches 0x10070000 { clean with cur := 122 } = [] ∧
    packTouches 0x20400000 clean = [] ∧ packTouches 0x20070000 faultedUnit = [] := by decide

/-- `PremiseCleanMeansCleared`, `CleanPacksMeetNoDraw`: transaction 2 of a clean run is a pack that touches byte 0. -/
theorem witness_clean_run :
    let ops : List HostOp := [.bwr 0 0, asmWr .cmd 0x20010000]
    Program.wf clean.params ops = true ∧ premiseClean clean ops = true ∧
      (HostOp.reset :: ops)[2]? = some (.wr 0x00 64 0x20010000) ∧
      ∃ u, Host.Core.run Sys2Proof.core 2 { clean with program := .reset :: ops } = .next u ∧ 0 ∈ packTouches 0x20010000 u :=
  ⟨by decide, by decide, by decide, _, rfl, by decide⟩

/-- `InvariantKept`, `ParametersNeverChange`, `BufIsDrawnAtEveryReset`: a state that meets the invariant and steps; a transaction that
is no reset. -/
theorem witness_InvariantKept : (clean.withCommand 0x20070000).Inv ∧ (∃ t, step (clean.withCommand 0x20070000) = .next t) ∧
    ∃ t, perform (.bwr 15 255) clean = .next t :=
  ⟨⟨by decide, by decide, by decide, by decide⟩, ⟨_, rfl⟩, ⟨_, rfl⟩⟩

/-- `TouchedBytes`, `AlignmentPattern`: the bounds of the width. -/
theorem witness_widths : touchedCount 0 1 = 1 ∧ touchedCount 1 63 = 8 ∧ touchedCount 2 63 = 9 ∧ offsetPeriod 1 = 8 ∧ offsetPeriod 8 = 1 := by
  decide

/-- `DeltasOfEntries`: the ascending entries of S7, with an equal pair, and their deltas. -/
theorem witness_DeltasOfEntries : [(5 : Word), 12, 12, 40].Pairwise (fun x y => x.toNat ≤ y.toNat) ∧
    deltas [5, 12, 12, 40] = [5, 7, 0, 28] ∧ entriesOf [5, 7, 0, 28] = [5, 12, 12, 40] := by decide

/-- `PseudoInstructions`: the highest width, bit offset and cursor position, and a range that ends with BUF. -/
theorem witness_PseudoInstructions : clean.faulted = false ∧ (255 : Nat) ≤ 255 ∧ (7 : Nat) ≤ 7 ∧
    8 * (2 ^ 61 - 1) + 7 < 2 ^ 64 ∧ 12 + 4 ≤ clean.params.bufLen := by decide

/-- `DeltaRegionLayout`, `DeltaUnpackReturnsTheFields`: nine entries of width 7, one full group and a tail, in a region that ends with BUF. -/
theorem witness_DeltaRegionLayout :
    let es : List Word := [5, 12, 12, 40, 41, 42, 43, 44, 171]
    clean.faulted = false ∧ (∀ d ∈ deltas es, d.toNat < 2 ^ 7) ∧ 8 + regionLength 7 es.length = clean.params.bufLen ∧
      ∀ a, 8 ≤ a → a < 8 + regionLength 7 es.length → clean.byte a = 0 := by
  refine ⟨by decide, by simp [deltas, deltasFrom], by decide, ?_⟩
  intro a h1 h2
  have hl : regionLength 7 [(5 : Word), 12, 12, 40, 41, 42, 43, 44, 171].length = 8 := by decide
  exact (State.streamZero_bytes_iff clean 8 8).mp (by decide) a h1 (by omega)

/-- `RegionLength`: S7a and S7b. -/
theorem witness_RegionLength : regionLength 7 4 = 4 ∧ regionLength 5 4 = 3 := by decide

end Sys2Proof.Tests
end

/-! PROOFS. The statements of 00_scope.md: which bytes of BUF a pack command touches, and that no step changes the parameters; with
the lemmas about the decoder and about `params` that they rest on. -/

namespace Sys2Proof

/-! ### The decoder on the data that encodes a command (30_encoding.md rule R70) -/

/-- The fields of the CMD data of a command, as one number: RSV and the high half add nothing. -/
theorem toNat_cmdData (i : Instr) : (cmdData i).toNat = i.opc.toNat * 2 ^ 24 + i.w.toNat * 2 ^ 16 := by
  simp only [cmdData, encode, BitVec.toNat_setWidth, BitVec.toNat_ofNat]
  omega

theorem toNat_cmdHigh (d : Word) : (cmdHigh d).toNat = d.toNat / 2 ^ 32 % 2 ^ 32 := by
  rw [cmdHigh, BitVec.extractLsb'_toNat, Nat.shiftRight_eq_div_pow]

theorem toNat_cmdOpc (d : Word) : (cmdOpc d).toNat = d.toNat / 2 ^ 24 % 2 ^ 8 := by
  rw [cmdOpc, BitVec.extractLsb'_toNat, Nat.shiftRight_eq_div_pow]

theorem toNat_cmdW (d : Word) : (cmdW d).toNat = d.toNat / 2 ^ 16 % 2 ^ 8 := by
  rw [cmdW, BitVec.extractLsb'_toNat, Nat.shiftRight_eq_div_pow]

theorem toNat_cmdRsv (d : Word) : (cmdRsv d).toNat = d.toNat % 2 ^ 16 := by
  rw [cmdRsv, BitVec.extractLsb'_toNat, Nat.shiftRight_zero]

@[simp] theorem cmdHigh_cmdData (i : Instr) : cmdHigh (cmdData i) = 0#32 := by
  apply BitVec.eq_of_toNat_eq
  rw [toNat_cmdHigh, toNat_cmdData, BitVec.toNat_zero]
  omega

@[simp] theorem cmdOpc_cmdData (i : Instr) : cmdOpc (cmdData i) = i.opc := by
  apply BitVec.eq_of_toNat_eq
  rw [toNat_cmdOpc, toNat_cmdData]
  omega

@[simp] theorem cmdW_cmdData (i : Instr) : cmdW (cmdData i) = i.w := by
  apply BitVec.eq_of_toNat_eq
  rw [toNat_cmdW, toNat_cmdData]
  omega

@[simp] theorem cmdRsv_cmdData (i : Instr) : cmdRsv (cmdData i) = 0#16 := by
  apply BitVec.eq_of_toNat_eq
  rw [toNat_cmdRsv, toNat_cmdData, BitVec.toNat_zero]
  omega

/-- Decoding inverts encoding (rules R70, R74). -/
@[simp] theorem decode_cmdData (i : Instr) : decode (cmdData i) = .ok i := by
  cases i <;> simp [decode, Instr.opc, Instr.w]

end Sys2Proof

namespace Sys2Proof.Machine

/-! ### The bytes a pack command touches -/

/-- No lane is too wide just when each of the eight is below `2^w` (41_block_codec.md rule R135). -/
theorem lanes_any_tooWide_eq_false_iff (w : Nat) (s : State) :
    s.lanes.any (tooWide w) = false ↔ ∀ j : Fin 8, s.blk[j].toNat < 2 ^ w := by
  simp [State.lanes, tooWide, Vector.any_eq_false, Fin.forall_iff]

/-- The bytes counted by rule R58 from the field's first byte on are those up to `(p+w-1) div 8` (rule R100). -/
theorem mem_fieldBytes_iff (p a : Nat) {w : Nat} (hw : 1 ≤ w) :
    a ∈ (List.range (touchedCount p w)).map (p / 8 + ·) ↔ p / 8 ≤ a ∧ a ≤ (p + w - 1) / 8 := by
  have hend : p / 8 + touchedCount p w = (p + w - 1) / 8 + 1 := by
    unfold touchedCount
    omega
  rw [← List.range'_eq_map_range, List.mem_range'_1, hend, Nat.lt_succ_iff]

/-- The bytes that PACKBITS touches: the checks before the target's read pass, and the byte is one of the field's. -/
theorem mem_packTouches_packbits_iff {d : Word} {w : BitVec 8} (hd : decode d = .ok (.packbits w)) (s : State) (a : Nat) :
    a ∈ packTouches d s ↔
      s.faulted = false ∧ (1 ≤ w.toNat ∧ w.toNat ≤ 63) ∧ s.cur.toNat + w.toNat ≤ 8 * s.params.bufLen ∧
        s.val.toNat < 2 ^ w.toNat ∧ s.cur.toNat / 8 ≤ a ∧ a ≤ (s.cur.toNat + w.toNat - 1) / 8 := by
  have hchecks : (s.faulted || !widthOk w.toNat || cursorOutside s w.toNat || tooWide w.toNat s.val) = false ↔
      s.faulted = false ∧ (1 ≤ w.toNat ∧ w.toNat ≤ 63) ∧ s.cur.toNat + w.toNat ≤ 8 * s.params.bufLen ∧
        s.val.toNat < 2 ^ w.toNat := by
    simp [← widthOk_iff, cursorOutside, tooWide, and_assoc]
  simp only [packTouches, hd]
  rw [List.mem_ite_nil_left, Bool.not_eq_true, hchecks,
    and_congr_right fun ⟨_, ⟨hw, _⟩, _⟩ => mem_fieldBytes_iff s.cur.toNat a hw]
  simp only [and_assoc]

/-- The bytes that PACKBLK touches: the checks before the target's read pass, and the byte is in the window. -/
theorem mem_packTouches_packblk_iff {d : Word} {w : BitVec 8} (hd : decode d = .ok (.packblk w)) (s : State) (a : Nat) :
    a ∈ packTouches d s ↔
      s.faulted = false ∧ (1 ≤ w.toNat ∧ w.toNat ≤ 63) ∧ s.base.toNat + w.toNat ≤ s.params.bufLen ∧
        (∀ j : Fin 8, s.blk[j].toNat < 2 ^ w.toNat) ∧ s.base.toNat ≤ a ∧ a < s.base.toNat + w.toNat := by
  have hchecks : (s.faulted || !widthOk w.toNat || windowOutside s w.toNat || s.lanes.any (tooWide w.toNat)) = false ↔
      s.faulted = false ∧ (1 ≤ w.toNat ∧ w.toNat ≤ 63) ∧ s.base.toNat + w.toNat ≤ s.params.bufLen ∧
        ∀ j : Fin 8, s.blk[j].toNat < 2 ^ w.toNat := by
    rw [← lanes_any_tooWide_eq_false_iff]
    simp only [Bool.or_eq_false_iff, Bool.not_eq_false', widthOk_iff, windowOutside, decide_eq_false_iff_not, Nat.not_lt,
      and_assoc]
  simp only [packTouches, hd]
  rw [List.mem_ite_nil_left, Bool.not_eq_true, hchecks, ← List.range'_eq_map_range, List.mem_range'_1]
  simp only [and_assoc]

theorem packTouches_unpackbits {d : Word} {w : BitVec 8} (hd : decode d = .ok (.unpackbits w)) (s : State) :
    packTouches d s = [] := by
  simp only [packTouches, hd]

theorem packTouches_unpackblk {d : Word} {w : BitVec 8} (hd : decode d = .ok (.unpackblk w)) (s : State) :
    packTouches d s = [] := by
  simp only [packTouches, hd]

theorem packTouches_illegal {d : Word} {why : Illegal} (hd : decode d = .illegal why) (s : State) :
    packTouches d s = [] := by
  simp only [packTouches, hd]

/-- Whatever the CMD data, every touched byte is one of BUF: the BOUNDS check comes before the target's read (rule R216). -/
theorem lt_bufLen_of_mem_packTouches {d : Word} {s : State} {a : Nat} (ha : a ∈ packTouches d s) : a < s.params.bufLen := by
  cases hd : decode d with
  | illegal why => simp [packTouches_illegal hd] at ha
  | ok i =>
    cases i with
    | packbits w =>
      obtain ⟨-, ⟨hw, -⟩, hbounds, -, -, hlast⟩ := (mem_packTouches_packbits_iff hd s a).mp ha
      omega
    | unpackbits w => simp [packTouches_unpackbits hd] at ha
    | packblk w =>
      obtain ⟨-, -, hbounds, -, -, hlast⟩ := (mem_packTouches_packblk_iff hd s a).mp ha
      omega
    | unpackblk w => simp [packTouches_unpackblk hd] at ha

/-- Settles O45: the membership lemma of each pack command at its own data, no byte for an unpack, and the bound from BOUNDS. -/
theorem bytesAPackTouches : Obligations.BytesAPackTouches := by
  intro w d s a
  exact ⟨mem_packTouches_packbits_iff (decode_cmdData _) s a, mem_packTouches_packblk_iff (decode_cmdData _) s a,
    packTouches_unpackbits (decode_cmdData _) s, packTouches_unpackblk (decode_cmdData _) s,
    lt_bufLen_of_mem_packTouches⟩

/-! ### The parameters, layer by layer of a step -/

theorem exec_params {i : Instr} {s t : State} (h : exec i s = .next t) : t.params = s.params := by
  obtain ⟨-, rfl⟩ | ⟨-, -, rfl⟩ | ⟨-, -, rfl⟩ | ⟨-, c, -, rfl⟩ := exec_cases h
  · rfl
  · rw [State.succeed_params, commandBody_params]
  · rw [State.reportInvalidWidth_params]
  · rw [State.takeFault_params]

theorem issue_params {d : Word} {s t : State} (h : issue d s = .next t) : t.params = s.params := by
  obtain ⟨i, -, hexec⟩ | ⟨why, -, rfl⟩ := issue_cases h
  · exact exec_params hexec
  · rw [State.takeFault_params]

theorem perform_params {x : Txn} {s t : State} (h : perform x s = .next t) : t.params = s.params := by
  obtain ⟨y, rfl⟩ | ⟨-, rfl⟩ | ⟨-, r, v, -, -, rfl⟩ | ⟨-, d, -, hissue⟩ | ⟨-, a, b, -, rfl⟩ | ⟨-, rfl⟩ := perform_cases h
  · rw [State.returns_params]
  · rfl
  · rw [State.regWrite_params]
  · exact issue_params hissue
  · rw [State.setByte_params]
  · rw [State.takeReset_params]

theorem step_params {s t : State} (h : step s = .next t) : t.params = s.params := by
  obtain ⟨-, rfl⟩ | ⟨op, rest, x, -, -, -, hperform⟩ := step_cases h
  · rfl
  · have hparams := perform_params hperform
    exact hparams

/-- Settles O50: a step waits or performs one transaction, and no transaction writes the parameters. -/
theorem parametersNeverChange : Obligations.ParametersNeverChange :=
  fun _ _ => step_params

end Sys2Proof.Machine

/-! PROOFS. The statements of 10_state.md: the invariant of the unit and the STATUS words, what a command leaves alone, and which
registers it does not read; with the lemmas about the ends and the writes of a command that they rest on. -/

namespace Sys2Proof.Machine

/-! ### STATUS and FCMD after a command (rules R26, R27, R211, R212) -/

theorem State.takeFault_status (s : State) (c : FaultCause) (d : Word) :
    (s.takeFault c d).status = withFcause (withFault (withErr s.status errFaulted)) c.code := rfl

/-- The legal STATUS words with FAULT = 0 are OK and INVALID_WIDTH. -/
theorem legalStatus_unfaulted_cases {st : Word} (h : legalStatus st = true) (hf : statusFault st = false) :
    st = 0x0000 ∨ st = 0x0001 := by
  rcases legalStatus_cases h with h0 | h1 | rfl | rfl | rfl | rfl | rfl
  · exact .inl h0
  · exact .inr h1
  all_goals revert hf; decide

/-- In a legal STATUS that is not faulted ERR is all there is. -/
theorem withErr_of_legal_unfaulted {st : Word} (h : legalStatus st = true) (hf : statusFault st = false) (e : BitVec 4) :
    withErr st e = e.setWidth 64 := by
  obtain rfl | rfl := legalStatus_unfaulted_cases h hf <;> revert e <;> decide

/-- The word 0x?102 of a cause. -/
theorem State.takeFault_status_of_legal {s : State} (h : legalStatus s.status = true) (hf : s.faulted = false)
    (c : FaultCause) (d : Word) : (s.takeFault c d).status = withFcause 0x102 c.code := by
  rw [State.takeFault_status, withErr_of_legal_unfaulted h hf]
  rfl

/-- Settles O37: the words of ERR alone for the two ends without a fault, and the word of each cause. -/
theorem statusWords : Obligations.StatusWords := by
  intro s d h hf
  have hfault := State.takeFault_status_of_legal h hf (d := d)
  simp only [State.succeed_status, State.reportInvalidWidth_status, withErr_of_legal_unfaulted h hf, hfault]
  decide

theorem getLsbD_withErr_of_le (st : Word) (e : BitVec 4) {n : Nat} (hn : 4 ≤ n) :
    (withErr st e).getLsbD n = st.getLsbD n := by
  rw [getLsbD_withErr, if_neg (by omega)]

/-- The fault entry leaves the reserved bits of STATUS. -/
theorem State.getLsbD_takeFault_status (s : State) (c : FaultCause) (d : Word) {n : Nat}
    (hn : (4 ≤ n ∧ n < 8) ∨ (9 ≤ n ∧ n < 12) ∨ 16 ≤ n) :
    (s.takeFault c d).status.getLsbD n = s.status.getLsbD n := by
  rw [State.takeFault_status, getLsbD_withFcause, if_neg (by omega), getLsbD_withFault,
    decide_eq_false (by omega), Bool.false_or, getLsbD_withErr_of_le _ _ (by omega)]

/-- A command that raises no fault leaves FCMD and every bit of STATUS but ERR. -/
theorem exec_takeFault_or_keeps {i : Instr} {s t : State} (h : exec i s = .next t) :
    (s.faulted = false ∧ ∃ c, t = s.takeFault c (cmdData i)) ∨
    (t.fcmd = s.fcmd ∧ ∀ n, 4 ≤ n → t.status.getLsbD n = s.status.getLsbD n) := by
  obtain ⟨-, rfl⟩ | ⟨-, -, rfl⟩ | ⟨-, -, rfl⟩ | ⟨hf, c, -, rfl⟩ := exec_cases h
  · exact .inr ⟨rfl, fun _ _ => rfl⟩
  · refine .inr ⟨commandBody_fcmd i s, fun n hn => ?_⟩
    rw [State.succeed_status, commandBody_status, getLsbD_withErr_of_le _ _ hn]
  · exact .inr ⟨rfl, fun n hn => getLsbD_withErr_of_le _ _ hn⟩
  · exact .inl ⟨hf, c, rfl⟩

/-! ### The invariant, operation by operation -/

/-- The invariant looks at BUF, the parameters, STATUS and FCMD. -/
theorem State.Inv.congr {s t : State} (hs : s.Inv) (hbuf : t.buf = s.buf) (hparams : t.params = s.params)
    (hstatus : t.status = s.status) (hfcmd : t.fcmd = s.fcmd) : t.Inv := by
  rw [State.Inv, State.faulted, hbuf, hparams, hstatus, hfcmd]
  exact hs

/-- With nothing written in BUF and STATUS and FCMD 0 the invariant holds: the state that a reset leaves. -/
theorem State.inv_of_cleared {s : State} (hbuf : s.buf = []) (hstatus : s.status = 0) (hfcmd : s.fcmd = 0) : s.Inv := by
  rw [State.Inv, hbuf, hstatus]
  exact ⟨rfl, rfl, rfl, fun _ => hfcmd⟩

theorem State.Inv.setByte {s : State} (hs : s.Inv) {a : Nat} (ha : a < s.params.bufLen) (b : Byte) : (s.setByte a b).Inv := by
  obtain ⟨hwf, hwithin, hstatus, hfcmd⟩ := hs
  exact ⟨Memory.wf_insert a b hwf, Memory.within_insert b hwithin ha, hstatus, hfcmd⟩

theorem State.Inv.succeed {s : State} (hs : s.Inv) (hf : s.faulted = false) : s.succeed.Inv := by
  obtain ⟨hwf, hwithin, hstatus, hfcmd⟩ := hs
  exact ⟨hwf, hwithin, legalStatus_succeed hstatus hf, fun _ => hfcmd hf⟩

theorem State.Inv.reportInvalidWidth {s : State} (hs : s.Inv) (hf : s.faulted = false) : s.reportInvalidWidth.Inv := by
  obtain ⟨hwf, hwithin, hstatus, hfcmd⟩ := hs
  exact ⟨hwf, hwithin, legalStatus_invalidWidth hstatus hf, fun _ => hfcmd hf⟩

/-- After the fault entry FCMD is free: the unit is faulted. -/
theorem State.Inv.takeFault {s : State} (hs : s.Inv) (hf : s.faulted = false) (c : FaultCause) (d : Word) :
    (s.takeFault c d).Inv := by
  obtain ⟨hwf, hwithin, hstatus, -⟩ := hs
  refine ⟨hwf, hwithin, legalStatus_takeFault hstatus hf c, fun hf' => ?_⟩
  rw [State.takeFault_faulted] at hf'
  cases hf'

@[simp] theorem commandBody_faulted (i : Instr) (s : State) : (commandBody i s).faulted = s.faulted := by
  rw [State.faulted, commandBody_status, State.faulted]

/-- The writes of a command whose checks pass keep the invariant: BOUNDS keeps them inside BUF. -/
theorem State.Inv.commandBody {s : State} (hs : s.Inv) {i : Instr} (hv : commandVerdict i s = .done) :
    (commandBody i s).Inv := by
  obtain ⟨hwf, hwithin, hstatus, hfcmd⟩ := hs
  rw [State.Inv, commandBody_params, commandBody_status, commandBody_faulted, commandBody_fcmd]
  exact ⟨commandBody_wf i hwf, commandBody_within hv hwithin, hstatus, hfcmd⟩

theorem exec_inv {i : Instr} {s t : State} (hs : s.Inv) (h : exec i s = .next t) : t.Inv := by
  obtain ⟨-, rfl⟩ | ⟨hf, hv, rfl⟩ | ⟨hf, -, rfl⟩ | ⟨hf, c, -, rfl⟩ := exec_cases h
  · exact hs
  · exact (hs.commandBody hv).succeed (by rw [commandBody_faulted, hf])
  · exact hs.reportInvalidWidth hf
  · exact hs.takeFault hf c _

theorem issue_inv {d : Word} {s t : State} (hs : s.Inv) (hf : s.faulted = false) (h : issue d s = .next t) : t.Inv := by
  obtain ⟨i, -, hexec⟩ | ⟨why, -, rfl⟩ := issue_cases h
  · exact exec_inv hs hexec
  · exact hs.takeFault hf .illegalCmd d

/-- A transaction keeps the invariant where a `bwr` writes inside BUF. -/
theorem perform_inv {x : Txn} {s t : State} (hs : s.Inv) (hbwr : ∀ a b, x = .bwr a b → a < s.params.bufLen)
    (h : perform x s = .next t) : t.Inv := by
  obtain ⟨y, rfl⟩ | ⟨-, rfl⟩ | ⟨-, r, v, -, -, rfl⟩ | ⟨hf, d, -, hissue⟩ | ⟨-, a, b, hx, rfl⟩ | ⟨-, rfl⟩ := perform_cases h
  · exact hs
  · exact hs
  · exact hs.congr (s.regWrite_buf r v) (s.regWrite_params r v) (s.regWrite_status r v) (s.regWrite_fcmd r v)
  · exact issue_inv hs hf hissue
  · exact hs.setByte (hbwr a b hx) b
  · exact State.inv_of_cleared rfl rfl rfl

/-- Settles O51: a step waits or performs one transaction, and a `bwr` of a well-formed program writes inside BUF (rule R197). -/
theorem invariantKept : Obligations.InvariantKept := by
  intro s t hs h
  obtain ⟨-, rfl⟩ | ⟨op, rest, x, -, -, hx, hperform⟩ := step_cases h
  · exact hs
  · have hrest : State.Inv { s with program := rest } := hs
    refine perform_inv hrest (fun a b hbwr => ?_) hperform
    subst hbwr
    exact resolve_bwr_lt hx

/-- Settles O52: power-on leaves BUF unwritten and STATUS and FCMD 0, so there is no fault to explain. -/
theorem invariantAtPowerOn : Obligations.InvariantAtPowerOn :=
  ⟨State.inv_of_cleared rfl rfl rfl, fun hfaulted => nomatch hfaulted⟩

/-! ### What a command leaves alone (rule R35) -/

/-- All that the end of a command writes: STATUS and FCMD. -/
def State.withEnd (s : State) (st fc : Word) : State :=
  { s with status := st, fcmd := fc }

theorem State.succeed_eq_withEnd (s : State) : s.succeed = s.withEnd (withErr s.status errOk) s.fcmd := rfl

theorem State.reportInvalidWidth_eq_withEnd (s : State) :
    s.reportInvalidWidth = s.withEnd (withErr s.status errInvalidWidth) s.fcmd := rfl

theorem State.takeFault_eq_withEnd (s : State) (c : FaultCause) (d : Word) :
    s.takeFault c d = s.withEnd (withFcause (withFault (withErr s.status errFaulted)) c.code) d := rfl

/-- What neither the end of a command (STATUS, FCMD) nor the writes of its row touch is as it was, however the command ends. -/
theorem exec_keeps {α : Type} {i : Instr} {s t : State} (h : exec i s = .next t) (f : State → α)
    (hends : ∀ u st fc, f (u.withEnd st fc) = f u)
    (hbody : commandVerdict i s = .done → f (commandBody i s) = f s) : f t = f s := by
  obtain ⟨-, rfl⟩ | ⟨-, hv, rfl⟩ | ⟨-, -, rfl⟩ | ⟨-, c, -, rfl⟩ := exec_cases h
  · rfl
  · exact (hends _ _ _).trans (hbody hv)
  · exact hends _ _ _
  · exact hends _ _ _

@[simp] theorem packField_val (w : Nat) (s : State) : (packField w s).val = s.val := by rw [packField_eq]
@[simp] theorem packField_blk (w : Nat) (s : State) : (packField w s).blk = s.blk := by rw [packField_eq]
@[simp] theorem packWindow_val (w : Nat) (s : State) : (packWindow w s).val = s.val := by rw [packWindow_eq]
@[simp] theorem packWindow_cur (w : Nat) (s : State) : (packWindow w s).cur = s.cur := by rw [packWindow_eq]
@[simp] theorem packWindow_blk (w : Nat) (s : State) : (packWindow w s).blk = s.blk := by rw [packWindow_eq]

/-- PACKBITS leaves the bytes that hold no bit of its field (20_memory.md rule R58). -/
theorem byte_packField_outside {w : Nat} (hw : 1 ≤ w) (s : State) {a : Nat}
    (ha : a < s.cur.toNat / 8 ∨ (s.cur.toNat + w - 1) / 8 < a) : (packField w s).byte a = s.byte a := by
  refine State.byte_streamOr_outside s s.cur.toNat w s.val.toNat a ?_
  unfold touchedCount
  omega

/-- PACKBLK leaves the bytes outside its window. -/
theorem byte_packWindow_outside {w : Nat} (hw : 1 ≤ w) (s : State) {a : Nat}
    (ha : a < s.base.toNat ∨ s.base.toNat + w ≤ a) : (packWindow w s).byte a = s.byte a := by
  refine State.byte_streamOr_outside s _ _ _ a ?_
  unfold touchedCount
  omega

/-- Settles O25: the fields that no command writes, then STATUS and FCMD, then the row of each command. -/
theorem commandFrame : Obligations.CommandFrame := by
  intro i s t h
  refine ⟨⟨?base, exec_params h, ?resets, ?program, ?trace⟩, ?unfaulted, ?reserved, ?row⟩
  case base => exact exec_keeps h (·.base) (fun _ _ _ => rfl) (fun _ => commandBody_base i s)
  case resets => exact exec_keeps h (·.resets) (fun _ _ _ => rfl) (fun _ => commandBody_resets i s)
  case program => exact exec_keeps h (·.program) (fun _ _ _ => rfl) (fun _ => commandBody_program i s)
  case trace => exact exec_keeps h (·.trace) (fun _ _ _ => rfl) (fun _ => commandBody_trace i s)
  case unfaulted =>
    intro hsame
    obtain ⟨hf, c, rfl⟩ | hkeeps := exec_takeFault_or_keeps h
    · rw [State.takeFault_faulted, hf] at hsame
      cases hsame
    · exact hkeeps
  case reserved =>
    intro n hn
    obtain ⟨-, c, rfl⟩ | ⟨-, hbits⟩ := exec_takeFault_or_keeps h
    · exact s.getLsbD_takeFault_status c _ hn
    · exact hbits n (by omega)
  case row =>
    cases i with
    | packbits w =>
      exact ⟨exec_keeps h (·.val) (fun _ _ _ => rfl) (fun _ => packField_val w.toNat s),
        exec_keeps h (·.blk) (fun _ _ _ => rfl) (fun _ => packField_blk w.toNat s),
        fun a ha => exec_keeps h (·.byte a) (fun _ _ _ => rfl)
          (fun hv => byte_packField_outside (commandVerdict_done_width hv).1 s ha)⟩
    | unpackbits w =>
      exact ⟨exec_keeps h (·.blk) (fun _ _ _ => rfl) (fun _ => rfl),
        exec_keeps h (·.buf) (fun _ _ _ => rfl) (fun _ => rfl)⟩
    | packblk w =>
      exact ⟨exec_keeps h (·.val) (fun _ _ _ => rfl) (fun _ => packWindow_val w.toNat s),
        exec_keeps h (·.cur) (fun _ _ _ => rfl) (fun _ => packWindow_cur w.toNat s),
        exec_keeps h (·.blk) (fun _ _ _ => rfl) (fun _ => packWindow_blk w.toNat s),
        fun a ha => exec_keeps h (·.byte a) (fun _ _ _ => rfl)
          (fun hv => byte_packWindow_outside (commandVerdict_done_width hv).1 s ha)⟩
    | unpackblk w =>
      exact ⟨exec_keeps h (·.val) (fun _ _ _ => rfl) (fun _ => rfl),
        exec_keeps h (·.cur) (fun _ _ _ => rfl) (fun _ => rfl),
        exec_keeps h (·.buf) (fun _ _ _ => rfl) (fun _ => rfl)⟩

/-! ### What a command does not read (rules R35 and R72) -/

/-- Other contents for what the cursor commands leave out: BASE, BLK and the host's side. -/
def State.withBlockSide (s : State) (b : Word) (k : Vector Word 8) (p : List HostOp) (r : List Returned) : State :=
  { s with base := b, blk := k, program := p, trace := r }

/-- Other contents for what the block commands leave out: VAL, CUR and the host's side. -/
def State.withCursorSide (s : State) (v c : Word) (p : List HostOp) (r : List Returned) : State :=
  { s with val := v, cur := c, program := p, trace := r }

/-- The bytes that `orBytes` leaves depend on the bytes of BUF alone. -/
theorem State.orBytes_buf_congr {s t : State} (hb : s.buf = t.buf) (hr : s.resets = t.resets) (a n : Nat) (f : Nat → Byte) :
    (s.orBytes a n f).buf = (t.orBytes a n f).buf := by
  induction n generalizing s t a with
  | zero => exact hb
  | succ n ih =>
    refine ih (s := s.orByte a (f a)) (t := t.orByte a (f a)) ?_ hr (a + 1)
    rw [State.orByte, State.orByte, State.setByte_buf, State.setByte_buf, State.byte_congr hb hr, hb]

theorem State.streamOr_buf_congr {s t : State} (hb : s.buf = t.buf) (hr : s.resets = t.resets) (p w v : Nat) :
    (s.streamOr p w v).buf = (t.streamOr p w v).buf :=
  State.orBytes_buf_congr hb hr _ _ _

theorem State.streamRead_buf_congr {s t : State} (hb : s.buf = t.buf) (hr : s.resets = t.resets) (p w : Nat) :
    s.streamRead p w = t.streamRead p w :=
  State.streamRead_congr fun _ _ => State.streamBit_congr hb hr _

theorem State.memRead_buf_congr {s t : State} (hb : s.buf = t.buf) (hr : s.resets = t.resets) (a n : Nat) :
    s.memRead a n = t.memRead a n := by
  rw [State.memRead_eq_streamRead, State.memRead_eq_streamRead, State.streamRead_buf_congr hb hr]

/-- A change `g` of the state that leaves STATUS and FCMD, and commutes with writes of them, commutes with the end of a command. -/
theorem command_comm (g : State → State) (hstatus : ∀ u, (g u).status = u.status) (hfcmd : ∀ u, (g u).fcmd = u.fcmd)
    (hends : ∀ u st fc, g (u.withEnd st fc) = (g u).withEnd st fc)
    (s : State) (d : Word) (v : Verdict) (body : State) :
    (g s).command d v (g body) = g (s.command d v body) := by
  have hf : (g s).faulted = s.faulted := by rw [State.faulted, hstatus, State.faulted]
  rw [State.command, State.command, hf]
  split
  · rfl
  · cases v with
    | done => simp only [State.conclude, State.succeed_eq_withEnd, hends, hstatus, hfcmd]
    | invalidWidth => simp only [State.conclude, State.reportInvalidWidth_eq_withEnd, hends, hstatus, hfcmd]
    | fault c => simp only [State.conclude, State.takeFault_eq_withEnd, hends, hstatus]

/-- A change `g` of the state that the checks do not see, and that commutes with the writes and with the end of a command, commutes with
the command. -/
theorem exec_comm {i : Instr} {s : State} (g : State → State) (hverdict : commandVerdict i (g s) = commandVerdict i s)
    (hbody : commandBody i (g s) = g (commandBody i s))
    (hend : ∀ d v body, (g s).command d v (g body) = g (s.command d v body)) :
    ∃ t, exec i s = .next t ∧ exec i (g s) = .next (g t) :=
  ⟨_, exec_eq i s, by rw [exec_eq, hverdict, hbody, hend]⟩

section BlockSide

variable (s : State) (b : Word) (k : Vector Word 8) (p : List HostOp) (r : List Returned)

theorem command_withBlockSide (d : Word) (v : Verdict) (body : State) :
    (s.withBlockSide b k p r).command d v (body.withBlockSide b k p r) = (s.command d v body).withBlockSide b k p r :=
  command_comm (·.withBlockSide b k p r) (fun _ => rfl) (fun _ => rfl) (fun _ _ _ => rfl) s d v body

theorem packField_withBlockSide (w : Nat) :
    packField w (s.withBlockSide b k p r) = (packField w s).withBlockSide b k p r := by
  have hbuf := State.streamOr_buf_congr (s := s.withBlockSide b k p r) (t := s) rfl rfl s.cur.toNat w s.val.toNat
  simp only [packField]
  rw [State.streamOr_eq, State.streamOr_eq s]
  simp only [State.withBlockSide] at hbuf ⊢
  rw [hbuf]

theorem unpackField_withBlockSide (w : Nat) :
    unpackField w (s.withBlockSide b k p r) = (unpackField w s).withBlockSide b k p r := by
  have hread := State.streamRead_buf_congr (s := s.withBlockSide b k p r) (t := s) rfl rfl s.cur.toNat w
  simp only [unpackField, State.withBlockSide] at hread ⊢
  simp only [hread]

end BlockSide

section CursorSide

variable (s : State) (v c : Word) (p : List HostOp) (r : List Returned)

theorem command_withCursorSide (d : Word) (e : Verdict) (body : State) :
    (s.withCursorSide v c p r).command d e (body.withCursorSide v c p r) = (s.command d e body).withCursorSide v c p r :=
  command_comm (·.withCursorSide v c p r) (fun _ => rfl) (fun _ => rfl) (fun _ _ _ => rfl) s d e body

theorem packWindow_withCursorSide (w : Nat) :
    packWindow w (s.withCursorSide v c p r) = (packWindow w s).withCursorSide v c p r := by
  have hbuf := State.streamOr_buf_congr (s := s.withCursorSide v c p r) (t := s) rfl rfl (8 * s.base.toNat) (8 * w)
    (concatLanes w s.lanes)
  simp only [packWindow]
  rw [State.streamOr_eq, State.streamOr_eq s]
  simp only [State.withCursorSide, State.lanes] at hbuf ⊢
  rw [hbuf]

theorem unpackWindow_withCursorSide (w : Nat) :
    unpackWindow w (s.withCursorSide v c p r) = (unpackWindow w s).withCursorSide v c p r := by
  have hread := State.memRead_buf_congr (s := s.withCursorSide v c p r) (t := s) rfl rfl s.base.toNat w
  simp only [unpackWindow, State.withCursorSide] at hread ⊢
  simp only [hread]

end CursorSide

/-- The new VAL is the field that is read, whatever the old one. -/
theorem unpackField_ignores_val (w : Nat) (s : State) (v : Word) : unpackField w { s with val := v } = unpackField w s := by
  have hread := State.streamRead_buf_congr (s := { s with val := v }) (t := s) rfl rfl s.cur.toNat w
  simp only [unpackField, hread]

/-- The new lanes are the slices of the window, whatever the old ones. -/
theorem unpackWindow_ignores_blk (w : Nat) (s : State) (k : Vector Word 8) :
    unpackWindow w { s with blk := k } = unpackWindow w s := by
  have hread := State.memRead_buf_congr (s := { s with blk := k }) (t := s) rfl rfl s.base.toNat w
  simp only [unpackWindow, hread]

/-- Settles O26: the change commutes with checks, writes and end; an unpack that completes overwrites the register it fills. -/
theorem commandsReadOnlyTheirOperands : Obligations.CommandsReadOnlyTheirOperands := by
  intro w s v c b k p r
  refine ⟨?packbits, ?unpackbits, ?packblk, ?unpackblk, ?oldVal, ?oldBlk⟩
  case packbits =>
    exact exec_comm (·.withBlockSide b k p r) rfl (packField_withBlockSide s b k p r _) (command_withBlockSide s b k p r)
  case unpackbits =>
    exact exec_comm (·.withBlockSide b k p r) rfl (unpackField_withBlockSide s b k p r _) (command_withBlockSide s b k p r)
  case packblk =>
    exact exec_comm (·.withCursorSide v c p r) rfl (packWindow_withCursorSide s v c p r _) (command_withCursorSide s v c p r)
  case unpackblk =>
    exact exec_comm (·.withCursorSide v c p r) rfl (unpackWindow_withCursorSide s v c p r _)
      (command_withCursorSide s v c p r)
  case oldVal =>
    intro hf hfits
    have hdone : commandVerdict (.unpackbits w) s = .done := (unpackbitsVerdict_iff_fits _ _).mpr hfits
    rw [exec_done hf hdone, exec_done (s := { s with val := v }) hf hdone]
    simp only [commandBody, unpackField_ignores_val]
  case oldBlk =>
    intro hf hfits
    have hdone : commandVerdict (.unpackblk w) s = .done := (unpackblkVerdict_iff_fits _ _).mpr hfits
    rw [exec_done hf hdone, exec_done (s := { s with blk := k }) hf hdone]
    simp only [commandBody, unpackWindow_ignores_blk]

end Sys2Proof.Machine

/-! PROOFS. The statements of 20_memory.md: the bytes of a field, the byte order of BUF, and that packs only set bits and unpacks only
read; with the lemmas about `streamOr`, about an executed pack and about a repeated command that they rest on. -/

namespace Sys2Proof.Machine

/-! ### The bytes of a field (rule R58) -/

theorem touchedCount_end (p : Nat) {w : Nat} (hw : 1 ≤ w) : p / 8 + touchedCount p w = (p + w - 1) / 8 + 1 := by
  unfold touchedCount
  omega

theorem touchedCount_pos (p w : Nat) : 1 ≤ touchedCount p w :=
  Nat.succ_pos _

theorem touchedCount_le_nine (p : Nat) {w : Nat} (hw : w ≤ 63) : touchedCount p w ≤ 9 := by
  unfold touchedCount
  omega

theorem touchedCount_eq_nine_iff (p : Nat) {w : Nat} (hw : w ≤ 63) : touchedCount p w = 9 ↔ 65 ≤ p % 8 + w := by
  unfold touchedCount
  omega

/-- Settles O27: the four parts are the facts about `touchedCount` above. -/
theorem touchedBytes : Obligations.TouchedBytes :=
  fun p _ hpos hmax =>
    ⟨touchedCount_end p hpos, touchedCount_pos p _, touchedCount_le_nine p hmax, touchedCount_eq_nine_iff p hmax⟩

/-! ### What `streamOr` leaves in the stream (rule R15) -/

theorem State.streamBit_streamOr_of_set (s : State) (p v : Nat) {w q : Nat} (hw : 0 < w) (hq : s.streamBit q = true) :
    (s.streamOr p w v).streamBit q = true := by
  rw [State.streamBit_streamOr s p v q hw, hq, Bool.true_or]

theorem State.streamBit_streamOr_outside (s : State) (p v : Nat) {w q : Nat} (hw : 0 < w) (hq : q < p ∨ p + w ≤ q) :
    (s.streamOr p w v).streamBit q = s.streamBit q := by
  have hfield : (decide (p ≤ q) && decide (q < p + w)) = false := by
    rw [← Bool.decide_and]
    exact decide_eq_false (by omega)
  rw [State.streamBit_streamOr s p v q hw, hfield, Bool.false_and, Bool.or_false]

/-- A bit of the value that is 1 is a 1 in the field. -/
theorem State.streamBit_streamOr_of_testBit (s : State) (p : Nat) {w v i : Nat} (hi : i < w) (hv : v.testBit i = true) :
    (s.streamOr p w v).streamBit (p + w - 1 - i) = true := by
  rw [State.streamBit_streamOr s p v _ (by omega), show p + w - 1 - (p + w - 1 - i) = i by omega, hv,
    decide_eq_true (by omega), decide_eq_true (by omega)]
  simp

/-- A field of zero bits holds, after `streamOr`, the value ORed in. -/
theorem State.streamRead_streamOr_of_zero (s : State) (p : Nat) {w v : Nat} (hw : 0 < w) (hv : v < 2 ^ w)
    (hzero : ∀ q, p ≤ q → q < p + w → s.streamBit q = false) : (s.streamOr p w v).streamRead p w = v := by
  apply Nat.eq_of_testBit_eq
  intro i
  rw [State.testBit_streamRead]
  by_cases hi : i < w
  · rw [State.streamBit_streamOr s p v _ hw, hzero _ (by omega) (by omega),
      show p + w - 1 - (p + w - 1 - i) = i by omega, decide_eq_true hi, decide_eq_true (by omega), decide_eq_true (by omega)]
    simp
  · have hpow : 2 ^ w ≤ 2 ^ i := Nat.pow_le_pow_right (by omega) (by omega)
    rw [decide_eq_false hi, Bool.false_and, Nat.testBit_lt_two_pow (by omega)]

theorem packField_streamBit (w : Nat) (s : State) (q : Nat) :
    (packField w s).streamBit q = (s.streamOr s.cur.toNat w s.val.toNat).streamBit q :=
  State.streamBit_congr rfl rfl q

/-! ### The byte order of BUF (rules R51, R53) -/

/-- Byte `k` of the `n` bytes that MemRead joins is the one `n-1-k` bytes above the least significant. -/
theorem State.byte_eq_of_memRead (s : State) (a : Nat) {n k : Nat} (hk : k < n) :
    s.byte (a + k) = BitVec.ofNat 8 (s.memRead a n / 2 ^ (8 * (n - 1 - k))) := by
  apply BitVec.eq_of_getLsbD_eq
  intro j hj
  have hbyte := State.streamBit_of_byte s (a + k) (show 7 - j < 8 by omega)
  rw [show 7 - (7 - j) = j by omega] at hbyte
  rw [BitVec.getLsbD_ofNat, Nat.testBit_div_two_pow, State.memRead_eq_streamRead, State.testBit_streamRead, ← hbyte,
    decide_eq_true hj, decide_eq_true (by omega),
    show 8 * a + 8 * n - 1 - (j + 8 * (n - 1 - k)) = 8 * (a + k) + (7 - j) by omega]
  simp

/-- Settles O11: the aligned field is read back as MemRead, and the bytes are those of MemRead. -/
theorem alignedFieldIsBigEndian : Obligations.AlignedFieldIsBigEndian := by
  intro w m a s hf hfits hwidth hcur hzero
  have ⟨⟨hpos, _⟩, _, hval, _⟩ := hfits
  have hclean : ∀ q, 8 * a ≤ q → q < 8 * a + 8 * m → s.streamBit q = false :=
    (State.streamZero_iff _ _ _).mp <| (State.streamZero_bytes_iff s a m).mpr fun x hx hx' => by
      have := hzero (x - a) (by omega)
      rwa [show a + (x - a) = x by omega] at this
  have hread : (packField w.toNat s).succeed.memRead a m = s.val.toNat := by
    calc (packField w.toNat s).succeed.memRead a m
        = (s.streamOr s.cur.toNat w.toNat s.val.toNat).memRead a m :=
          State.memRead_buf_congr (s := (packField w.toNat s).succeed) (t := s.streamOr s.cur.toNat w.toNat s.val.toNat) rfl rfl a m
      _ = (s.streamOr (8 * a) (8 * m) s.val.toNat).streamRead (8 * a) (8 * m) := by
          rw [State.memRead_eq_streamRead, hcur, hwidth]
      _ = s.val.toNat := State.streamRead_streamOr_of_zero s (8 * a) (by omega) (hwidth ▸ hval) hclean
  refine ⟨_, exec_done hf ((packbitsVerdict_iff_fits _ _).mpr hfits), hread, fun k hk => ?_⟩
  rw [← hread]
  exact State.byte_eq_of_memRead _ a hk

/-! ### A read leaves BUF, a pack sets bits of its field and no others (rule R59) -/

theorem State.byte_returns (s : State) (y : Returned) (x : Nat) : (s.returns y).byte x = s.byte x := rfl

/-- A command whose writes are `StreamOr(p, w, v)` clears no stream bit and changes none outside the field, however it ends. -/
theorem exec_only_sets {i : Instr} {s t : State} {p w v : Nat} (h : exec i s = .next t)
    (hw : commandVerdict i s = .done → 0 < w)
    (hbody : ∀ q, (commandBody i s).streamBit q = (s.streamOr p w v).streamBit q) (q : Nat) :
    (s.streamBit q = true → t.streamBit q = true) ∧ (q < p ∨ p + w ≤ q → t.streamBit q = s.streamBit q) := by
  have hkeeps := exec_keeps h (·.streamBit q) (fun _ _ _ => rfl)
  constructor
  · intro hq
    refine (hkeeps fun hv => ?_).trans hq
    exact (hbody q).trans ((State.streamBit_streamOr_of_set s p v (hw hv) hq).trans hq.symm)
  · intro hq
    exact hkeeps fun hv => (hbody q).trans (State.streamBit_streamOr_outside s p v (hw hv) hq)

/-! ### A command repeated (rule R59) -/

@[simp] theorem withErr_withErr (st : Word) (e e' : BitVec 4) : withErr (withErr st e) e' = withErr st e' := by
  apply BitVec.eq_of_getLsbD_eq
  intro i _
  simp only [getLsbD_withErr]
  split <;> rfl

/-- Where a command does not complete it writes STATUS and FCMD at most, and the same command again changes nothing. -/
theorem exec_again_or_done {i : Instr} {s t : State} (h : exec i s = .next t) :
    ((∃ st fc, t = s.withEnd st fc) ∧ exec i t = .next t) ∨
    (s.faulted = false ∧ commandVerdict i s = .done ∧ t = (commandBody i s).succeed) := by
  obtain ⟨hf, rfl⟩ | hdone | ⟨hf, hv, rfl⟩ | ⟨-, c, -, rfl⟩ := exec_cases h
  · exact .inl ⟨⟨_, _, rfl⟩, h⟩
  · exact .inr hdone
  · refine .inl ⟨⟨_, _, s.reportInvalidWidth_eq_withEnd⟩, ?_⟩
    have hv' : commandVerdict i s.reportInvalidWidth = .invalidWidth :=
      (commandVerdict_congr i rfl rfl rfl rfl rfl rfl rfl).trans hv
    rw [exec_invalidWidth (by rw [State.reportInvalidWidth_faulted, hf]) hv']
    simp only [State.reportInvalidWidth, withErr_withErr]
  · exact .inl ⟨⟨_, _, s.takeFault_eq_withEnd c _⟩, exec_faulted (s.takeFault_faulted c _) i⟩

/-- The field read again from where it was read. -/
theorem unpackField_again (w : Nat) (s : State) :
    (unpackField w { (unpackField w s).succeed with cur := s.cur }).succeed = (unpackField w s).succeed := by
  have hread := State.streamRead_buf_congr (s := { (unpackField w s).succeed with cur := s.cur }) (t := s) rfl rfl s.cur.toNat w
  simp only [unpackField, State.succeed, withErr_withErr] at hread ⊢
  simp only [hread]

/-- The window read again: UNPACKBLK leaves BASE. -/
theorem unpackWindow_again (w : Nat) (s : State) :
    (unpackWindow w (unpackWindow w s).succeed).succeed = (unpackWindow w s).succeed := by
  have hread := State.memRead_buf_congr (s := (unpackWindow w s).succeed) (t := s) rfl rfl s.base.toNat w
  simp only [unpackWindow, State.succeed, withErr_withErr] at hread ⊢
  simp only [hread]

theorem unpackbits_again {w : BitVec 8} {s t : State} (h : exec (.unpackbits w) s = .next t) :
    exec (.unpackbits w) { t with cur := s.cur } = .next t := by
  obtain ⟨⟨_, _, rfl⟩, hagain⟩ | ⟨hf, hv, rfl⟩ := exec_again_or_done h
  · exact hagain
  · have hready : ({ (unpackField w.toNat s).succeed with cur := s.cur } : State).faulted = false :=
      (State.succeed_faulted (unpackField w.toNat s)).trans hf
    have hfits : s.UnpackbitsFits w.toNat := (unpackbitsVerdict_iff_fits _ _).mp hv
    have hagain := exec_done (i := .unpackbits w) hready ((unpackbitsVerdict_iff_fits _ _).mpr hfits)
    exact hagain.trans (congrArg _ (unpackField_again w.toNat s))

theorem unpackblk_again {w : BitVec 8} {s t : State} (h : exec (.unpackblk w) s = .next t) :
    exec (.unpackblk w) t = .next t := by
  obtain ⟨-, hagain⟩ | ⟨hf, hv, rfl⟩ := exec_again_or_done h
  · exact hagain
  · have hready : (unpackWindow w.toNat s).succeed.faulted = false :=
      (State.succeed_faulted (unpackWindow w.toNat s)).trans hf
    have hfits : s.UnpackblkFits w.toNat := (unpackblkVerdict_iff_fits _ _).mp hv
    have hagain := exec_done (i := .unpackblk w) hready ((unpackblkVerdict_iff_fits _ _).mpr hfits)
    exact hagain.trans (congrArg _ (unpackWindow_again w.toNat s))

/-! ### A pack repeated onto its own bits (rules R104, R134) -/

theorem dirty_of_streamBit {s : State} {p n q : Nat} (hmode : s.params.dirtyMode = .fault) (hq : s.streamBit q = true)
    (hp : p ≤ q) (hn : q < p + n) : dirty s p n = true := by
  rw [← Bool.not_eq_false, dirty_eq_false_iff]
  intro hclean
  rw [hclean hmode q hp hn] at hq
  cases hq

/-- DIRTY_TARGET is the last check of PACKBITS (rule R216). -/
theorem packbitsVerdict_of_dirty {w : Nat} {s : State} (hw : 1 ≤ w ∧ w ≤ 63) (hbounds : s.cur.toNat + w ≤ 8 * s.params.bufLen)
    (hval : s.val.toNat < 2 ^ w) (hdirty : dirty s s.cur.toNat (targetLength s.cur.toNat w) = true) :
    packbitsVerdict w s = .fault .dirtyTarget := by
  simp [packbitsVerdict, (widthOk_iff w).mpr hw, cursorOutside, tooWide, hdirty, Nat.not_lt.mpr hbounds, Nat.not_le.mpr hval]

/-- DIRTY_TARGET is the last check of PACKBLK (rule R216). -/
theorem packblkVerdict_of_dirty {w : Nat} {s : State} (hw : 1 ≤ w ∧ w ≤ 63) (hbounds : s.base.toNat + w ≤ s.params.bufLen)
    (hlanes : ∀ v ∈ s.lanes, v.toNat < 2 ^ w) (hdirty : dirty s (8 * s.base.toNat) (8 * w) = true) :
    packblkVerdict w s = .fault .dirtyTarget := by
  simpa [packblkVerdict, (widthOk_iff w).mpr hw, windowOutside, tooWide, hdirty, Nat.not_lt.mpr hbounds] using hlanes

/-- A non-zero value of `w` bits has a 1 among its low `w` bits. -/
theorem exists_testBit_of_lt_two_pow {v w : Nat} (hne : v ≠ 0) (hv : v < 2 ^ w) : ∃ i < w, v.testBit i = true := by
  obtain ⟨i, hi⟩ := Nat.exists_testBit_of_ne_zero hne
  exact ⟨i, (Nat.pow_lt_pow_iff_right (by decide)).mp ((Nat.ge_two_pow_of_testBit hi).trans_lt hv), hi⟩

/-- A non-zero value among those joined puts a 1 into the concatenation. -/
theorem exists_testBit_concatLanes {w : Nat} {vs : List Word} {v : Word} (hmem : v ∈ vs) (hne : v ≠ 0) (hv : v.toNat < 2 ^ w) :
    ∃ i < vs.length * w, (concatLanes w vs).testBit i = true := by
  obtain ⟨k, hk, hbit⟩ := exists_testBit_of_lt_two_pow (BitVec.toNat_ne.mp hne) hv
  obtain ⟨j, hj, rfl⟩ := List.getElem_of_mem hmem
  have hpos : 0 < w := by omega
  have hdiv : ((vs.length - 1 - j) * w + k) / w = vs.length - 1 - j := by
    rw [Nat.mul_comm, Nat.mul_add_div hpos, Nat.div_eq_of_lt hk, Nat.add_zero]
  have hmod : ((vs.length - 1 - j) * w + k) % w = k := by
    rw [Nat.mul_comm, Nat.mul_add_mod, Nat.mod_eq_of_lt hk]
  have hlt : (vs.length - 1 - j) * w + k < vs.length * w := (Nat.div_lt_iff_lt_mul hpos).mp (by omega)
  refine ⟨_, hlt, ?_⟩
  rw [testBit_concatLanes hpos, hdiv, hmod, decide_eq_true hlt, show vs.length - 1 - (vs.length - 1 - j) = j by omega,
    List.getD_eq_getElem _ _ hj, hbit]
  rfl

@[simp] theorem packField_params (w : Nat) (s : State) : (packField w s).params = s.params := by rw [packField_eq]
@[simp] theorem packWindow_params (w : Nat) (s : State) : (packWindow w s).params = s.params := by rw [packWindow_eq]
@[simp] theorem packWindow_base (w : Nat) (s : State) : (packWindow w s).base = s.base := by rw [packWindow_eq]

/-- Back at its old CUR, a PACKBITS of a non-zero value finds the bits it has set. -/
theorem packbitsVerdict_again {w : Nat} {s : State} (hmode : s.params.dirtyMode = .fault) (hfits : s.PackbitsFits w)
    (hne : s.val ≠ 0) : packbitsVerdict w { (packField w s).succeed with cur := s.cur } = .fault .dirtyTarget := by
  obtain ⟨hw, hbounds, hval, -⟩ := hfits
  obtain ⟨i, hi, hbit⟩ := exists_testBit_of_lt_two_pow (BitVec.toNat_ne.mp hne) hval
  have hset : (packField w s).streamBit (s.cur.toNat + w - 1 - i) = true := by
    rw [packField_streamBit, State.streamBit_streamOr_of_testBit s _ hi hbit]
  have hlast : s.cur.toNat + w - 1 - i < s.cur.toNat + targetLength s.cur.toNat w := by
    rw [target_end s.cur.toNat hw.1]
    omega
  rw [← packField_params w s] at hmode hbounds
  rw [← packField_val w s] at hval
  exact packbitsVerdict_of_dirty (s := { (packField w s).succeed with cur := s.cur }) hw hbounds hval
    (dirty_of_streamBit hmode hset (show s.cur.toNat ≤ _ by omega) hlast)

/-- A PACKBLK of lanes that are not all 0 finds the bits it has set. -/
theorem packblkVerdict_again {w : Nat} {s : State} (hmode : s.params.dirtyMode = .fault) (hfits : s.PackblkFits w)
    {j : Fin 8} (hne : s.blk[j] ≠ 0) : packblkVerdict w (packWindow w s).succeed = .fault .dirtyTarget := by
  obtain ⟨hw, hbounds, hlanes, -⟩ := hfits
  have hmem : s.blk[j] ∈ s.lanes := by simp [State.lanes]
  obtain ⟨i, hi, hbit⟩ := exists_testBit_concatLanes hmem hne (hlanes _ hmem)
  rw [State.lanes, Vector.length_toList] at hi
  have hset : (packWindow w s).streamBit (8 * s.base.toNat + 8 * w - 1 - i) = true :=
    State.streamBit_streamOr_of_testBit s _ hi hbit
  rw [← packWindow_params w s] at hmode hbounds
  rw [← packWindow_base w s] at hbounds hset
  rw [← packWindow_blk w s] at hlanes
  exact packblkVerdict_of_dirty (s := (packWindow w s).succeed) hw hbounds hlanes
    (dirty_of_streamBit hmode hset (by rw [State.succeed_base]; omega) (by rw [State.succeed_base]; omega))

/-- Settles O28: reads and unpacks leave BUF, packs are `streamOr`, an unpack repeated reads the same bits, and a pack repeated finds its
own. -/
theorem packOnlySetsUnpackOnlyReads : Obligations.PackOnlySetsUnpackOnlyReads := by
  refine ⟨?reads, ?unpacks, ?packs, ?unpackAgain, ?packAgain⟩
  case reads =>
    intro r a s t h x
    obtain h | h := h <;> cases h <;> exact State.byte_returns s _ x
  case unpacks =>
    intro w s t h x
    obtain h | h := h <;> exact exec_keeps h (·.byte x) (fun _ _ _ => rfl) (fun _ => rfl)
  case packs =>
    intro w s t q
    constructor
    · intro h
      exact exec_only_sets h (fun hv => (commandVerdict_done_width hv).1) (packField_streamBit w.toNat s) q
    · intro h
      exact exec_only_sets (w := 8 * w.toNat) h (fun hv => Nat.mul_pos (by decide) (commandVerdict_done_width hv).1)
        (fun _ => rfl) q
  case unpackAgain => exact fun w s t => ⟨unpackbits_again, unpackblk_again⟩
  case packAgain =>
    intro w s hf hmode
    constructor
    · intro hfits hne
      have hready : ({ (packField w.toNat s).succeed with cur := s.cur } : State).faulted = false :=
        (State.succeed_faulted _).trans ((commandBody_faulted (.packbits w) s).trans hf)
      exact ⟨_, _, exec_done hf ((packbitsVerdict_iff_fits _ _).mpr hfits),
        exec_fault hready (packbitsVerdict_again hmode hfits hne), State.takeFault_faulted .., State.takeFault_fcause ..⟩
    · intro hfits ⟨j, hne⟩
      have hready : (packWindow w.toNat s).succeed.faulted = false :=
        (State.succeed_faulted _).trans ((commandBody_faulted (.packblk w) s).trans hf)
      exact ⟨_, _, exec_done hf ((packblkVerdict_iff_fits _ _).mpr hfits),
        exec_fault hready (packblkVerdict_again hmode hfits hne), State.takeFault_faulted .., State.takeFault_fcause ..⟩

end Sys2Proof.Machine

/-! PROOFS. The statements of 30_encoding.md: decoding inverts encoding, what becomes of data and widths that no command takes, and what
the lines of the assembler do; with the lemmas about transactions and about runs of a program that they rest on. -/

namespace Sys2Proof

/-! ### The decoder on any data (rules R70, R74) -/

/-- What the checks of the decoder say of the fields when it answers a command. -/
theorem fields_of_decode_ok {d : Word} {i : Instr} (h : decode d = .ok i) :
    cmdHigh d = 0#32 ∧ cmdRsv d = 0#16 ∧ cmdOpc d = i.opc ∧ cmdW d = i.w := by
  unfold decode at h
  split_ifs at h with hhigh hrsv hopc hopc hopc hopc
  all_goals
    cases h
    exact ⟨not_not.mp hhigh, not_not.mp hrsv, hopc, rfl⟩

/-- The four fields of the data are all of it. -/
theorem eq_cmdData_of_fields {d : Word} {i : Instr} (hhigh : cmdHigh d = 0#32) (hrsv : cmdRsv d = 0#16)
    (hopc : cmdOpc d = i.opc) (hw : cmdW d = i.w) : d = cmdData i := by
  apply BitVec.eq_of_toNat_eq
  rw [toNat_cmdData, ← hopc, ← hw, toNat_cmdOpc, toNat_cmdW]
  have hhigh' : d.toNat / 2 ^ 32 % 2 ^ 32 = 0 := by rw [← toNat_cmdHigh, hhigh, BitVec.toNat_zero]
  have hrsv' : d.toNat % 2 ^ 16 = 0 := by rw [← toNat_cmdRsv, hrsv, BitVec.toNat_zero]
  omega

theorem decode_eq_ok_iff (d : Word) (i : Instr) : decode d = .ok i ↔ d = cmdData i := by
  constructor
  · intro h
    obtain ⟨hhigh, hrsv, hopc, hw⟩ := fields_of_decode_ok h
    exact eq_cmdData_of_fields hhigh hrsv hopc hw
  · rintro rfl
    exact decode_cmdData i

/-- Settles O2: the decoder's checks fix all four fields of the data, and the data of a command passes them. -/
theorem decodeExactlyTheEncodings : Obligations.DecodeExactlyTheEncodings :=
  decode_eq_ok_iff

/-- The data that decodes to a command, as a number. -/
theorem decode_eq_ok_iff_toNat (d : Word) (i : Instr) :
    decode d = .ok i ↔ d.toNat = i.opc.toNat * 2 ^ 24 + i.w.toNat * 2 ^ 16 := by
  rw [decode_eq_ok_iff, ← BitVec.toNat_inj, toNat_cmdData]

theorem Instr.toNat_opc_cases (i : Instr) :
    i.opc.toNat = 0x10 ∨ i.opc.toNat = 0x11 ∨ i.opc.toNat = 0x20 ∨ i.opc.toNat = 0x21 := by
  cases i <;> simp [Instr.opc]

/-- The number that an assembler line writes is the data of its command (rule R78). -/
theorem ofNat_eq_cmdData {i : Instr} {w : Nat} (hw : i.w.toNat = w) :
    BitVec.ofNat 64 (i.opc.toNat * 2 ^ 24 + w * 2 ^ 16) = cmdData i := by
  rw [← hw, ← toNat_cmdData, BitVec.ofNat_toNat, BitVec.setWidth_eq]

end Sys2Proof

namespace Sys2Proof.Machine

/-! ### A CMD write that the unit takes (rules R74, R218) -/

theorem issue_of_decode_ok {d : Word} {i : Instr} (h : decode d = .ok i) (s : State) : issue d s = exec i s := by
  simp only [issue, h]

theorem issue_of_decode_illegal {d : Word} {why : Illegal} (h : decode d = .illegal why) (s : State) :
    issue d s = .next (s.takeFault .illegalCmd d) := by
  simp only [issue, h]

/-- Settles O3: no command's number has the fields of the ILLEGAL data, and all other data is the number of the command its opcode
names. -/
theorem decodeFollowsTheFields : Obligations.DecodeFollowsTheFields := by
  intro d s _ opc w
  have hw : w.toNat = d.toNat / 2 ^ 16 % 2 ^ 8 := by
    rw [BitVec.toNat_ofNat, Nat.mod_mod]
  split
  · cases hd : decode d with
    | illegal why => exact ⟨⟨why, rfl⟩, issue_of_decode_illegal hd s⟩
    | ok i =>
      have hnum := (decode_eq_ok_iff_toNat d i).mp hd
      have hopc := i.toNat_opc_cases
      omega
  · have hnamed (i : Instr) (hopc : i.opc.toNat = opc) (hi : i.w = w) : decode d = .ok i := by
      rw [decode_eq_ok_iff_toNat, hi]
      omega
    split_ifs with h10 h11 h20
    · exact hnamed (.packbits w) h10.symm rfl
    · exact hnamed (.unpackbits w) h11.symm rfl
    · exact hnamed (.packblk w) h20.symm rfl
    · have h21 : opc = 0x21 := by omega
      exact hnamed (.unpackblk w) h21.symm rfl

/-! ### A width that no command takes (rules R75, R102, R130) -/

theorem widthOk_eq_false_iff (w : Nat) : widthOk w = false ↔ w = 0 ∨ 63 < w := by
  rw [← Bool.not_eq_true, widthOk_iff]
  omega

theorem packbitsVerdict_of_bad_width {w : Nat} (hw : widthOk w = false) (s : State) :
    packbitsVerdict w s = .fault .cursorWidth := by
  rw [packbitsVerdict, hw]; rfl

theorem unpackbitsVerdict_of_bad_width {w : Nat} (hw : widthOk w = false) (s : State) :
    unpackbitsVerdict w s = .fault .cursorWidth := by
  rw [unpackbitsVerdict, hw]; rfl

theorem packblkVerdict_of_bad_width {w : Nat} (hw : widthOk w = false) (s : State) :
    packblkVerdict w s = .invalidWidth := by
  rw [packblkVerdict, hw]; rfl

theorem unpackblkVerdict_of_bad_width {w : Nat} (hw : widthOk w = false) (s : State) :
    unpackblkVerdict w s = .invalidWidth := by
  rw [unpackblkVerdict, hw]; rfl

/-- Settles O4: each number is the data of its command, and the width check is the first of every command. -/
theorem everyWidthDecodes : Obligations.EveryWidthDecodes := by
  intro w
  have hdecode (i : Instr) : decode (BitVec.ofNat 64 (i.opc.toNat * 2 ^ 24 + i.w.toNat * 2 ^ 16)) = .ok i := by
    rw [ofNat_eq_cmdData rfl, decode_cmdData]
  refine ⟨hdecode (.packbits w), hdecode (.unpackbits w), hdecode (.packblk w), hdecode (.unpackblk w), ?_⟩
  intro s hf hw
  have hbad := (widthOk_eq_false_iff _).mpr hw
  exact ⟨exec_fault hf (packbitsVerdict_of_bad_width hbad s), exec_fault hf (unpackbitsVerdict_of_bad_width hbad s),
    exec_invalidWidth hf (packblkVerdict_of_bad_width hbad s), exec_invalidWidth hf (unpackblkVerdict_of_bad_width hbad s)⟩

/-- The CMD write of a block command with a bad width writes ERR = INVALID_WIDTH and nothing else (rule R213). -/
theorem issue_packblk_of_bad_width {d : Word} {w : BitVec 8} (hd : decode d = .ok (.packblk w)) (hw : widthOk w.toNat = false)
    {s : State} (hf : s.faulted = false) : issue d s = .next { s with status := withErr s.status 1 } := by
  rw [issue_of_decode_ok hd, exec_invalidWidth (i := .packblk w) hf (packblkVerdict_of_bad_width hw s)]
  rfl

/-- Settles O1: an example word decodes to its command because it is the command's data; the widths 0 and 64 are bad. -/
theorem exampleWordsDecode : Obligations.ExampleWordsDecode := by
  have hword {i : Instr} {d : Word} (h : cmdData i = d) : cmdData i = d ∧ decode d = .ok i :=
    ⟨h, (decode_eq_ok_iff d i).mpr h.symm⟩
  have hzero := hword (i := .packblk 0) (d := 0x20000000) (by decide)
  have hwide := hword (i := .packblk 64) (d := 0x20400000) (by decide)
  refine ⟨hword (by decide), hword (by decide), hword (by decide), hword (by decide), hzero, hwide, by decide, by decide, ?_⟩
  intro s hf
  exact ⟨issue_packblk_of_bad_width hzero.2 (by decide) hf, issue_packblk_of_bad_width hwide.2 (by decide) hf⟩

/-! ### The transactions of the unit (rules R190 to R196) -/

@[simp] theorem State.regWrite_faulted (s : State) (r : Reg) (v : Word) : (s.regWrite r v).faulted = s.faulted := by
  rw [State.faulted, State.regWrite_status, State.faulted]

theorem perform_wr_faulted {s : State} (hf : s.faulted = true) (r : Reg) (v : Word) : perform (.wr r v) s = .next s := by
  simp only [perform, hf, if_true]

theorem perform_wr_cmd {s : State} (hf : s.faulted = false) (d : Word) : perform (.wr .cmd d) s = issue d s := by
  simp only [perform, hf, writeReg, Bool.false_eq_true, if_false]

theorem perform_wr_reg {s : State} (hf : s.faulted = false) {r : Reg} (hr : r ≠ .cmd) (v : Word) :
    perform (.wr r v) s = .next (s.regWrite r v) := by
  simp only [perform, hf, writeReg, Bool.false_eq_true, if_false]

theorem perform_bwr {s : State} (hf : s.faulted = false) (a : Nat) (b : Byte) :
    perform (.bwr a b) s = .next (s.setByte a b) := by
  simp only [perform, hf, Bool.false_eq_true, if_false]

theorem perform_bwr_faulted {s : State} (hf : s.faulted = true) (a : Nat) (b : Byte) : perform (.bwr a b) s = .next s := by
  simp only [perform, hf, if_true]

/-- The CMD write of a command's data executes it, in every state: a faulted unit ignores the write and executes nothing (rules R192,
R215). -/
theorem perform_wr_cmdData (i : Instr) (s : State) : perform (.wr .cmd (cmdData i)) s = exec i s := by
  cases hf : s.faulted with
  | true => rw [perform_wr_faulted hf, exec_faulted hf]
  | false => rw [perform_wr_cmd hf, issue_of_decode_ok (decode_cmdData i)]

@[simp] theorem resolve_asmWr (p : Params) (r : Reg) (v : Word) : resolve p (asmWr r v) = .txn (.wr r v) := by
  simp only [asmWr, resolve, resolveReg, Reg.atOffset_offset, if_true]

@[simp] theorem resolve_asmRd (p : Params) (r : Reg) : resolve p (asmRd r) = .txn (.rd r) := by
  simp only [asmRd, resolve, resolveReg, Reg.atOffset_offset, if_true]

/-! ### The assembler's command lines (rule R78) -/

theorem toNat_ofNat_width {w : Nat} (hw : w ≤ 255) : (BitVec.ofNat 8 w).toNat = w :=
  Nat.mod_eq_of_lt (Nat.lt_succ_of_le hw)

theorem asmPackbits_eq {w : Nat} (hw : w ≤ 255) : asmPackbits w = asmWr .cmd (cmdData (.packbits (BitVec.ofNat 8 w))) :=
  congrArg (asmWr .cmd) (ofNat_eq_cmdData (i := .packbits _) (toNat_ofNat_width hw))

theorem asmUnpackbits_eq {w : Nat} (hw : w ≤ 255) :
    asmUnpackbits w = asmWr .cmd (cmdData (.unpackbits (BitVec.ofNat 8 w))) :=
  congrArg (asmWr .cmd) (ofNat_eq_cmdData (i := .unpackbits _) (toNat_ofNat_width hw))

theorem asmPackblk_eq {w : Nat} (hw : w ≤ 255) : asmPackblk w = asmWr .cmd (cmdData (.packblk (BitVec.ofNat 8 w))) :=
  congrArg (asmWr .cmd) (ofNat_eq_cmdData (i := .packblk _) (toNat_ofNat_width hw))

theorem asmUnpackblk_eq {w : Nat} (hw : w ≤ 255) : asmUnpackblk w = asmWr .cmd (cmdData (.unpackblk (BitVec.ofNat 8 w))) :=
  congrArg (asmWr .cmd) (ofNat_eq_cmdData (i := .unpackblk _) (toNat_ofNat_width hw))

theorem performOp_asmWr_cmdData (i : Instr) (s : State) : performOp (asmWr .cmd (cmdData i)) s = exec i s := by
  simp only [performOp, resolve_asmWr, perform_wr_cmdData]

/-- Settles O53: each line is the CMD write of its command's data. -/
theorem assemblerCommandLines : Obligations.AssemblerCommandLines := by
  intro w s hw
  rw [asmPackbits_eq hw, asmUnpackbits_eq hw, asmPackblk_eq hw, asmUnpackblk_eq hw]
  exact ⟨performOp_asmWr_cmdData _ s, performOp_asmWr_cmdData _ s, performOp_asmWr_cmdData _ s, performOp_asmWr_cmdData _ s⟩

/-! ### No transaction looks at the pending ones (rule R200) -/

theorem commandBody_withProgram (i : Instr) (s : State) (p : List HostOp) :
    commandBody i { s with program := p } = { commandBody i s with program := p } := by
  have hor (q w v : Nat) := State.streamOr_buf_congr (s := { s with program := p }) (t := s) rfl rfl q w v
  cases i with
  | packbits w =>
    simp only [commandBody, packField]
    rw [State.streamOr_eq, State.streamOr_eq s, hor]
  | unpackbits w =>
    have hread := State.streamRead_buf_congr (s := { s with program := p }) (t := s) rfl rfl s.cur.toNat w.toNat
    simp only [commandBody, unpackField, hread]
  | packblk w =>
    simp only [commandBody, packWindow]
    rw [State.streamOr_eq, State.streamOr_eq s, hor]
    rfl
  | unpackblk w =>
    have hread := State.memRead_buf_congr (s := { s with program := p }) (t := s) rfl rfl s.base.toNat w.toNat
    simp only [commandBody, unpackWindow, hread]

theorem exec_withProgram {i : Instr} {s t : State} (h : exec i s = .next t) (p : List HostOp) :
    exec i { s with program := p } = .next { t with program := p } := by
  obtain ⟨t', ht', hprogram⟩ := exec_comm (i := i) (s := s) (fun u => { u with program := p })
    (commandVerdict_congr i rfl rfl rfl rfl rfl rfl rfl) (commandBody_withProgram i s p)
    (command_comm (fun u => { u with program := p }) (fun _ => rfl) (fun _ => rfl) (fun _ _ _ => rfl) s)
  cases h.symm.trans ht'
  exact hprogram

theorem issue_withProgram {d : Word} {s t : State} (h : issue d s = .next t) (p : List HostOp) :
    issue d { s with program := p } = .next { t with program := p } := by
  obtain ⟨i, hd, hexec⟩ | ⟨why, hd, rfl⟩ := issue_cases h
  · rw [issue_of_decode_ok hd, exec_withProgram hexec]
  · rw [issue_of_decode_illegal hd]
    rfl

theorem perform_withProgram {x : Txn} {s t : State} (h : perform x s = .next t) (p : List HostOp) :
    perform x { s with program := p } = .next { t with program := p } := by
  cases x with
  | rd r => cases h; cases r <;> rfl
  | brd a => cases h; rfl
  | reset => cases h; rfl
  | bwr a b =>
    cases hf : s.faulted with
    | true =>
      rw [perform_bwr_faulted hf] at h
      cases h
      exact perform_bwr_faulted (s := { s with program := p }) hf a b
    | false =>
      rw [perform_bwr hf] at h
      cases h
      exact perform_bwr (s := { s with program := p }) hf a b
  | wr r v =>
    cases hf : s.faulted with
    | true =>
      rw [perform_wr_faulted hf] at h
      cases h
      exact perform_wr_faulted (s := { s with program := p }) hf r v
    | false =>
      by_cases hr : r = .cmd
      · subst hr
        rw [perform_wr_cmd hf] at h
        exact (perform_wr_cmd (s := { s with program := p }) hf v).trans (issue_withProgram h p)
      · rw [perform_wr_reg hf hr] at h
        cases h
        refine (perform_wr_reg (s := { s with program := p }) hf hr v).trans ?_
        cases r <;> rfl

/-! ### Running a program, transaction by transaction (rules R194, R200) -/

theorem runProgram_nil (s : State) : runProgram s [] = .next { s with program := [] } := rfl

/-- The first transaction of a well-formed program acts, and the rest runs from the state it leaves. -/
theorem runProgram_cons {s t : State} {op : HostOp} {rest : List HostOp} {x : Txn} (hx : resolve s.params op = .txn x)
    (hrest : programProblem s.params rest = none) (h : perform x s = .next t) :
    runProgram s (op :: rest) = runProgram t rest := by
  have hstep : step { s with program := op :: rest } = .next { t with program := rest } :=
    (step_cons (s := { s with program := op :: rest }) rfl hx hrest).trans (perform_withProgram h rest)
  simp only [runProgram, List.length_cons, Host.Core.run, core, hstep]

@[simp] theorem programProblem_nil (p : Params) : programProblem p [] = none := rfl

@[simp] theorem programProblem_asmWr (p : Params) (r : Reg) (v : Word) (rest : List HostOp) :
    programProblem p (asmWr r v :: rest) = programProblem p rest := by
  simp only [programProblem, resolve_asmWr]

@[simp] theorem programProblem_asmRd (p : Params) (r : Reg) (rest : List HostOp) :
    programProblem p (asmRd r :: rest) = programProblem p rest := by
  simp only [programProblem, resolve_asmRd]

/-- A line that writes a register, in a unit that is not faulted. -/
theorem runProgram_asmWr {s : State} (hf : s.faulted = false) {r : Reg} (hr : r ≠ .cmd) (v : Word) {rest : List HostOp}
    (hrest : programProblem s.params rest = none) :
    runProgram s (asmWr r v :: rest) = runProgram (s.regWrite r v) rest :=
  runProgram_cons (resolve_asmWr _ r v) hrest (perform_wr_reg hf hr v)

/-- A line that reads a register, in any state. -/
theorem runProgram_asmRd (s : State) (r : Reg) {rest : List HostOp} (hrest : programProblem s.params rest = none) :
    runProgram s (asmRd r :: rest) = runProgram (s.returns (.reg r (s.regRead r))) rest :=
  runProgram_cons (resolve_asmRd _ r) hrest rfl

/-- A line that issues a command, in any state. -/
theorem runProgram_command {i : Instr} {s t : State} (h : exec i s = .next t) {rest : List HostOp}
    (hrest : programProblem s.params rest = none) :
    runProgram s (asmWr .cmd (cmdData i) :: rest) = runProgram t rest :=
  runProgram_cons (resolve_asmWr _ _ _) hrest ((perform_wr_cmdData i s).trans h)

/-! ### The pseudo-instructions (rule R79) -/

/-- Writing every lane of the lane file leaves the lanes that were written. -/
theorem set_lanes_eq (k k' : Vector Word 8) :
    (((((((k'.set (0 : Fin 8) k[0]).set (1 : Fin 8) k[1]).set (2 : Fin 8) k[2]).set (3 : Fin 8) k[3]).set (4 : Fin 8)
      k[4]).set (5 : Fin 8) k[5]).set (6 : Fin 8) k[6]).set (7 : Fin 8) k[7] = k := by
  ext j hj
  interval_cases j <;> simp

theorem runProgram_asmSetblk {s : State} (hf : s.faulted = false) (k : Vector Word 8) :
    runProgram s (asmSetblk k) = .next { s with blk := k, program := [] } := by
  rw [asmSetblk]
  iterate 8 rw [runProgram_asmWr (by simp [hf]) (by simp) _ (by simp)]
  simp only [runProgram_nil, State.regWrite, set_lanes_eq]

/-- `bzero A, N` writes one byte and goes on at the next address. -/
theorem asmBzero_succ (a n : Nat) : asmBzero a (n + 1) = .bwr a 0 :: asmBzero (a + 1) n := by
  rw [asmBzero, List.range_succ_eq_map, List.map_cons, List.map_map, asmBzero]
  congr 2
  funext k
  simp only [Function.comp, Nat.succ_eq_add_one]
  congr 1
  omega

theorem resolve_bwr_zero {p : Params} {a : Nat} (ha : a < p.bufLen) : resolve p (.bwr a 0) = .txn (.bwr a 0) := by
  rw [resolve, if_neg (by omega), if_neg (by omega)]
  rfl

theorem programProblem_asmBzero {p : Params} {a n : Nat} (h : a + n ≤ p.bufLen) : programProblem p (asmBzero a n) = none := by
  induction n generalizing a with
  | zero => rfl
  | succ n ih =>
    rw [asmBzero_succ, programProblem, resolve_bwr_zero (by omega)]
    exact ih (by omega)

/-- `bzero A, N` is `MemWrite(A, N, 0)` (rules R15, R79). -/
theorem runProgram_asmBzero {s : State} (hf : s.faulted = false) {a n : Nat} (h : a + n ≤ s.params.bufLen) :
    runProgram s (asmBzero a n) = .next { s.memWrite a n 0 with program := [] } := by
  induction n generalizing s a with
  | zero => rfl
  | succ n ih =>
    rw [asmBzero_succ, runProgram_cons (resolve_bwr_zero (by omega)) (programProblem_asmBzero (by omega)) (perform_bwr hf a 0),
      ih (s := s.setByte a 0) hf (by rw [State.setByte_params]; omega), State.memWrite, Nat.zero_div]
    rfl

theorem State.byte_memWrite_zero (s : State) (a n x : Nat) :
    (s.memWrite a n 0).byte x = if a ≤ x ∧ x < a + n then 0 else s.byte x := by
  induction n generalizing s a with
  | zero => rw [State.memWrite, if_neg (by omega)]
  | succ n ih =>
    rw [State.memWrite, Nat.zero_div, ih, State.byte_setByte]
    by_cases hx : x = a
    · rw [if_neg (by omega), if_pos hx, if_pos (by omega)]
      rfl
    · rw [if_neg hx]
      exact if_congr (by omega) rfl rfl

theorem runProgram_asmPack {s : State} (hf : s.faulted = false) {w : Nat} (hw : w ≤ 255) (v : Word) :
    runProgram s (asmPack w v) = exec (.packbits (BitVec.ofNat 8 w)) { s with val := v, program := [] } := by
  have ht := exec_eq (.packbits (BitVec.ofNat 8 w)) { s with val := v }
  rw [asmPack, asmPackbits_eq hw, runProgram_asmWr hf (by simp) _ (by simp), State.regWrite,
    runProgram_command ht (by simp), runProgram_nil]
  exact (exec_withProgram ht []).symm

theorem runProgram_asmUnpack (s : State) {w : Nat} (hw : w ≤ 255) :
    ∃ t, exec (.unpackbits (BitVec.ofNat 8 w)) { s with program := [] } = .next t ∧
      runProgram s (asmUnpack w) = .next { t with trace := t.trace ++ [.reg .val t.val] } := by
  have ht := exec_eq (.unpackbits (BitVec.ofNat 8 w)) s
  refine ⟨_, exec_withProgram ht [], ?_⟩
  rw [asmUnpack, asmUnpackbits_eq hw, runProgram_command ht (by simp), runProgram_asmRd _ _ (by simp), runProgram_nil]
  rfl

/-- Settles O54: each expansion, run line by line. -/
theorem pseudoInstructions : Obligations.PseudoInstructions := by
  intro w b o a n v k s hf hw _ hcur
  have hwr {r : Reg} (hr : r ≠ .cmd) (v : Word) : runProgram s [asmWr r v] = .next { s.regWrite r v with program := [] } :=
    runProgram_asmWr hf hr v rfl
  refine ⟨⟨_, hwr (by simp) _, rfl, Nat.mod_eq_of_lt hcur⟩, hwr (by simp) v, hwr (by simp) v, runProgram_asmSetblk hf k,
    fun hfits => ?_, runProgram_asmPack hf hw v, runProgram_asmUnpack s hw, runProgram_asmRd s .status rfl⟩
  refine ⟨_, runProgram_asmBzero hf hfits, ?_, fun x => s.byte_memWrite_zero a n x⟩
  rw [State.memWrite_eq]

end Sys2Proof.Machine

/-! PROOFS. The statements of 40_bit_cursor.md: the two cursor commands in full, their phase machines, the cursor's state machine,
the corner cases, and what is packed read back; with the lemmas about a field's bytes and about stream reads that they rest on. -/

namespace Sys2Proof.Machine

/-! ### The checks and the writes of the cursor commands (rules R103, R110) -/

theorem exec_packbits_of_fits {w : BitVec 8} {s : State} (hf : s.faulted = false) (hfits : s.PackbitsFits w.toNat) :
    exec (.packbits w) s = .next (packField w.toNat s).succeed :=
  exec_done hf ((packbitsVerdict_iff_fits _ _).mpr hfits)

theorem exec_unpackbits_of_fits {w : BitVec 8} {s : State} (hf : s.faulted = false) (hfits : s.UnpackbitsFits w.toNat) :
    exec (.unpackbits w) s = .next (unpackField w.toNat s).succeed :=
  exec_done hf ((unpackbitsVerdict_iff_fits _ _).mpr hfits)

@[simp] theorem State.byte_succeed (s : State) (a : Nat) : s.succeed.byte a = s.byte a := rfl
@[simp] theorem State.streamBit_succeed (s : State) (q : Nat) : s.succeed.streamBit q = s.streamBit q := rfl

/-- BOUNDS is the second check of PACKBITS (rule R216). -/
theorem packbitsVerdict_of_outside {w : Nat} {s : State} (hw : 1 ≤ w ∧ w ≤ 63)
    (hbounds : 8 * s.params.bufLen < s.cur.toNat + w) : packbitsVerdict w s = .fault .bounds := by
  simp [packbitsVerdict, (widthOk_iff w).mpr hw, cursorOutside, hbounds]

/-- VALUE_RANGE is the third check of PACKBITS (rule R216). -/
theorem packbitsVerdict_of_tooWide {w : Nat} {s : State} (hw : 1 ≤ w ∧ w ≤ 63)
    (hbounds : s.cur.toNat + w ≤ 8 * s.params.bufLen) (hval : 2 ^ w ≤ s.val.toNat) :
    packbitsVerdict w s = .fault .valueRange := by
  simp [packbitsVerdict, (widthOk_iff w).mpr hw, cursorOutside, tooWide, Nat.not_lt.mpr hbounds, hval]

/-- BOUNDS is the last check of UNPACKBITS (rule R216). -/
theorem unpackbitsVerdict_of_outside {w : Nat} {s : State} (hw : 1 ≤ w ∧ w ≤ 63)
    (hbounds : 8 * s.params.bufLen < s.cur.toNat + w) : unpackbitsVerdict w s = .fault .bounds := by
  simp [unpackbitsVerdict, (widthOk_iff w).mpr hw, cursorOutside, hbounds]

/-- A cursor that moves inside BUF does not wrap: BUF_LEN is at most 2^32 (00_scope.md rule R11). -/
theorem toNat_advancedCur {s : State} {w : Nat} (hbounds : s.cur.toNat + w ≤ 8 * s.params.bufLen) :
    (BitVec.ofNat 64 (s.cur.toNat + w) : Word).toNat = s.cur.toNat + w := by
  rw [BitVec.toNat_ofNat]
  unfold Params.bufLen at hbounds
  omega

/-- The field that UNPACKBITS reads fits in VAL. -/
theorem toNat_ofNat_streamRead (s : State) (p : Nat) {w : Nat} (hw : w ≤ 63) :
    (BitVec.ofNat 64 (s.streamRead p w) : Word).toNat = s.streamRead p w := by
  have hlt : s.streamRead p w < 2 ^ 64 :=
    (s.streamRead_lt p w).trans_le (Nat.pow_le_pow_right (by decide) (by omega))
  rw [BitVec.toNat_ofNat, Nat.mod_eq_of_lt hlt]

/-- The two halves of a stream read, as quotient and remainder. -/
theorem State.streamRead_add_div (s : State) (p w k : Nat) : s.streamRead p (w + k) / 2 ^ k = s.streamRead p w := by
  rw [State.streamRead_add, Nat.mul_comm, Nat.mul_add_div (Nat.two_pow_pos k), Nat.div_eq_of_lt (s.streamRead_lt _ k),
    Nat.add_zero]

theorem State.streamRead_add_mod (s : State) (p w k : Nat) : s.streamRead p (w + k) % 2 ^ k = s.streamRead (p + w) k := by
  rw [State.streamRead_add, Nat.mul_comm, Nat.mul_add_mod, Nat.mod_eq_of_lt (s.streamRead_lt _ k)]

/-- The bytes that PACKBITS leaves: the field's bits ORed into the touched bytes (rule R15, 20_memory.md rule R58). -/
theorem byte_packField (s : State) {w : Nat} (hw : 1 ≤ w) (a : Nat) :
    (packField w s).byte a =
      if s.cur.toNat / 8 ≤ a ∧ a ≤ (s.cur.toNat + w - 1) / 8 then
        s.byte a ||| fieldByte s.cur.toNat w s.val.toNat a
      else s.byte a := by
  have hend := touchedCount_end s.cur.toNat hw
  have hbytes : (packField w s).byte a = (s.streamOr s.cur.toNat w s.val.toNat).byte a := State.byte_congr rfl rfl a
  rw [hbytes, State.streamOr, State.byte_orBytes]
  exact if_congr (by omega) rfl rfl

/-- Bit `j` of a field's byte is stream bit `q = 8a + 7 - j`, which is bit `p + w - 1 - q` of the value (rules R14, R15). -/
theorem getLsbD_fieldByte (p w v a : Nat) {j : Nat} (hj : j < 8) :
    (fieldByte p w v a).getLsbD j =
      (decide (p ≤ 8 * a + (7 - j)) && decide (8 * a + (7 - j) < p + w) && v.testBit (p + w - 1 - (8 * a + (7 - j)))) :=
  getLsbD_byteOfBits _ hj

/-- Where the field ends in byte `a` or before its end, the value's low bits stand there left-aligned. -/
theorem fieldByte_of_end_le {p w v a : Nat} (hv : v < 2 ^ w) (hlt : 8 * a < p + w) (hle : p + w ≤ 8 * a + 8) :
    fieldByte p w v a = BitVec.ofNat 8 (v * 2 ^ (8 * a + 8 - (p + w))) := by
  apply BitVec.eq_of_getLsbD_eq
  intro j hj
  rw [getLsbD_fieldByte p w v a hj, BitVec.getLsbD_ofNat, Nat.testBit_mul_two_pow, decide_eq_true hj, Bool.true_and]
  by_cases hend : 8 * a + (7 - j) < p + w
  · rw [decide_eq_true hend, decide_eq_true (by omega : 8 * a + 8 - (p + w) ≤ j),
      show p + w - 1 - (8 * a + (7 - j)) = j - (8 * a + 8 - (p + w)) by omega]
    by_cases hstart : p ≤ 8 * a + (7 - j)
    · simp [hstart]
    · have hpow : 2 ^ w ≤ 2 ^ (j - (8 * a + 8 - (p + w))) := Nat.pow_le_pow_right (by decide) (by omega)
      simp [hstart, Nat.testBit_lt_two_pow (hv.trans_le hpow)]
  · rw [decide_eq_false hend, decide_eq_false (by omega : ¬ 8 * a + 8 - (p + w) ≤ j)]
    simp

/-- Where the field goes on to the end of byte `a`, the byte holds the value's bits from there up. -/
theorem fieldByte_of_le_end {p w v a : Nat} (hv : v < 2 ^ w) (hle : 8 * a + 8 ≤ p + w) :
    fieldByte p w v a = BitVec.ofNat 8 (v / 2 ^ (p + w - (8 * a + 8))) := by
  apply BitVec.eq_of_getLsbD_eq
  intro j hj
  rw [getLsbD_fieldByte p w v a hj, BitVec.getLsbD_ofNat, Nat.testBit_div_two_pow, decide_eq_true hj, Bool.true_and,
    decide_eq_true (by omega : 8 * a + (7 - j) < p + w),
    show p + w - 1 - (8 * a + (7 - j)) = j + (p + w - (8 * a + 8)) by omega]
  by_cases hstart : p ≤ 8 * a + (7 - j)
  · simp [hstart]
  · have hpow : 2 ^ w ≤ 2 ^ (j + (p + w - (8 * a + 8))) := Nat.pow_le_pow_right (by decide) (by omega)
    simp [hstart, Nat.testBit_lt_two_pow (hv.trans_le hpow)]

/-! ### The two commands in full (rules R103, R110) -/

/-- What PACKBITS leaves when its checks pass (rule R103). -/
theorem exec_packbits_completes {w : BitVec 8} {s : State} (hf : s.faulted = false) (hfits : s.PackbitsFits w.toNat) :
    ∃ t, exec (.packbits w) s = .next t ∧
      t = { s with buf := t.buf, cur := t.cur, status := t.status } ∧
      t.cur.toNat = s.cur.toNat + w.toNat ∧
      (∀ q, t.streamBit q = (s.streamBit q ||
        (decide (s.cur.toNat ≤ q ∧ q < s.cur.toNat + w.toNat) && s.val.getLsbD (s.cur.toNat + w.toNat - 1 - q)))) ∧
      statusErr t.status = 0 ∧ ∀ i, 4 ≤ i → t.status.getLsbD i = s.status.getLsbD i := by
  have ⟨⟨hpos, _⟩, hbounds, _⟩ := hfits
  have hstatus : (packField w.toNat s).succeed.status = withErr s.status errOk := by
    rw [State.succeed_status, packField_eq]
  refine ⟨_, exec_packbits_of_fits hf hfits, ?frame, toNat_advancedCur hbounds, fun q => ?bits, ?err, fun i hi => ?status⟩
  case frame => rw [State.succeed, packField_eq]
  case bits =>
    rw [State.streamBit_succeed, packField_streamBit, State.streamBit_streamOr s _ _ q hpos, BitVec.testBit_toNat,
      Bool.decide_and]
  case err => rw [hstatus, statusErr_withErr, errOk]
  case status => rw [hstatus, getLsbD_withErr_of_le _ _ hi]

/-- The example of rule R103: `11011` into `101_____` gives `10111011`. -/
theorem packbits_example {s : State} (hf : s.faulted = false) (hbyte : s.byte 0 = 0xA0) (hcur : s.cur = 3)
    (hval : s.val = 0x1B) : ∃ t, exec (.packbits 5) s = .next t ∧ t.byte 0 = 0xBB ∧ t.cur = 8 := by
  have hcur' : s.cur.toNat = 3 := by rw [hcur]; rfl
  have hval' : s.val.toNat = 27 := by rw [hval]; rfl
  have hw : (5 : BitVec 8).toNat = 5 := rfl
  have hclean : ∀ q, 3 ≤ q → q < 8 → s.streamBit q = false := by
    intro q hlo hhi
    rw [State.streamBit, Nat.div_eq_of_lt hhi, hbyte]
    interval_cases q <;> rfl
  have hfits : s.PackbitsFits (5 : BitVec 8).toNat := by
    rw [State.PackbitsFits, hcur', hval', hw]
    exact ⟨by decide, by unfold Params.bufLen; omega, by decide, fun _ => hclean⟩
  refine ⟨_, exec_packbits_of_fits hf hfits, ?_, ?_⟩
  · rw [State.byte_succeed, byte_packField s (by decide), hcur', hval', hw, hbyte, if_pos (by decide),
      fieldByte_of_end_le (by decide) (by decide) (by decide)]
    rfl
  · rw [State.succeed_cur, packField, hcur', hw]
    rfl

/-- Settles O5: the four checks pass and `streamOr` is what is left, or the first check that fails gives the fault. -/
theorem packbitsFollowsItsRule : Obligations.PackbitsFollowsItsRule := by
  refine ⟨fun w s hf => ⟨exec_packbits_completes hf, fun hw => ?width, fun hpos hmax => ⟨fun hbounds => ?bounds,
    fun hbounds => ⟨fun hval => ?range, fun hval hmode hdirty => ?dirty⟩⟩⟩, fun s => packbits_example⟩
  case width => exact exec_fault hf (packbitsVerdict_of_bad_width ((widthOk_eq_false_iff _).mpr hw) s)
  case bounds => exact exec_fault hf (packbitsVerdict_of_outside ⟨hpos, hmax⟩ hbounds)
  case range => exact exec_fault hf (packbitsVerdict_of_tooWide ⟨hpos, hmax⟩ hbounds hval)
  case dirty =>
    obtain ⟨q, hlo, hhi, hset⟩ := hdirty
    rw [← target_end s.cur.toNat hpos] at hhi
    exact exec_fault hf
      (packbitsVerdict_of_dirty ⟨hpos, hmax⟩ hbounds hval (dirty_of_streamBit hmode hset hlo hhi))

/-- What UNPACKBITS leaves when its checks pass (rules R110, R112). -/
theorem exec_unpackbits_completes {w : BitVec 8} {s : State} (hf : s.faulted = false) (hfits : s.UnpackbitsFits w.toNat) :
    ∃ t, exec (.unpackbits w) s = .next t ∧
      t = { s with val := t.val, cur := t.cur, status := t.status } ∧
      t.cur.toNat = s.cur.toNat + w.toNat ∧
      (∀ i, t.val.getLsbD i = (decide (i < w.toNat) && s.streamBit (s.cur.toNat + w.toNat - 1 - i))) ∧
      t.val.toNat < 2 ^ w.toNat ∧
      statusErr t.status = 0 ∧ ∀ i, 4 ≤ i → t.status.getLsbD i = s.status.getLsbD i := by
  have ⟨⟨_, hmax⟩, hbounds⟩ := hfits
  have hval := toNat_ofNat_streamRead s s.cur.toNat hmax
  refine ⟨_, exec_unpackbits_of_fits hf hfits, rfl, toNat_advancedCur hbounds, fun i => ?bits, ?range,
    statusErr_withErr _ _, fun i hi => getLsbD_withErr_of_le _ _ hi⟩
  case bits => rw [← BitVec.testBit_toNat, State.succeed_val, unpackField, hval, State.testBit_streamRead]
  case range => rw [State.succeed_val, unpackField, hval]; exact s.streamRead_lt _ _

/-- The example of rule R110: the last five bits of `10111011`. -/
theorem unpackbits_example {s : State} (hf : s.faulted = false) (hbyte : s.byte 0 = 0xBB) (hcur : s.cur = 3) :
    ∃ t, exec (.unpackbits 5) s = .next t ∧ t.val = 0x1B ∧ t.cur = 8 := by
  have hcur' : s.cur.toNat = 3 := by rw [hcur]; rfl
  have hw : (5 : BitVec 8).toNat = 5 := rfl
  have hfits : s.UnpackbitsFits (5 : BitVec 8).toNat := by
    rw [State.UnpackbitsFits, hcur', hw]
    exact ⟨by decide, by unfold Params.bufLen; omega⟩
  have hread : s.streamRead 3 5 = 27 := by
    calc s.streamRead 3 5 = (s.byte 0).toNat % 2 ^ 5 := by rw [State.byte_toNat, ← s.streamRead_add_mod 0 3 5]
      _ = 27 := by rw [hbyte]; rfl
  refine ⟨_, exec_unpackbits_of_fits hf hfits, ?_, ?_⟩
  · rw [State.succeed_val, unpackField, hcur', hw, hread]
    rfl
  · rw [State.succeed_cur, unpackField, hcur', hw]
    rfl

/-- Settles O6: the two checks pass and `streamRead` is what VAL holds, or the first check that fails gives the fault. -/
theorem unpackbitsFollowsItsRule : Obligations.UnpackbitsFollowsItsRule := by
  refine ⟨fun w s hf => ⟨exec_unpackbits_completes hf, fun hw => ?width, fun hpos hmax hbounds => ?bounds⟩,
    fun s => unpackbits_example⟩
  case width => exact exec_fault hf (unpackbitsVerdict_of_bad_width ((widthOk_eq_false_iff _).mpr hw) s)
  case bounds => exact exec_fault hf (unpackbitsVerdict_of_outside ⟨hpos, hmax⟩ hbounds)

/-! ### The pack phase machine (rule R101) -/

/-- ORing into `n + m` bytes is ORing into the first `n`, then into the other `m`. -/
theorem State.orBytes_add (s : State) (a n m : Nat) (f : Nat → Byte) :
    s.orBytes a (n + m) f = (s.orBytes a n f).orBytes (a + n) m f := by
  induction n generalizing s a with
  | zero => rw [Nat.zero_add, Nat.add_zero, State.orBytes]
  | succ n ih => rw [show n + 1 + m = n + m + 1 by omega, State.orBytes, ih, State.orBytes, show a + 1 + n = a + (n + 1) by omega]

/-- FULL, with `rem` bits of the field left at byte `b`, ORs in the field's next `n` bytes. -/
theorem packFull_eq_orBytes {p w v : Nat} (hv : v < 2 ^ w) {n b rem : Nat} (hend : 8 * b + rem = p + w) (hn : 8 * n ≤ rem)
    (s : State) : packFull v n b rem s = s.orBytes b n (fieldByte p w v) := by
  induction n generalizing b rem s with
  | zero => rfl
  | succ n ih =>
    rw [packFull, State.orBytes, fieldByte_of_le_end hv (by omega), show p + w - (8 * b + 8) = rem - 8 by omega]
    exact ih (by omega) (by omega) _

/-- FULL and TAIL, with `rem` bits of the field left at byte `b`, OR in all its other bytes and leave CUR at its end. -/
theorem packFullTail_eq_orBytes {p w v : Nat} (hv : v < 2 ^ w) {b rem : Nat} (hend : 8 * b + rem = p + w) (s : State) :
    packFullTail v b rem s = { s.orBytes b ((rem + 7) / 8) (fieldByte p w v) with cur := BitVec.ofNat 64 (p + w) } := by
  rw [packFullTail, packFull_eq_orBytes hv hend (by omega), packTail]
  split
  · rw [show (rem + 7) / 8 = rem / 8 + 1 by omega, State.orBytes_add, State.orBytes, State.orBytes,
      fieldByte_of_end_le hv (by omega) (by omega), show 8 * (b + rem / 8) + 8 - (p + w) = 8 - rem % 8 by omega,
      show 8 * (b + rem / 8) + rem % 8 = p + w by omega]
  · rw [show (rem + 7) / 8 = rem / 8 by omega, show 8 * (b + rem / 8) = p + w by omega]

/-- The phase machine ORs the field's bytes in, one by one from the first on: the closed form of rule R103. -/
theorem packPhases_eq_packField {w : Nat} {s : State} (hw : 1 ≤ w) (hv : s.val.toNat < 2 ^ w) :
    packPhases w s = packField w s := by
  simp only [packPhases, packField, State.streamOr]
  generalize s.val.toNat = v at hv ⊢
  generalize s.cur.toNat = p
  split
  · split
    · have hcount : touchedCount p w = 0 + 1 := by unfold touchedCount; omega
      have hchunk : v * 2 ^ (8 - p % 8 - w) < 2 ^ (8 - p % 8) := by
        calc v * 2 ^ (8 - p % 8 - w) < 2 ^ w * 2 ^ (8 - p % 8 - w) := Nat.mul_lt_mul_of_pos_right hv (Nat.two_pow_pos _)
          _ = 2 ^ (8 - p % 8) := by rw [← Nat.pow_add, Nat.add_sub_cancel' (by omega)]
      rw [hcount, State.orBytes, State.orBytes, fieldByte_of_end_le hv (by omega) (by omega), Nat.mod_eq_of_lt hchunk,
        show 8 * (p / 8) + 8 - (p + w) = 8 - p % 8 - w by omega, show 8 * (p / 8) + (p % 8 + w) = p + w by omega]
    · have hcount : touchedCount p w = (w - (8 - p % 8) + 7) / 8 + 1 := by unfold touchedCount; omega
      have hchunk : v / 2 ^ (w - (8 - p % 8)) < 2 ^ (8 - p % 8) := by
        rw [Nat.div_lt_iff_lt_mul (Nat.two_pow_pos _), ← Nat.pow_add, Nat.add_sub_cancel' (by omega)]
        exact hv
      rw [packFullTail_eq_orBytes (p := p) hv (by omega), hcount, State.orBytes, fieldByte_of_le_end hv (by omega),
        Nat.mod_eq_of_lt hchunk, show p + w - (8 * (p / 8) + 8) = w - (8 - p % 8) by omega]
  · have hcount : touchedCount p w = (w + 7) / 8 := by unfold touchedCount; omega
    rw [packFullTail_eq_orBytes (p := p) hv (by omega), hcount]

/-- Settles O7: the phase machine and the closed form are one function of the states that pass the checks. -/
theorem packPhaseMachine : Obligations.PackPhaseMachine := by
  intro w s hf hfits
  have ⟨⟨hpos, _⟩, _, hval, _⟩ := hfits
  rw [exec_packbits_of_fits hf hfits, packPhases_eq_packField hpos hval]

/-! ### The unpack phase machine (rule R111) -/

/-- The top `k` bits of a byte are its first `k` stream bits. -/
theorem State.byte_div_two_pow (s : State) (a : Nat) {k : Nat} (hk : k ≤ 8) :
    (s.byte a).toNat / 2 ^ (8 - k) = s.streamRead (8 * a) k := by
  have h := s.streamRead_add_div (8 * a) k (8 - k)
  rwa [Nat.add_sub_cancel' hk, ← State.byte_toNat] at h

/-- The low `k` bits of a byte are its last `k` stream bits. -/
theorem State.byte_mod_two_pow (s : State) (a : Nat) {k : Nat} (hk : k ≤ 8) :
    (s.byte a).toNat % 2 ^ k = s.streamRead (8 * a + (8 - k)) k := by
  have h := s.streamRead_add_mod (8 * a) (8 - k) k
  rwa [Nat.sub_add_cancel hk, ← State.byte_toNat] at h

/-- FULL appends the next `n` bytes. -/
theorem unpackFull_eq (s : State) (n b v : Nat) :
    unpackFull s n b v = v * 2 ^ (8 * n) + s.streamRead (8 * b) (8 * n) := by
  induction n generalizing b v with
  | zero => simp [unpackFull, State.streamRead]
  | succ n ih =>
    rw [unpackFull, ih, State.byte_toNat, show 8 * (n + 1) = 8 + 8 * n by omega, State.streamRead_add, Nat.pow_add,
      show 8 * (b + 1) = 8 * b + 8 by omega]
    ring

/-- FULL and TAIL append the next `rem` stream bits from byte `b` on and leave CUR after them. -/
theorem unpackFullTail_eq (b rem v : Nat) (s : State) :
    unpackFullTail b rem v s =
      { s with val := BitVec.ofNat 64 (v * 2 ^ rem + s.streamRead (8 * b) rem), cur := BitVec.ofNat 64 (8 * b + rem) } := by
  have hsplit : v * 2 ^ rem + s.streamRead (8 * b) rem =
      (v * 2 ^ (8 * (rem / 8)) + s.streamRead (8 * b) (8 * (rem / 8))) * 2 ^ (rem % 8) +
        s.streamRead (8 * (b + rem / 8)) (rem % 8) := by
    conv_lhs => rw [← Nat.div_add_mod rem 8]
    rw [State.streamRead_add, Nat.pow_add, Nat.mul_add 8 b]
    ring
  have hcur : 8 * (b + rem / 8) + rem % 8 = 8 * b + rem := by omega
  rw [unpackFullTail, unpackFull_eq, unpackTail, hsplit, ← hcur]
  split
  · rw [State.byte_div_two_pow s _ (by omega)]
  · have hnone : rem % 8 = 0 := by omega
    simp only [hnone, Nat.pow_zero, Nat.mul_one, Nat.add_zero, State.streamRead]

/-- The phase machine appends the field's bits, first to last: the closed form of rule R110. -/
theorem unpackPhases_eq_unpackField (w : Nat) (s : State) : unpackPhases w s = unpackField w s := by
  simp only [unpackPhases, unpackField]
  generalize s.cur.toNat = p
  split
  · split
    · have hfield : (s.byte (p / 8)).toNat / 2 ^ (8 - p % 8 - w) % 2 ^ w = s.streamRead p w := by
        rw [Nat.sub_sub, s.byte_div_two_pow _ (by omega), State.streamRead_add_mod, Nat.div_add_mod]
      rw [hfield, ← Nat.add_assoc, Nat.div_add_mod]
    · have hchunk := s.byte_mod_two_pow (p / 8) (Nat.sub_le 8 (p % 8))
      have hread := s.streamRead_add p (8 - p % 8) (w - (8 - p % 8))
      rw [show 8 * (p / 8) + (8 - (8 - p % 8)) = p by omega] at hchunk
      rw [Nat.add_sub_cancel' (by omega), show p + (8 - p % 8) = 8 * (p / 8 + 1) by omega] at hread
      rw [unpackFullTail_eq, hchunk, ← hread, show 8 * (p / 8 + 1) + (w - (8 - p % 8)) = p + w by omega]
  · rw [unpackFullTail_eq, show 8 * (p / 8) = p by omega, Nat.zero_mul, Nat.zero_add]

/-- Settles O8: the phase machine and the closed form are one function. -/
theorem unpackPhaseMachine : Obligations.UnpackPhaseMachine := by
  intro w s hf hfits
  rw [exec_unpackbits_of_fits hf hfits, unpackPhases_eq_unpackField]

/-! ### The cursor (rule R105) -/

theorem toNat_byteIndex (cur : Word) : (byteIndex cur).toNat = cur.toNat / 8 := by
  rw [byteIndex, BitVec.extractLsb'_toNat, Nat.shiftRight_eq_div_pow]
  omega

theorem toNat_bitOffset (cur : Word) : (bitOffset cur).toNat = cur.toNat % 8 := by
  rw [bitOffset, BitVec.extractLsb'_toNat, Nat.shiftRight_zero]

@[simp] theorem packField_faulted (w : Nat) (s : State) : (packField w s).faulted = s.faulted := by
  rw [State.faulted, packField_eq, State.faulted]

theorem packbitsVerdict_ne_invalidWidth (w : Nat) (s : State) : packbitsVerdict w s ≠ .invalidWidth := by
  unfold packbitsVerdict
  split_ifs <;> exact Verdict.noConfusion

theorem unpackbitsVerdict_ne_invalidWidth (w : Nat) (s : State) : unpackbitsVerdict w s ≠ .invalidWidth := by
  unfold unpackbitsVerdict
  split_ifs <;> exact Verdict.noConfusion

/-- A cursor command that is executed and raises no fault moves CUR by its width; any other end of it leaves CUR. -/
theorem exec_cursorCommand_cur {w : BitVec 8} {i : Instr} {s t : State} (hi : i = .packbits w ∨ i = .unpackbits w)
    (h : exec i s = .next t) :
    if s.faulted = false ∧ t.faulted = false then t.cur.toNat = s.cur.toNat + w.toNat else t.cur = s.cur := by
  have hbounds : commandVerdict i s = .done → s.cur.toNat + w.toNat ≤ 8 * s.params.bufLen := by
    obtain rfl | rfl := hi
    · exact fun hv => ((packbitsVerdict_done_iff _ _).mp hv).2.1
    · exact fun hv => ((unpackbitsVerdict_done_iff _ _).mp hv).2
  have hmove : (commandBody i s).cur = BitVec.ofNat 64 (s.cur.toNat + w.toNat) := by
    obtain rfl | rfl := hi <;> rfl
  have hwidth : commandVerdict i s ≠ .invalidWidth := by
    obtain rfl | rfl := hi
    · exact packbitsVerdict_ne_invalidWidth _ s
    · exact unpackbitsVerdict_ne_invalidWidth _ s
  obtain ⟨hf, rfl⟩ | ⟨hf, hv, rfl⟩ | ⟨-, hv, -⟩ | ⟨-, c, -, rfl⟩ := exec_cases h
  · rw [if_neg (by simp [hf])]
  · rw [if_pos ⟨hf, by rw [State.succeed_faulted, commandBody_faulted, hf]⟩, State.succeed_cur, hmove,
      toNat_advancedCur (hbounds hv)]
  · exact absurd hv hwidth
  · rw [if_neg (by simp), State.takeFault_cur]

/-- Settles O9: the pair is quotient and remainder of CUR by 8, and CUR moves by the width. -/
theorem cursorStateMachine : Obligations.CursorStateMachine := by
  intro w i s t hi h b o b' o'
  have hb : b = s.cur.toNat / 8 := toNat_byteIndex _
  have ho : o = s.cur.toNat % 8 := toNat_bitOffset _
  have hb' : b' = t.cur.toNat / 8 := toNat_byteIndex _
  have ho' : o' = t.cur.toNat % 8 := toNat_bitOffset _
  have hcur := exec_cursorCommand_cur hi h
  refine ⟨by omega, by omega, ?_⟩
  split
  · rename_i hsuccess
    rw [if_pos hsuccess] at hcur
    omega
  · rename_i hfail
    rwa [if_neg hfail] at hcur

/-! ### The corner cases of PACKBITS (rule R107) -/

@[simp] theorem fieldByte_zero (p w a : Nat) : fieldByte p w 0 a = 0#8 := by
  apply BitVec.eq_of_getLsbD_eq
  intro j hj
  rw [getLsbD_fieldByte p w 0 a hj, Nat.zero_testBit, Bool.and_false, BitVec.getLsbD_zero]

/-- A field that lies in one byte is ORed into that byte alone, at its offset from the left. -/
theorem byte_packField_of_within {w : Nat} {s : State} (hw : 1 ≤ w) (hval : s.val.toNat < 2 ^ w)
    (hwithin : s.cur.toNat % 8 + w ≤ 8) (a : Nat) :
    (packField w s).byte a =
      if a = s.cur.toNat / 8 then s.byte a ||| BitVec.ofNat 8 (s.val.toNat * 2 ^ (8 - (s.cur.toNat % 8 + w)))
      else s.byte a := by
  rw [byte_packField s hw]
  by_cases ha : a = s.cur.toNat / 8
  · rw [if_pos (by omega), if_pos ha, fieldByte_of_end_le hval (by omega) (by omega),
      show 8 * a + 8 - (s.cur.toNat + w) = 8 - (s.cur.toNat % 8 + w) by omega]
  · rw [if_neg (by omega), if_neg ha]

/-- From a byte boundary a field of whole bytes is ORed in most significant byte first. -/
theorem byte_packField_of_aligned {w m k : Nat} {s : State} (hval : s.val.toNat < 2 ^ w) (hoffset : s.cur.toNat % 8 = 0)
    (hm : w = 8 * m) (hk : k < m) :
    (packField w s).byte (s.cur.toNat / 8 + k) =
      s.byte (s.cur.toNat / 8 + k) ||| BitVec.ofNat 8 (s.val.toNat / 2 ^ (8 * (m - 1 - k))) := by
  rw [byte_packField s (by omega), if_pos (by omega), fieldByte_of_le_end hval (by omega),
    show s.cur.toNat + w - (8 * (s.cur.toNat / 8 + k) + 8) = 8 * (m - 1 - k) by omega]

theorem byte_packField_of_val_zero {w : Nat} {s : State} (hw : 1 ≤ w) (hval : s.val = 0) (a : Nat) :
    (packField w s).byte a = s.byte a := by
  have hzero : s.val.toNat = 0 := by rw [hval]; rfl
  rw [byte_packField s hw, hzero, fieldByte_zero, BitVec.or_zero, ite_self]

/-- At the end of BUF every cursor command of a legal width is out of bounds (60_exceptions.md rule R219). -/
theorem exec_at_end {v : BitVec 8} {t : State} (hf : t.faulted = false) (hcur : t.cur.toNat = 8 * t.params.bufLen)
    (hpos : 1 ≤ v.toNat) (hmax : v.toNat ≤ 63) :
    exec (.packbits v) t = .next (t.takeFault .bounds (cmdData (.packbits v))) ∧
      exec (.unpackbits v) t = .next (t.takeFault .bounds (cmdData (.unpackbits v))) :=
  ⟨exec_fault hf (packbitsVerdict_of_outside ⟨hpos, hmax⟩ (by omega)),
    exec_fault hf (unpackbitsVerdict_of_outside ⟨hpos, hmax⟩ (by omega))⟩

/-- Settles O10: each corner is a case of what PACKBITS leaves in a byte, in CUR or in the stream. -/
theorem packbitsCorners : Obligations.PackbitsCorners := by
  intro w s hf hfits
  have ⟨⟨hpos, hmax⟩, hbounds, hval, _⟩ := hfits
  have hcur : (packField w.toNat s).succeed.cur.toNat = s.cur.toNat + w.toNat := toNat_advancedCur hbounds
  refine ⟨_, exec_packbits_of_fits hf hfits, ?_⟩
  intro b o
  simp only [State.byte_succeed, State.streamBit_succeed, hcur]
  refine ⟨fun ho hw => ?fill, fun ho hw => ?left, fun ho m hw => ?bigEndian, fun hw => ?nine,
    fun hzero a => byte_packField_of_val_zero hpos hzero a, fun hend => ⟨hend, fun v => ?atEnd⟩, fun q hq => ?after⟩
  case fill =>
    refine ⟨by omega, ?_, fun a ha => ?_⟩
    · rw [byte_packField_of_within hpos hval (by omega), if_pos rfl, show 8 - (s.cur.toNat % 8 + w.toNat) = 0 by omega,
        Nat.pow_zero, Nat.mul_one]
    · rw [byte_packField_of_within hpos hval (by omega), if_neg ha]
  case left =>
    refine ⟨by omega, ?_, fun a ha => ?_⟩
    · rw [byte_packField_of_within hpos hval (by omega), if_pos rfl,
        show 8 - (s.cur.toNat % 8 + w.toNat) = 8 - w.toNat by omega]
    · rw [byte_packField_of_within hpos hval (by omega), if_neg ha]
  case bigEndian => exact ⟨by omega, fun k hk => byte_packField_of_aligned hval ho hw hk⟩
  case nine =>
    unfold touchedCount
    split <;> omega
  case atEnd =>
    refine exec_at_end ?_ ?_
    · rw [State.succeed_faulted, packField_faulted, hf]
    · rw [hcur, State.succeed_params, packField_params, hend]
  case after => rw [packField_streamBit, State.streamBit_streamOr_outside _ _ _ hpos (.inr hq)]

/-! ### One field packed and read back (rules R113, R114) -/

theorem State.streamRead_succeed (s : State) (p w : Nat) : s.succeed.streamRead p w = s.streamRead p w :=
  State.streamRead_buf_congr (s := s.succeed) (t := s) rfl rfl p w

theorem State.streamRead_withCur (s : State) (c : Word) (p w : Nat) :
    ({ s with cur := c } : State).streamRead p w = s.streamRead p w :=
  State.streamRead_buf_congr (s := { s with cur := c }) (t := s) rfl rfl p w

/-- PACKBITS of a value into a clean target leaves the value in its field, and every stream bit outside it. -/
theorem exec_packbits_of_clean {w : BitVec 8} {v : Word} {s : State} (hf : s.faulted = false) (hpos : 1 ≤ w.toNat)
    (hmax : w.toNat ≤ 63) (hval : v.toNat < 2 ^ w.toNat) (hbounds : s.cur.toNat + w.toNat ≤ 8 * s.params.bufLen)
    (hclean : ∀ q, s.cur.toNat ≤ q → q < 8 * ((s.cur.toNat + w.toNat - 1) / 8 + 1) → s.streamBit q = false) :
    ∃ t, exec (.packbits w) (s.regWrite .val v) = .next t ∧ t.faulted = false ∧ t.params = s.params ∧
      t.cur.toNat = s.cur.toNat + w.toNat ∧
      (∀ q, q < s.cur.toNat ∨ s.cur.toNat + w.toNat ≤ q → t.streamBit q = s.streamBit q) ∧
      t.streamRead s.cur.toNat w.toNat = v.toNat := by
  have hfits : (s.regWrite .val v).PackbitsFits w.toNat := ⟨⟨hpos, hmax⟩, hbounds, hval, fun _ => hclean⟩
  refine ⟨_, exec_packbits_of_fits hf hfits, ?faulted, ?params, toNat_advancedCur hbounds, fun q hq => ?outside, ?field⟩
  case faulted => rw [State.succeed_faulted, packField_faulted, State.regWrite_faulted, hf]
  case params => rw [State.succeed_params, packField_params, State.regWrite_params]
  case outside =>
    rw [State.streamBit_succeed, packField_streamBit]
    exact State.streamBit_streamOr_outside _ _ _ hpos hq
  case field =>
    have hread := State.streamRead_streamOr_of_zero (s.regWrite .val v) s.cur.toNat hpos hval
      fun q hlo hhi => hclean q hlo (by omega)
    rw [State.streamRead_succeed, ← hread]
    exact State.streamRead_congr fun i _ => packField_streamBit w.toNat (s.regWrite .val v) _

/-- UNPACKBITS leaves the field in VAL, and the stream. -/
theorem exec_unpackbits_reads {w : BitVec 8} {s : State} (hf : s.faulted = false) (hfits : s.UnpackbitsFits w.toNat) :
    ∃ t, exec (.unpackbits w) s = .next t ∧ t.faulted = false ∧ t.params = s.params ∧
      t.cur.toNat = s.cur.toNat + w.toNat ∧ (∀ q, t.streamBit q = s.streamBit q) ∧
      t.val.toNat = s.streamRead s.cur.toNat w.toNat := by
  have ⟨⟨_, hmax⟩, hbounds⟩ := hfits
  exact ⟨_, exec_unpackbits_of_fits hf hfits, (State.succeed_faulted _).trans hf, rfl, toNat_advancedCur hbounds,
    fun _ => rfl, toNat_ofNat_streamRead s _ hmax⟩

/-- Settles O12: UNPACKBITS reads the field where PACKBITS has left the value. -/
theorem roundTripBits : Obligations.RoundTripBits := by
  intro w v s hf hpos hmax hval hbounds hclean
  obtain ⟨t, hpack, hft, hparams, hcur, -, hread⟩ := exec_packbits_of_clean hf hpos hmax hval hbounds hclean
  have hfits : ({ t with cur := s.cur } : State).UnpackbitsFits w.toNat := ⟨⟨hpos, hmax⟩, hparams ▸ hbounds⟩
  obtain ⟨u, hunpack, -, -, hcur', -, hval'⟩ := exec_unpackbits_reads (s := { t with cur := s.cur }) hft hfits
  refine ⟨t, u, hpack, hunpack, BitVec.eq_of_toNat_eq ?_, BitVec.eq_of_toNat_eq (hcur'.trans hcur.symm), hcur⟩
  calc u.val.toNat = t.streamRead s.cur.toNat w.toNat := hval'.trans (t.streamRead_withCur _ _ _)
    _ = v.toNat := hread

/-! ### Fields packed and read back in sequence (rules R108, R114) -/

@[simp] theorem totalBits_nil : totalBits [] = 0 := rfl

@[simp] theorem totalBits_cons (w : BitVec 8) (ws : List (BitVec 8)) : totalBits (w :: ws) = w.toNat + totalBits ws := by
  simp [totalBits]

@[simp] theorem concatFields_nil : concatFields [] = 0 := rfl

/-- Values appended to `t` shift it by their bits. -/
theorem foldl_concatFields (ps : List (BitVec 8 × Word)) (t : Nat) :
    ps.foldl (fun t x => t * 2 ^ x.1.toNat + x.2.toNat) t = t * 2 ^ totalBits (ps.map (·.1)) + concatFields ps := by
  induction ps generalizing t with
  | nil => simp
  | cons x ps ih =>
    rw [concatFields, List.foldl_cons, List.foldl_cons, ih, ih (0 * _ + _), List.map_cons, totalBits_cons, Nat.pow_add]
    ring

/-- The first value is the most significant. -/
theorem concatFields_cons (w : BitVec 8) (v : Word) (ps : List (BitVec 8 × Word)) :
    concatFields ((w, v) :: ps) = v.toNat * 2 ^ totalBits (ps.map (·.1)) + concatFields ps := by
  rw [concatFields, List.foldl_cons, foldl_concatFields, Nat.zero_mul, Nat.zero_add]

/-- The widths are legal and each value fits in its width (rule R108). -/
def LegalFields (ps : List (BitVec 8 × Word)) : Prop :=
  ∀ x ∈ ps, 1 ≤ x.1.toNat ∧ x.1.toNat ≤ 63 ∧ x.2.toNat < 2 ^ x.1.toNat

theorem legalFields_cons {w : BitVec 8} {v : Word} {ps : List (BitVec 8 × Word)} (h : LegalFields ((w, v) :: ps)) :
    (1 ≤ w.toNat ∧ w.toNat ≤ 63 ∧ v.toNat < 2 ^ w.toNat) ∧ LegalFields ps :=
  List.forall_mem_cons.mp h

theorem concatFields_lt {ps : List (BitVec 8 × Word)} (h : LegalFields ps) :
    concatFields ps < 2 ^ totalBits (ps.map (·.1)) := by
  induction ps with
  | nil => simp
  | cons x ps ih =>
    obtain ⟨w, v⟩ := x
    obtain ⟨⟨-, -, hv⟩, hps⟩ := legalFields_cons h
    rw [concatFields_cons, List.map_cons, totalBits_cons, Nat.pow_add]
    calc v.toNat * 2 ^ totalBits (ps.map (·.1)) + concatFields ps
        < (v.toNat + 1) * 2 ^ totalBits (ps.map (·.1)) := by rw [Nat.succ_mul]; exact Nat.add_lt_add_left (ih hps) _
      _ ≤ 2 ^ w.toNat * 2 ^ totalBits (ps.map (·.1)) := Nat.mul_le_mul_right _ hv

theorem packAll_cons {w : BitVec 8} {v : Word} {s t : State} (h : exec (.packbits w) (s.regWrite .val v) = .next t)
    (ps : List (BitVec 8 × Word)) : packAll ((w, v) :: ps) s = packAll ps t := by
  simp only [packAll, h]

theorem unpackAll_cons {w : BitVec 8} {s t : State} (h : exec (.unpackbits w) s = .next t) (ws : List (BitVec 8))
    (vs : List Word) : unpackAll (w :: ws) s vs = unpackAll ws t (vs ++ [t.val]) := by
  simp only [unpackAll, h]

/-- From any CUR with stream bits 0 up to the end of the last touched byte: each command leaves the target of the rest clean. -/
theorem packAll_of_clean {ps : List (BitVec 8 × Word)} {s : State} (hf : s.faulted = false) (hps : LegalFields ps)
    (hbounds : s.cur.toNat + totalBits (ps.map (·.1)) ≤ 8 * s.params.bufLen)
    (hclean : ∀ q, s.cur.toNat ≤ q → q < 8 * ((s.cur.toNat + totalBits (ps.map (·.1)) - 1) / 8 + 1) →
      s.streamBit q = false) :
    ∃ t, packAll ps s = .next t ∧ t.faulted = false ∧ t.params = s.params ∧
      t.cur.toNat = s.cur.toNat + totalBits (ps.map (·.1)) ∧
      (∀ q, q < s.cur.toNat ∨ s.cur.toNat + totalBits (ps.map (·.1)) ≤ q → t.streamBit q = s.streamBit q) ∧
      t.streamRead s.cur.toNat (totalBits (ps.map (·.1))) = concatFields ps := by
  induction ps generalizing s with
  | nil => exact ⟨s, rfl, hf, rfl, rfl, fun _ _ => rfl, rfl⟩
  | cons x ps ih =>
    obtain ⟨w, v⟩ := x
    obtain ⟨⟨hpos, hmax, hval⟩, hrest⟩ := legalFields_cons hps
    simp only [List.map_cons, totalBits_cons, ← Nat.add_assoc] at hbounds hclean ⊢
    obtain ⟨t, hpack, hft, hparams, hcur, houtside, hfield⟩ :=
      exec_packbits_of_clean hf hpos hmax hval (by omega) fun q hlo hhi => hclean q hlo (by omega)
    rw [← hcur, ← hparams] at hbounds
    obtain ⟨u, hall, hfu, hparams', hcur', houtside', hread⟩ := ih hft hrest hbounds fun q hlo hhi => by
      rw [houtside q (by omega)]
      exact hclean q (by omega) (by omega)
    refine ⟨u, (packAll_cons hpack ps).trans hall, hfu, hparams'.trans hparams, by omega, fun q hq => ?outside, ?read⟩
    case outside => rw [houtside' q (by omega), houtside q (by omega)]
    case read =>
      have hfirst : u.streamRead s.cur.toNat w.toNat = v.toNat :=
        (State.streamRead_congr fun i hi => houtside' _ (by omega)).trans hfield
      rw [State.streamRead_add, hfirst, ← hcur, hread, concatFields_cons]

/-- The premises of rule R108 give a clean target: the bytes up to the last touched one are 0. -/
theorem packAll_of_zero_bytes {ps : List (BitVec 8 × Word)} {b0 : Nat} {s : State} (hf : s.faulted = false)
    (hcur : s.cur.toNat = 8 * b0) (hps : LegalFields ps)
    (hbounds : 8 * b0 + totalBits (ps.map (·.1)) ≤ 8 * s.params.bufLen)
    (hzero : ∀ a, b0 ≤ a → a ≤ (8 * b0 + totalBits (ps.map (·.1)) - 1) / 8 → s.byte a = 0) :
    ∃ t, packAll ps s = .next t ∧ t.faulted = false ∧ t.params = s.params ∧
      t.cur.toNat = 8 * b0 + totalBits (ps.map (·.1)) ∧
      (∀ q, 8 * b0 + totalBits (ps.map (·.1)) ≤ q → q < 8 * ((8 * b0 + totalBits (ps.map (·.1)) - 1) / 8 + 1) →
        t.streamBit q = false) ∧
      t.streamRead (8 * b0) (totalBits (ps.map (·.1))) = concatFields ps := by
  have hclean : ∀ q, 8 * b0 ≤ q → q < 8 * ((8 * b0 + totalBits (ps.map (·.1)) - 1) / 8 + 1) → s.streamBit q = false := by
    intro q hlo hhi
    rw [State.streamBit, hzero (q / 8) (by omega) (by omega)]
    exact BitVec.getLsbD_zero
  rw [← hcur] at hbounds hclean ⊢
  obtain ⟨t, hall, hft, hparams, hcur', houtside, hread⟩ := packAll_of_clean hf hps hbounds hclean
  refine ⟨t, hall, hft, hparams, hcur', fun q hlo hhi => ?_, hread⟩
  rw [houtside q (.inr hlo)]
  exact hclean q (by omega) hhi

/-- Settles O13: the induction is over the list from any cursor with a clean target. -/
theorem sequentialPacking : Obligations.SequentialPacking := by
  intro ps b0 s hf hcur hps total hbounds hzero
  obtain ⟨t, hall, hft, -, hcur', hlater, hread⟩ := packAll_of_zero_bytes hf hcur hps hbounds hzero
  exact ⟨t, hall, hft, hread, hlater, hcur'⟩

/-- Where the stream from CUR on is the concatenation of values, UNPACKBITS at their widths gives them, one by one. -/
theorem unpackAll_of_streamRead {ps : List (BitVec 8 × Word)} {s : State} (hf : s.faulted = false) (hps : LegalFields ps)
    (hbounds : s.cur.toNat + totalBits (ps.map (·.1)) ≤ 8 * s.params.bufLen)
    (hread : s.streamRead s.cur.toNat (totalBits (ps.map (·.1))) = concatFields ps) (vs : List Word) :
    ∃ u, unpackAll (ps.map (·.1)) s vs = .next (u, vs ++ ps.map (·.2)) := by
  induction ps generalizing s vs with
  | nil => exact ⟨s, by rw [List.map_nil, List.map_nil, List.append_nil, unpackAll]⟩
  | cons x ps ih =>
    obtain ⟨w, v⟩ := x
    obtain ⟨⟨hpos, hmax, hval⟩, hrest⟩ := legalFields_cons hps
    have hlt := concatFields_lt hrest
    simp only [List.map_cons, totalBits_cons, concatFields_cons] at hbounds hread
    obtain ⟨t, hunpack, hft, hparams, hcur, hstream, htval⟩ :=
      exec_unpackbits_reads hf (w := w) ⟨⟨hpos, hmax⟩, by omega⟩
    have hfirst : t.val = v := by
      apply BitVec.eq_of_toNat_eq
      rw [htval, ← s.streamRead_add_div _ _ (totalBits (ps.map (·.1))), hread, Nat.mul_comm,
        Nat.mul_add_div (Nat.two_pow_pos _), Nat.div_eq_of_lt hlt, Nat.add_zero]
    have hothers : t.streamRead t.cur.toNat (totalBits (ps.map (·.1))) = concatFields ps := by
      rw [State.streamRead_congr fun i _ => hstream _, hcur, ← s.streamRead_add_mod, hread, Nat.mul_comm, Nat.mul_add_mod,
        Nat.mod_eq_of_lt hlt]
    obtain ⟨u, hu⟩ := ih hft hrest (by rw [hcur, hparams]; omega) hothers (vs ++ [v])
    refine ⟨u, ?_⟩
    rw [List.map_cons, unpackAll_cons hunpack, hfirst, hu, List.map_cons, List.append_assoc, List.singleton_append]

/-- Settles O14: VAL is the stream read of the field; and what rule R108 leaves in the stream is read back value by value. -/
theorem unpackIgnoresOutsideBits : Obligations.UnpackIgnoresOutsideBits := by
  refine ⟨?sameField, ?sequence⟩
  case sameField =>
    intro w s s' hf hf' hfits hfits' hcur hfield
    obtain ⟨t, hunpack, -, -, -, -, hval⟩ := exec_unpackbits_reads hf hfits
    obtain ⟨t', hunpack', -, -, -, -, hval'⟩ := exec_unpackbits_reads hf' hfits'
    refine ⟨t, t', hunpack, hunpack', BitVec.eq_of_toNat_eq ?_⟩
    rw [hval', hval, hcur]
    exact State.streamRead_congr fun i hi => hfield _ (by omega) (by omega)
  case sequence =>
    intro ps b0 s hf hcur hps hbounds hzero
    obtain ⟨t, hall, hft, hparams, -, -, hread⟩ := packAll_of_zero_bytes hf hcur hps hbounds hzero
    rw [← hcur] at hbounds hread
    rw [← t.streamRead_withCur s.cur] at hread
    obtain ⟨u, hu⟩ := unpackAll_of_streamRead (s := { t with cur := s.cur }) hft hps (hparams ▸ hbounds) hread []
    exact ⟨t, u, hall, hu⟩

end Sys2Proof.Machine

/-! PROOFS. The statements of 41_block_codec.md: the two block commands in full, the layout of the packed block, the engines as networks of
slices, and the block path against the cursor path; with the lemmas about the fields of an integer and about lanes that they rest on. -/

namespace Sys2Proof.Machine

/-! ### Fields of an integer, from the most significant bit on (rules R13, R132) -/

/-- The `n` bits from bit `p` on, counted from the most significant, of an integer `t` of `total` bits. -/
def bitsAt (total t p n : Nat) : Nat :=
  t / 2 ^ (total - n - p) % 2 ^ n

theorem testBit_bitsAt (total t p n i : Nat) :
    (bitsAt total t p n).testBit i = (decide (i < n) && t.testBit (i + (total - n - p))) := by
  rw [bitsAt, Nat.testBit_mod_two_pow, Nat.testBit_div_two_pow]

theorem bitsAt_lt (total t p n : Nat) : bitsAt total t p n < 2 ^ n :=
  Nat.mod_lt _ (Nat.two_pow_pos n)

@[simp] theorem bitsAt_width_zero (total t p : Nat) : bitsAt total t p 0 = 0 :=
  Nat.mod_one _

/-- A field is the concatenation of its two parts. -/
theorem bitsAt_add {total p n k : Nat} (h : p + n + k ≤ total) (t : Nat) :
    bitsAt total t p (n + k) = bitsAt total t p n * 2 ^ k + bitsAt total t (p + n) k := by
  apply Nat.eq_of_testBit_eq
  intro i
  rw [Nat.mul_comm, Nat.testBit_two_pow_mul_add _ (bitsAt_lt ..)]
  simp only [testBit_bitsAt]
  split
  · rw [decide_eq_true (by omega : i < n + k), decide_eq_true ‹i < k›,
      show total - (n + k) - p = total - k - (p + n) by omega]
  · rw [show i - k + (total - n - p) = i + (total - (n + k) - p) by omega]
    exact congrArg (· && _) (decide_eq_decide.mpr (by omega))

/-- A field of a field is a field. -/
theorem bitsAt_bitsAt {total p n q k : Nat} (hp : p + n ≤ total) (hq : q + k ≤ n) (t : Nat) :
    bitsAt n (bitsAt total t p n) q k = bitsAt total t (p + q) k := by
  apply Nat.eq_of_testBit_eq
  intro i
  simp only [testBit_bitsAt]
  by_cases hi : i < k
  · rw [decide_eq_true (by omega : i + (n - k - q) < n), Bool.true_and,
      show i + (n - k - q) + (total - n - p) = i + (total - k - (p + q)) by omega]
  · rw [decide_eq_false hi, Bool.false_and, Bool.false_and]

/-- A field of what a stream read returns is the stream read of that field (rule R15). -/
theorem State.bitsAt_streamRead (s : State) (p : Nat) {n q k : Nat} (hq : q + k ≤ n) :
    bitsAt n (s.streamRead p n) q k = s.streamRead (p + q) k := by
  apply Nat.eq_of_testBit_eq
  intro i
  rw [testBit_bitsAt, State.testBit_streamRead, State.testBit_streamRead]
  by_cases hi : i < k
  · rw [decide_eq_true (by omega : i + (n - k - q) < n), Bool.true_and,
      show p + n - 1 - (i + (n - k - q)) = p + q + k - 1 - i by omega]
  · rw [decide_eq_false hi, Bool.false_and, Bool.false_and]

/-- Field `j` of `count` fields of `w` bits ends with the last of them or before. -/
theorem field_end_le {j count : Nat} (w : Nat) (hj : j < count) : j * w + w ≤ count * w := by
  rw [← Nat.succ_mul]
  exact Nat.mul_le_mul_right w hj

/-! ### The lanes of a concatenation (rule R132) -/

/-- Bit `r` of field `j` of a concatenation, both from the most significant end, is bit `w-1-r` of value `j`. -/
theorem testBit_concatLanes_field {w j r : Nat} {vs : List Word} (hj : j < vs.length) (hr : r < w) :
    (concatLanes w vs).testBit (vs.length * w - 1 - (j * w + r)) = (vs.getD j 0).getLsbD (w - 1 - r) := by
  obtain ⟨n, hn⟩ := Nat.exists_eq_add_of_lt hj
  have hw : 0 < w := by omega
  have hlow : w - 1 - r < w := by omega
  have hindex : vs.length * w - 1 - (j * w + r) = w * n + (w - 1 - r) := by
    rw [hn, Nat.add_mul, Nat.add_mul, Nat.mul_comm n]
    omega
  have hpos : 0 < vs.length * w := Nat.mul_pos (by omega) hw
  have hlt : w * n + (w - 1 - r) < vs.length * w := by omega
  rw [testBit_concatLanes hw, hindex, decide_eq_true hlt, Bool.true_and, Nat.mul_add_div hw, Nat.div_eq_of_lt hlow,
    Nat.mul_add_mod, Nat.mod_eq_of_lt hlow, BitVec.testBit_toNat, show vs.length - 1 - (n + 0) = j by omega]

/-- Bit `q` from the most significant end of a concatenation is bit `w-1-(q mod w)` of value `q div w`. -/
theorem testBit_concatLanes_of_lt {w q : Nat} {vs : List Word} (hq : q < vs.length * w) :
    (concatLanes w vs).testBit (vs.length * w - 1 - q) = (vs.getD (q / w) 0).getLsbD (w - 1 - q % w) := by
  have hw : 0 < w := Nat.pos_of_ne_zero fun h => by simp [h] at hq
  have hbit := testBit_concatLanes_field ((Nat.div_lt_iff_lt_mul hw).mpr hq) (Nat.mod_lt q hw)
  rwa [Nat.div_add_mod'] at hbit

theorem concatLanes_lt {w : Nat} (hw : 0 < w) (vs : List Word) : concatLanes w vs < 2 ^ (vs.length * w) := by
  apply Nat.lt_pow_two_of_testBit
  intro i hi
  rw [testBit_concatLanes hw, decide_eq_false (by omega), Bool.false_and]

/-- Field `j` of the concatenation of values that fit is value `j`. -/
theorem bitsAt_concatLanes {w j : Nat} {vs : List Word} (hj : j < vs.length) (hfit : ∀ v ∈ vs, v.toNat < 2 ^ w) :
    bitsAt (vs.length * w) (concatLanes w vs) (j * w) w = (vs.getD j 0).toNat := by
  have hend := field_end_le w hj
  apply Nat.eq_of_testBit_eq
  intro i
  rw [testBit_bitsAt]
  by_cases hi : i < w
  · have hbit := testBit_concatLanes_field hj (by omega : w - 1 - i < w)
    rw [show vs.length * w - 1 - (j * w + (w - 1 - i)) = i + (vs.length * w - w - j * w) by omega,
      show w - 1 - (w - 1 - i) = i by omega] at hbit
    rw [decide_eq_true hi, Bool.true_and, BitVec.testBit_toNat, hbit]
  · have hmem : vs.getD j 0 ∈ vs := by rw [List.getD_eq_getElem _ _ hj]; exact List.getElem_mem hj
    have hpow : 2 ^ w ≤ 2 ^ i := Nat.pow_le_pow_right (by decide) (by omega)
    rw [decide_eq_false hi, Bool.false_and, Nat.testBit_lt_two_pow ((hfit _ hmem).trans_le hpow)]

@[simp] theorem State.length_lanes (s : State) : s.lanes.length = 8 :=
  Vector.length_toList

theorem State.getD_lanes (s : State) (j : Fin 8) : s.lanes.getD j.val 0 = s.blk[j] := by
  rw [List.getD_eq_getElem _ _ (by rw [State.length_lanes]; exact j.isLt)]
  exact Vector.getElem_toList _

/-- The lanes fit just when each of the eight does. -/
theorem State.forall_lanes_iff (s : State) (w : Nat) :
    (∀ v ∈ s.lanes, v.toNat < 2 ^ w) ↔ ∀ j : Fin 8, s.blk[j].toNat < 2 ^ w := by
  rw [← lanes_any_tooWide_eq_false_iff]
  simp [tooWide]

theorem concatLanes_lanes_lt {w : Nat} (hw : 0 < w) (s : State) : concatLanes w s.lanes < 2 ^ (8 * w) := by
  have := concatLanes_lt hw s.lanes
  rwa [State.length_lanes] at this

/-- Field `j` of the packed block is lane `j`. -/
theorem bitsAt_concatLanes_lanes {w : Nat} {s : State} (hfit : ∀ v ∈ s.lanes, v.toNat < 2 ^ w) (j : Fin 8) :
    bitsAt (8 * w) (concatLanes w s.lanes) (j.val * w) w = s.blk[j].toNat := by
  have := bitsAt_concatLanes (by rw [State.length_lanes]; exact j.isLt) hfit
  rwa [State.length_lanes, State.getD_lanes] at this

/-! ### What PACKBLK leaves in BUF (rules R131 to R134) -/

theorem exec_packblk_of_fits {w : BitVec 8} {s : State} (hf : s.faulted = false) (hfits : s.PackblkFits w.toNat) :
    exec (.packblk w) s = .next (packWindow w.toNat s).succeed :=
  exec_done hf ((packblkVerdict_iff_fits _ _).mpr hfits)

@[simp] theorem State.memRead_succeed (s : State) (a n : Nat) : s.succeed.memRead a n = s.memRead a n :=
  State.memRead_buf_congr (s := s.succeed) (t := s) rfl rfl a n

/-- Stream bit `q` of the window takes bit `w-1-(q mod w)` of lane `q div w` by OR. -/
theorem streamBit_packWindow {w : Nat} (hw : 1 ≤ w) (s : State) (q : Nat) :
    (packWindow w s).streamBit (8 * s.base.toNat + q) = (s.streamBit (8 * s.base.toNat + q) ||
      (decide (q < 8 * w) && (s.lanes.getD (q / w) 0).getLsbD (w - 1 - q % w))) := by
  rw [packWindow, State.streamBit_streamOr _ _ _ _ (by omega), decide_eq_true (by omega : 8 * s.base.toNat ≤ _), Bool.true_and,
    decide_eq_decide.mpr (by omega : 8 * s.base.toNat + q < 8 * s.base.toNat + 8 * w ↔ q < 8 * w)]
  by_cases hq : q < 8 * w
  · have hbit := testBit_concatLanes_of_lt (w := w) (q := q) (vs := s.lanes) (by rwa [State.length_lanes])
    rw [State.length_lanes] at hbit
    rw [← hbit, show 8 * s.base.toNat + 8 * w - 1 - (8 * s.base.toNat + q) = 8 * w - 1 - q by omega]
  · rw [decide_eq_false hq, Bool.false_and, Bool.false_and]

/-- The window's bytes are ORed with those of the concatenation, the most significant first. -/
theorem packWindow_eq_orBytes {w : Nat} (hw : 1 ≤ w) (s : State) :
    packWindow w s = s.orBytes s.base.toNat w (fieldByte (8 * s.base.toNat) (8 * w) (concatLanes w s.lanes)) := by
  have hcount : touchedCount (8 * s.base.toNat) (8 * w) = w := by
    unfold touchedCount
    omega
  rw [packWindow, State.streamOr, hcount, show 8 * s.base.toNat / 8 = s.base.toNat by omega]

/-- Byte `k` of the window in the packed block. -/
theorem fieldByte_window {w k : Nat} (hk : k < w) (s : State) :
    fieldByte (8 * s.base.toNat) (8 * w) (concatLanes w s.lanes) (s.base.toNat + k) =
      BitVec.ofNat 8 (bitsAt (8 * w) (concatLanes w s.lanes) (8 * k) 8) := by
  have hlt := concatLanes_lanes_lt (by omega : 0 < w) s
  rw [fieldByte_of_le_end hlt (by omega), bitsAt,
    show 8 * s.base.toNat + 8 * w - (8 * (s.base.toNat + k) + 8) = 8 * w - 8 - 8 * k by omega]
  exact BitVec.eq_of_toNat_eq (by simp)

/-- In a window of zero bytes every stream bit is 0. -/
theorem streamBit_of_zero_bytes {s : State} {a n : Nat} (hzero : ∀ x, a ≤ x → x < a + n → s.byte x = 0) :
    ∀ q, 8 * a ≤ q → q < 8 * a + 8 * n → s.streamBit q = false :=
  (State.streamZero_iff _ _ _).mp ((State.streamZero_bytes_iff _ _ _).mpr hzero)

/-- A window of zero bytes holds, read as one integer, the concatenation of the lanes (rule R132). -/
theorem memRead_packWindow {w : Nat} (hw : 1 ≤ w) {s : State}
    (hzero : ∀ a, s.base.toNat ≤ a → a < s.base.toNat + w → s.byte a = 0) :
    (packWindow w s).memRead s.base.toNat w = concatLanes w s.lanes := by
  rw [State.memRead_eq_streamRead, packWindow]
  exact State.streamRead_streamOr_of_zero s _ (by omega) (concatLanes_lanes_lt hw s)
    (streamBit_of_zero_bytes hzero)

/-- The stream read of field `j` of a window is field `j` of the window read as one integer. -/
theorem State.streamRead_lane (s : State) (a w : Nat) (j : Fin 8) :
    s.streamRead (8 * a + j.val * w) w = bitsAt (8 * w) (s.memRead a w) (j.val * w) w := by
  rw [State.memRead_eq_streamRead, State.bitsAt_streamRead s _ (field_end_le w j.isLt)]

/-- Into zero bytes PACKBLK leaves each lane in its field of the window. -/
theorem streamRead_packWindow_lane {w : Nat} (hw : 1 ≤ w) {s : State} (hfit : ∀ v ∈ s.lanes, v.toNat < 2 ^ w)
    (hzero : ∀ a, s.base.toNat ≤ a → a < s.base.toNat + w → s.byte a = 0) (j : Fin 8) :
    (packWindow w s).streamRead (8 * s.base.toNat + j.val * w) w = s.blk[j].toNat := by
  rw [State.streamRead_lane, memRead_packWindow hw hzero, bitsAt_concatLanes_lanes hfit]

/-! ### PACKBLK in full (rule R133) -/

/-- BOUNDS is the second check of PACKBLK (rule R216). -/
theorem packblkVerdict_of_outside {w : Nat} {s : State} (hw : 1 ≤ w ∧ w ≤ 63)
    (hbounds : s.params.bufLen < s.base.toNat + w) : packblkVerdict w s = .fault .bounds := by
  simp [packblkVerdict, (widthOk_iff w).mpr hw, windowOutside, hbounds]

/-- VALUE_RANGE is the third check of PACKBLK (rule R216). -/
theorem packblkVerdict_of_tooWide {w : Nat} {s : State} (hw : 1 ≤ w ∧ w ≤ 63)
    (hbounds : s.base.toNat + w ≤ s.params.bufLen) {j : Fin 8} (hval : 2 ^ w ≤ s.blk[j].toNat) :
    packblkVerdict w s = .fault .valueRange := by
  have hany : s.lanes.any (tooWide w) = true := by
    rw [← Bool.not_eq_false, lanes_any_tooWide_eq_false_iff]
    exact fun hfit => absurd (hfit j) (Nat.not_lt.mpr hval)
  simp [packblkVerdict, (widthOk_iff w).mpr hw, windowOutside, Nat.not_lt.mpr hbounds, hany]

/-- A window byte that is not 0 makes the window dirty (rule R134). -/
theorem dirty_of_byte {s : State} (hmode : s.params.dirtyMode = .fault) {a x n : Nat} (hlo : a ≤ x) (hhi : x < a + n)
    (hbyte : s.byte x ≠ 0) : dirty s (8 * a) (8 * n) = true := by
  rw [← Bool.not_eq_false, dirty_eq_false_iff, ← State.streamZero_iff, State.streamZero_bytes_iff]
  exact fun hclean => hbyte (hclean hmode x hlo hhi)

/-- What PACKBLK leaves when its checks pass (rule R133). -/
theorem exec_packblk_completes {w : BitVec 8} {s : State} (hf : s.faulted = false) (hfits : s.PackblkFits w.toNat) :
    ∃ t, exec (.packblk w) s = .next t ∧
      t = { s with buf := t.buf, status := t.status } ∧
      (∀ q, t.streamBit (8 * s.base.toNat + q) = (s.streamBit (8 * s.base.toNat + q) ||
        (decide (q < 8 * w.toNat) && (s.blk.toList.getD (q / w.toNat) 0).getLsbD (w.toNat - 1 - q % w.toNat)))) ∧
      (∀ a, a < s.base.toNat ∨ s.base.toNat + w.toNat ≤ a → t.byte a = s.byte a) ∧
      statusErr t.status = 0 ∧ ∀ i, 4 ≤ i → t.status.getLsbD i = s.status.getLsbD i := by
  have ⟨⟨hpos, _⟩, _⟩ := hfits
  have hstatus : (packWindow w.toNat s).succeed.status = withErr s.status errOk := by
    rw [State.succeed_status, packWindow_eq]
  refine ⟨_, exec_packblk_of_fits hf hfits, ?frame, streamBit_packWindow hpos s,
    fun a ha => byte_packWindow_outside hpos s ha, ?err, fun i hi => ?status⟩
  case frame => rw [State.succeed, packWindow_eq]
  case err => rw [hstatus, statusErr_withErr, errOk]
  case status => rw [hstatus, getLsbD_withErr_of_le _ _ hi]

/-- The example of rule R133: the lanes 1, 0, 1, 0, 1, 0, 1, 0 at width 1. -/
theorem packblk_example {s : State} (hf : s.faulted = false) (hbounds : s.base.toNat < s.params.bufLen)
    (hbyte : s.byte s.base.toNat = 0) (hblk : s.blk = #v[1, 0, 1, 0, 1, 0, 1, 0]) :
    ∃ t, exec (.packblk 1) s = .next t ∧ t.byte s.base.toNat = 0xAA := by
  have hclean : ∀ a, s.base.toNat ≤ a → a < s.base.toNat + 1 → s.byte a = 0 := fun a hlo hhi => by
    rwa [show a = s.base.toNat by omega]
  have hfits : s.PackblkFits (1 : BitVec 8).toNat :=
    ⟨by decide, hbounds, (s.forall_lanes_iff _).mpr (by rw [hblk]; decide), fun _ => hclean⟩
  refine ⟨_, exec_packblk_of_fits hf hfits, ?_⟩
  have hwindow := (packWindow 1 s).byte_eq_of_memRead s.base.toNat Nat.one_pos
  rw [memRead_packWindow (by decide) hclean, State.lanes, hblk] at hwindow
  exact hwindow.trans (by decide)

/-- Settles O15: the four checks pass and the lanes are ORed in, or the first check that fails gives the outcome. -/
theorem packblkFollowsItsRule : Obligations.PackblkFollowsItsRule := by
  refine ⟨fun w s hf => ⟨exec_packblk_completes hf, fun hw => ?width, fun hpos hmax => ⟨fun hbounds => ?bounds,
    fun hbounds => ⟨fun ⟨j, hval⟩ => ?range, fun hval hmode ⟨a, hlo, hhi, hbyte⟩ => ?dirty⟩⟩⟩, fun s => packblk_example⟩
  case width => exact exec_invalidWidth hf (packblkVerdict_of_bad_width ((widthOk_eq_false_iff _).mpr hw) s)
  case bounds => exact exec_fault hf (packblkVerdict_of_outside ⟨hpos, hmax⟩ hbounds)
  case range => exact exec_fault hf (packblkVerdict_of_tooWide ⟨hpos, hmax⟩ hbounds hval)
  case dirty =>
    exact exec_fault hf (packblkVerdict_of_dirty ⟨hpos, hmax⟩ hbounds ((s.forall_lanes_iff _).mpr hval)
      (dirty_of_byte hmode hlo hhi hbyte))

/-! ### The layout of the packed block (rule R132) -/

theorem State.lanes_eq (s : State) :
    s.lanes = [s.blk[0], s.blk[1], s.blk[2], s.blk[3], s.blk[4], s.blk[5], s.blk[6], s.blk[7]] := by
  apply List.ext_getElem
  · rw [State.length_lanes]
    rfl
  · intro j hj hj'
    rw [State.length_lanes] at hj
    interval_cases j <;> exact Vector.getElem_toList _

/-- Values that fit are joined unchanged. -/
theorem concatLanes_of_fits {w : Nat} {vs : List Word} (hfit : ∀ v ∈ vs, v.toNat < 2 ^ w) :
    concatLanes w vs = vs.foldl (fun t v => t * 2 ^ w + v.toNat) 0 :=
  List.foldl_ext _ _ _ fun t v hv => by rw [Nat.mod_eq_of_lt (hfit v hv)]

/-- Settles O17: the window is the concatenation of the lanes, and each of its bits the OR of a 0 and a lane's bit. -/
theorem packedBlockLayout : Obligations.PackedBlockLayout := by
  intro w s hf hfits hzero
  have ⟨⟨hpos, _⟩, _, hfit, _⟩ := hfits
  refine ⟨_, exec_packblk_of_fits hf hfits, ?integer, fun k i hk hi => ?bits⟩
  case integer =>
    rw [State.memRead_succeed, memRead_packWindow hpos hzero, concatLanes_of_fits (vs := s.lanes) hfit, State.lanes_eq]
    simp only [List.foldl_cons, List.foldl_nil, Nat.zero_mul, Nat.zero_add]
  case bits =>
    have hclean : s.streamBit (8 * s.base.toNat + (8 * k + i)) = false :=
      streamBit_of_zero_bytes hzero _ (by omega) (by omega)
    rw [State.byte_succeed, ← State.streamBit_of_byte _ _ hi, Nat.mul_add, Nat.add_assoc, streamBit_packWindow hpos, hclean,
      Bool.false_or, decide_eq_true (by omega), Bool.true_and]
    rfl

/-! ### UNPACKBLK in full (rule R140) -/

theorem exec_unpackblk_of_fits {w : BitVec 8} {s : State} (hf : s.faulted = false) (hfits : s.UnpackblkFits w.toNat) :
    exec (.unpackblk w) s = .next (unpackWindow w.toNat s).succeed :=
  exec_done hf ((unpackblkVerdict_iff_fits _ _).mpr hfits)

/-- BOUNDS is the last check of UNPACKBLK (rule R216). -/
theorem unpackblkVerdict_of_outside {w : Nat} {s : State} (hw : 1 ≤ w ∧ w ≤ 63)
    (hbounds : s.params.bufLen < s.base.toNat + w) : unpackblkVerdict w s = .fault .bounds := by
  simp [unpackblkVerdict, (widthOk_iff w).mpr hw, windowOutside, hbounds]

/-- Lane `j` takes the stream bits `j*w .. j*w+w-1` of the window. -/
theorem unpackWindow_blk (w : Nat) (s : State) (j : Fin 8) :
    (unpackWindow w s).blk[j] = BitVec.ofNat 64 (s.streamRead (8 * s.base.toNat + j.val * w) w) := by
  rw [State.streamRead_lane]
  fin_cases j <;> rfl

/-- The new lanes fit in 64 bits. -/
theorem toNat_unpackWindow_blk {w : Nat} (hw : w ≤ 63) (s : State) (j : Fin 8) :
    (unpackWindow w s).blk[j].toNat = s.streamRead (8 * s.base.toNat + j.val * w) w := by
  rw [unpackWindow_blk, toNat_ofNat_streamRead s _ hw]

/-- What UNPACKBLK leaves when its checks pass (rule R140). -/
theorem exec_unpackblk_completes {w : BitVec 8} {s : State} (hf : s.faulted = false) (hfits : s.UnpackblkFits w.toNat) :
    ∃ t, exec (.unpackblk w) s = .next t ∧
      t = { s with blk := t.blk, status := t.status } ∧
      (∀ (j : Fin 8) (i : Nat), t.blk[j].getLsbD i =
        (decide (i < w.toNat) && s.streamBit (8 * s.base.toNat + j.val * w.toNat + w.toNat - 1 - i))) ∧
      (∀ j : Fin 8, t.blk[j].toNat < 2 ^ w.toNat) ∧
      statusErr t.status = 0 ∧ ∀ i, 4 ≤ i → t.status.getLsbD i = s.status.getLsbD i := by
  have ⟨⟨_, hmax⟩, _⟩ := hfits
  refine ⟨_, exec_unpackblk_of_fits hf hfits, rfl, fun j i => ?bits, fun j => ?range, statusErr_withErr _ _,
    fun i hi => getLsbD_withErr_of_le _ _ hi⟩
  case bits => rw [← BitVec.testBit_toNat, State.succeed_blk, toNat_unpackWindow_blk hmax, State.testBit_streamRead]
  case range => rw [State.succeed_blk, toNat_unpackWindow_blk hmax]; exact s.streamRead_lt _ _

/-- The example of rule R140: the window `10101010` at width 1. -/
theorem unpackblk_example {s : State} (hf : s.faulted = false) (hbounds : s.base.toNat < s.params.bufLen)
    (hbyte : s.byte s.base.toNat = 0xAA) :
    ∃ t, exec (.unpackblk 1) s = .next t ∧ t.blk = #v[1, 0, 1, 0, 1, 0, 1, 0] := by
  have hread : s.memRead s.base.toNat (1 : BitVec 8).toNat = 0xAA := by
    rw [show (1 : BitVec 8).toNat = 0 + 1 from rfl, State.memRead, State.memRead, Nat.add_zero, hbyte]
    rfl
  refine ⟨_, exec_unpackblk_of_fits hf ⟨by decide, hbounds⟩, ?_⟩
  simp only [State.succeed_blk, unpackWindow, hread]
  rfl

/-- Settles O16: the two checks pass and each lane is its stream read, or the first check that fails gives the outcome. -/
theorem unpackblkFollowsItsRule : Obligations.UnpackblkFollowsItsRule := by
  refine ⟨fun w s hf => ⟨exec_unpackblk_completes hf, fun hw => ?width, fun hpos hmax hbounds => ?bounds⟩,
    fun s => unpackblk_example⟩
  case width => exact exec_invalidWidth hf (unpackblkVerdict_of_bad_width ((widthOk_eq_false_iff _).mpr hw) s)
  case bounds => exact exec_fault hf (unpackblkVerdict_of_outside ⟨hpos, hmax⟩ hbounds)

/-! ### The engines as networks of slices (rules R137, R145) -/

/-- The slice of source `p div unit + i` that holds its stream bits among `p .. p+n-1`, the sources having `unit` bits each. -/
def sliceAt (unit p n i : Nat) : Slice :=
  let j := p / unit + i
  { src := j, hi := unit - 1 - (max p (j * unit) - j * unit), lo := unit - (min (p + n) (j * unit + unit) - j * unit) }

/-- The number of sources that hold a stream bit among `p .. p+n-1`. -/
def sliceCount (unit p n : Nat) : Nat :=
  (p + n - 1) / unit - p / unit + 1

/-- The stream position at which the first `i` of these slices end. -/
def sliceEnd (unit p n i : Nat) : Nat :=
  min (p + n) (max p ((p / unit + i) * unit))

/-- Window byte `k` is made of the slices of lanes, sources of `w` bits. -/
theorem packWiring_eq (w k : Nat) : packWiring w k = (List.range (sliceCount w (8 * k) 8)).map (sliceAt w (8 * k) 8) :=
  rfl

/-- Value `j` is made of the slices of window bytes, sources of 8 bits. -/
theorem unpackWiring_eq (w j : Nat) : unpackWiring w j = (List.range (sliceCount 8 (j * w) w)).map (sliceAt 8 (j * w) w) := by
  unfold unpackWiring sliceAt
  simp only [Nat.mul_comm _ 8]
  rfl

theorem joinSlices_concat (source : Nat → Nat) (sl : List Slice) (x : Slice) :
    joinSlices source (sl ++ [x]) =
      joinSlices source sl * 2 ^ (x.hi - x.lo + 1) + sliceOf x.hi x.lo (source x.src) := by
  simp [joinSlices, List.foldl_append]

/-- A slice of an `n`-bit integer, by its positions from the most significant bit on. -/
theorem sliceOf_eq_bitsAt {n hi lo : Nat} (hhi : hi < n) (hlo : lo ≤ hi) (x : Nat) :
    sliceOf hi lo x = bitsAt n x (n - 1 - hi) (hi - lo + 1) := by
  rw [sliceOf, bitsAt, show n - (hi - lo + 1) - (n - 1 - hi) = lo by omega]

theorem sliceEnd_zero (unit p n : Nat) : sliceEnd unit p n 0 = p := by
  have := Nat.div_mul_le_self p unit
  rw [sliceEnd, Nat.add_zero]
  omega

theorem sliceEnd_count {unit : Nat} (hunit : 0 < unit) (p : Nat) {n : Nat} (hn : 0 < n) :
    sliceEnd unit p n (sliceCount unit p n) = p + n := by
  have hfirst : p / unit ≤ (p + n - 1) / unit := Nat.div_le_div_right (by omega)
  have hlast : p + n - 1 < ((p + n - 1) / unit + 1) * unit := by
    rw [Nat.mul_comm]
    exact Nat.lt_mul_div_succ _ hunit
  rw [sliceEnd, sliceCount, ← Nat.add_assoc, Nat.add_sub_cancel' hfirst]
  omega

/-- Slice `i` is the field of the sources' stream from where the slices before it end to where it ends. -/
theorem sliceAt_bounds {unit p n i : Nat} (hunit : 0 < unit) (hn : 0 < n) (hi : i < sliceCount unit p n) :
    let x := sliceAt unit p n i
    x.lo ≤ x.hi ∧ x.hi < unit ∧ x.src * unit + (unit - 1 - x.hi) = sliceEnd unit p n i ∧
      sliceEnd unit p n i + (x.hi - x.lo + 1) = sliceEnd unit p n (i + 1) := by
  have hlow : p < (p / unit + i) * unit + unit := by
    have := Nat.lt_div_mul_add (a := p) hunit
    rw [Nat.add_mul]
    omega
  have hhigh : (p / unit + i) * unit < p + n := by
    have hsrc : p / unit + i ≤ (p + n - 1) / unit := by
      have : p / unit ≤ (p + n - 1) / unit := Nat.div_le_div_right (by omega)
      unfold sliceCount at hi
      omega
    have := (Nat.le_div_iff_mul_le hunit).mp hsrc
    omega
  simp only [sliceAt, sliceEnd, ← Nat.add_assoc, Nat.succ_mul]
  omega

/-- Joining the slices of sources that are the fields of one integer gives the field that they make up (rule R137). -/
theorem joinSlices_eq_bitsAt {unit count total p n t : Nat} {source : Nat → Nat} (hunit : 0 < unit) (htotal : count * unit = total)
    (hsource : ∀ j < count, source j = bitsAt total t (j * unit) unit) (hn : 0 < n) (hp : p + n ≤ total) :
    joinSlices source ((List.range (sliceCount unit p n)).map (sliceAt unit p n)) = bitsAt total t p n := by
  have hprefix : ∀ i ≤ sliceCount unit p n, p ≤ sliceEnd unit p n i ∧
      joinSlices source ((List.range i).map (sliceAt unit p n)) = bitsAt total t p (sliceEnd unit p n i - p) := by
    intro i hi
    induction i with
    | zero => simp [sliceEnd_zero, joinSlices]
    | succ i ih =>
      obtain ⟨hle, hjoin⟩ := ih (by omega)
      obtain ⟨hlo, hhi, hstart, hend⟩ := sliceAt_bounds hunit hn hi
      have hlast : sliceEnd unit p n (i + 1) ≤ p + n := Nat.min_le_left _ _
      have hsrc : (sliceAt unit p n i).src < count :=
        Nat.lt_of_mul_lt_mul_right (a := unit) (by omega)
      have hfits : (sliceAt unit p n i).src * unit + unit ≤ total := htotal ▸ field_end_le unit hsrc
      refine ⟨by omega, ?_⟩
      rw [List.range_succ, List.map_append, List.map_singleton, joinSlices_concat, hjoin, hsource _ hsrc,
        sliceOf_eq_bitsAt hhi hlo, bitsAt_bitsAt hfits (by omega), hstart, ← hend, Nat.sub_add_comm hle,
        bitsAt_add (n := sliceEnd unit p n i - p) (by omega), Nat.add_sub_cancel' hle]
  rw [(hprefix _ (le_refl _)).2, sliceEnd_count hunit p hn, Nat.add_sub_cancel_left]

/-- Window byte `k` as the network of engine E_w forms it is byte `k` of the concatenation. -/
theorem enginePackByte_eq {w k : Nat} (hk : k < w) {s : State} (hfit : ∀ v ∈ s.lanes, v.toNat < 2 ^ w) :
    enginePackByte w s.lanes k = BitVec.ofNat 8 (bitsAt (8 * w) (concatLanes w s.lanes) (8 * k) 8) := by
  rw [enginePackByte, packWiring_eq, joinSlices_eq_bitsAt (count := 8) (by omega) rfl ?_ (by omega) (by omega)]
  intro j hj
  rw [State.getD_lanes s ⟨j, hj⟩]
  exact (bitsAt_concatLanes_lanes hfit ⟨j, hj⟩).symm

/-- Value `j` as the network of engine E_w forms it is slice `j` of the window (rule R140). -/
theorem engineUnpackLane_eq {w j : Nat} (hw : 1 ≤ w) (hj : j < 8) (s : State) :
    engineUnpackLane w s j = laneOf w (s.memRead s.base.toNat w) j := by
  rw [engineUnpackLane, unpackWiring_eq, joinSlices_eq_bitsAt (by omega) (Nat.mul_comm w 8) ?_ hw (field_end_le w hj)]
  · rfl
  intro k hk
  rw [State.memRead_eq_streamRead, State.bitsAt_streamRead s _ (by omega), State.byte_toNat, Nat.mul_add, Nat.mul_comm k]

theorem State.orBytes_congr {s : State} {a n : Nat} {f g : Nat → Byte} (h : ∀ k < n, f (a + k) = g (a + k)) :
    s.orBytes a n f = s.orBytes a n g := by
  induction n generalizing s a with
  | zero => rfl
  | succ n ih =>
    rw [State.orBytes, State.orBytes, show f a = g a from h 0 (by omega)]
    refine ih fun k hk => ?_
    rw [Nat.add_assoc, Nat.add_comm 1]
    exact h _ (by omega)

theorem enginePack_eq_packWindow {w : Nat} (hw : 1 ≤ w) {s : State} (hfit : ∀ v ∈ s.lanes, v.toNat < 2 ^ w) :
    enginePack w s = packWindow w s := by
  rw [packWindow_eq_orBytes hw, enginePack]
  refine State.orBytes_congr fun k hk => ?_
  rw [fieldByte_window hk, Nat.add_sub_cancel_left, enginePackByte_eq hk hfit]

theorem engineUnpack_eq_unpackWindow {w : Nat} (hw : 1 ≤ w) (s : State) : engineUnpack w s = unpackWindow w s := by
  simp only [engineUnpack, unpackWindow, engineUnpackLane_eq hw, Nat.reduceLT]

/-- Settles O18: the networks leave what the closed forms leave. -/
theorem engineNetworks : Obligations.EngineNetworks := by
  intro w s hf
  constructor
  · intro hfits
    have ⟨⟨hpos, _⟩, _, hfit, _⟩ := hfits
    rw [enginePack_eq_packWindow hpos hfit]
    exact exec_packblk_of_fits hf hfits
  · intro hfits
    rw [engineUnpack_eq_unpackWindow hfits.1.1]
    exact exec_unpackblk_of_fits hf hfits

/-! ### The dispatcher (rule R130) -/

theorem packblkVerdict_ne_invalidWidth {w : Nat} (hw : widthOk w = true) (s : State) : packblkVerdict w s ≠ .invalidWidth := by
  simp only [packblkVerdict, hw]
  (repeat' split) <;> simp_all

theorem unpackblkVerdict_ne_invalidWidth {w : Nat} (hw : widthOk w = true) (s : State) :
    unpackblkVerdict w s ≠ .invalidWidth := by
  simp only [unpackblkVerdict, hw]
  (repeat' split) <;> simp_all

/-- A command that does not report InvalidWidth completes or takes a fault. -/
theorem exec_of_verdict_ne_invalidWidth {i : Instr} {s : State} (hf : s.faulted = false)
    (hv : commandVerdict i s ≠ .invalidWidth) :
    ∃ t, exec i s = .next t ∧ statusErr t.status ≠ 1 ∧
      (t.faulted = false → commandVerdict i s = .done ∧ t = (commandBody i s).succeed) := by
  cases h : commandVerdict i s with
  | done =>
    refine ⟨_, exec_done hf h, ?_, fun _ => ⟨rfl, rfl⟩⟩
    rw [State.succeed_status, statusErr_withErr, errOk]
    decide
  | invalidWidth => exact absurd h hv
  | fault c =>
    refine ⟨_, exec_fault hf h, ?_, fun hft => ?_⟩
    · rw [State.takeFault_err]
      decide
    · rw [State.takeFault_faulted] at hft
      cases hft

/-- Settles O31: a bad width is reported; with another the command is the engine's when it does not take a fault. -/
theorem widthDispatch : Obligations.WidthDispatch := by
  intro w s hf
  split
  case isTrue hw =>
    have hbad := (widthOk_eq_false_iff _).mpr hw
    exact ⟨exec_invalidWidth hf (packblkVerdict_of_bad_width hbad s),
      exec_invalidWidth hf (unpackblkVerdict_of_bad_width hbad s)⟩
  case isFalse hw =>
    have hok : widthOk w.toNat = true := by rwa [← Bool.not_eq_false, widthOk_eq_false_iff]
    have hpos := ((widthOk_iff _).mp hok).1
    constructor
    · obtain ⟨t, hexec, herr, hdone⟩ :=
        exec_of_verdict_ne_invalidWidth (i := .packblk w) hf (packblkVerdict_ne_invalidWidth hok s)
      refine ⟨t, hexec, herr, fun hft a => ?_⟩
      obtain ⟨hv, rfl⟩ := hdone hft
      obtain ⟨-, -, hfit, -⟩ := (packblkVerdict_done_iff _ _).mp hv
      rw [enginePack_eq_packWindow hpos hfit]
      rfl
    · obtain ⟨t, hexec, herr, hdone⟩ :=
        exec_of_verdict_ne_invalidWidth (i := .unpackblk w) hf (unpackblkVerdict_ne_invalidWidth hok s)
      refine ⟨t, hexec, herr, fun hft => ?_⟩
      obtain ⟨-, rfl⟩ := hdone hft
      rw [engineUnpack_eq_unpackWindow hpos]
      rfl

/-! ### The byte-aligned engines (rule R138) -/

theorem State.byte_memWrite (s : State) (a n v x : Nat) :
    (s.memWrite a n v).byte x =
      if a ≤ x ∧ x < a + n then BitVec.ofNat 8 (v / 2 ^ (8 * (a + n - 1 - x))) else s.byte x := by
  induction n generalizing s a with
  | zero => rw [State.memWrite, if_neg (by omega)]
  | succ n ih =>
    rw [State.memWrite, ih, State.byte_setByte]
    by_cases hx : x = a
    · rw [if_neg (by omega), if_pos hx, if_pos (by omega), hx, show a + (n + 1) - 1 - a = n by omega]
    · rw [if_neg hx, show a + 1 + n - 1 - x = a + (n + 1) - 1 - x by omega]
      exact if_congr (by omega) rfl rfl

/-- The byte-aligned engine writes the bytes of its lanes only. -/
theorem byte_alignedPack_outside {m a x : Nat} {vs : List Word} (hx : x < a ∨ a + vs.length * m ≤ x) (s : State) :
    (alignedPack m a vs s).byte x = s.byte x := by
  induction vs generalizing s a with
  | nil => rfl
  | cons v vs ih =>
    rw [List.length_cons, Nat.succ_mul] at hx
    rw [alignedPack, ih (by omega), State.byte_memWrite, if_neg (by omega)]

/-- Lane `j` stands, most significant byte first, in the `m` bytes from `a + j*m` on. -/
theorem byte_alignedPack {m a j k : Nat} {vs : List Word} (hj : j < vs.length) (hk : k < m) (s : State) :
    (alignedPack m a vs s).byte (a + j * m + k) = BitVec.ofNat 8 ((vs.getD j 0).toNat / 2 ^ (8 * (m - 1 - k))) := by
  induction vs generalizing s a j with
  | nil => exact absurd hj (Nat.not_lt_zero j)
  | cons v vs ih =>
    rw [alignedPack]
    cases j with
    | zero =>
      rw [byte_alignedPack_outside (by omega), State.byte_memWrite, if_pos (by omega),
        show a + m - 1 - (a + 0 * m + k) = m - 1 - k by omega, List.getD_cons_zero]
    | succ j =>
      rw [show a + (j + 1) * m + k = a + m + j * m + k by rw [Nat.succ_mul]; omega, ih (by simpa using hj), List.getD_cons_succ]

/-- A lane of whole bytes is read where it was packed. -/
theorem memRead_packWindow_lane {m : Nat} (hm : 1 ≤ m) {s : State} (hfit : ∀ v ∈ s.lanes, v.toNat < 2 ^ (8 * m))
    (hzero : ∀ a, s.base.toNat ≤ a → a < s.base.toNat + 8 * m → s.byte a = 0) (j : Fin 8) :
    (packWindow (8 * m) s).memRead (s.base.toNat + j.val * m) m = s.blk[j].toNat := by
  rw [State.memRead_eq_streamRead, ← streamRead_packWindow_lane (by omega) hfit hzero j, Nat.mul_add, Nat.mul_left_comm]

/-- Into zero bytes the closed form and the byte-aligned engine leave the same bytes. -/
theorem byte_packWindow_eq_alignedPack {m : Nat} (hm : 1 ≤ m) {s : State} (hfit : ∀ v ∈ s.lanes, v.toNat < 2 ^ (8 * m))
    (hzero : ∀ a, s.base.toNat ≤ a → a < s.base.toNat + 8 * m → s.byte a = 0) (a : Nat) :
    (packWindow (8 * m) s).byte a = (alignedPack m s.base.toNat s.lanes s).byte a := by
  by_cases ha : s.base.toNat ≤ a ∧ a < s.base.toNat + 8 * m
  · have hj : (a - s.base.toNat) / m < 8 := (Nat.div_lt_iff_lt_mul (by omega)).mpr (by omega)
    have hk : (a - s.base.toNat) % m < m := Nat.mod_lt _ (by omega)
    have hsplit : a = s.base.toNat + (a - s.base.toNat) / m * m + (a - s.base.toNat) % m := by
      rw [Nat.add_assoc, Nat.div_add_mod']
      omega
    rw [hsplit, byte_alignedPack (by rwa [State.length_lanes]) hk, State.byte_eq_of_memRead _ _ hk]
    exact congrArg (fun v => BitVec.ofNat 8 (v / _))
      ((memRead_packWindow_lane hm hfit hzero ⟨_, hj⟩).trans (congrArg _ (s.getD_lanes ⟨_, hj⟩).symm))
  · rw [byte_packWindow_outside (by omega) s (by omega), byte_alignedPack_outside (by rw [State.length_lanes]; omega)]

/-- Settles O20: a lane of whole bytes is the MemRead of its bytes, in both directions. -/
theorem byteAlignedEngines : Obligations.ByteAlignedEngines := by
  intro m w s hpos hmax hw hf
  constructor
  · intro hfits hzero
    have ⟨_, _, hfit, _⟩ := hfits
    refine ⟨_, exec_packblk_of_fits hf hfits, ?_⟩
    rw [hw] at hzero hfit ⊢
    exact ⟨byte_packWindow_eq_alignedPack hpos hfit hzero,
      fun j => (State.memRead_succeed _ _ _).trans (memRead_packWindow_lane hpos hfit hzero j)⟩
  · intro hfits
    refine ⟨_, exec_unpackblk_of_fits hf hfits, fun j => ?_⟩
    have hread : s.streamRead (8 * s.base.toNat + j.val * w.toNat) w.toNat = s.memRead (s.base.toNat + j.val * m) m := by
      rw [State.memRead_eq_streamRead, hw, Nat.mul_add, Nat.mul_left_comm]
    rw [State.succeed_blk, toNat_unpackWindow_blk hfits.1.2, unpackWindow_blk, hread, alignedUnpackLane]
    exact ⟨rfl, rfl⟩

/-! ### The alignment pattern (rule R139) -/

theorem laneStartOffset_add_period (w j : Nat) : laneStartOffset w (j + offsetPeriod w) = laneStartOffset w j := by
  have hgcd : Nat.gcd w 8 ∣ 8 := Nat.gcd_dvd_right w 8
  have hperiod : offsetPeriod w * w = 8 * (w / Nat.gcd w 8) := by
    rw [offsetPeriod, Nat.div_mul_right_comm hgcd, Nat.mul_div_assoc _ (Nat.gcd_dvd_left w 8)]
  rw [laneStartOffset, laneStartOffset, Nat.add_mul, hperiod, Nat.add_mul_mod_self_left]

/-- Within a period no two values start at the same offset. -/
theorem laneStartOffset_injOn_period {w i j : Nat} (hi : i < offsetPeriod w) (hj : j < offsetPeriod w)
    (h : laneStartOffset w i = laneStartOffset w j) : i = j := by
  have hmod : i ≡ j [MOD 8 / Nat.gcd 8 w] := Nat.ModEq.cancel_right_div_gcd (by decide) h
  rw [Nat.gcd_comm] at hmod
  exact hmod.eq_of_lt_of_lt hi hj

/-- Settles O21: quotient and remainder of the stream position, and the period by the cancellation of the common factor. -/
theorem alignmentPattern : Obligations.AlignmentPattern := by
  intro w j hw
  refine ⟨Nat.div_add_mod _ _, Nat.mod_lt _ (by decide), ?span, laneStartOffset_add_period w j, ?distinct⟩
  case span =>
    unfold laneStartByte laneSpan
    omega
  case distinct =>
    refine (List.nodup_map_iff_inj_on List.nodup_range).mpr fun i hi j hj h => ?_
    exact laneStartOffset_injOn_period (List.mem_range.mp hi) (List.mem_range.mp hj) h

/-! ### Two fields side by side are one field -/

/-- A byte that holds no bit of the field has none to OR in. -/
theorem fieldByte_outside {p w a : Nat} (ha : a < p / 8 ∨ (p + w - 1) / 8 < a) (v : Nat) : fieldByte p w v a = 0#8 := by
  apply BitVec.eq_of_getLsbD_eq
  intro j hj
  have hout : (decide (p ≤ 8 * a + (7 - j)) && decide (8 * a + (7 - j) < p + w)) = false := by
    rw [← Bool.decide_and]
    exact decide_eq_false (by omega)
  rw [getLsbD_fieldByte p w v a hj, hout, Bool.false_and, BitVec.getLsbD_zero]

/-- The bits of a field of `w` bits and of the field of `k` bits behind it are those of one field of `w + k` bits. -/
theorem fieldByte_or_fieldByte (p w : Nat) {k v' : Nat} (hv : v' < 2 ^ k) (v a : Nat) :
    fieldByte p w v a ||| fieldByte (p + w) k v' a = fieldByte p (w + k) (v * 2 ^ k + v') a := by
  apply BitVec.eq_of_getLsbD_eq
  intro j hj
  rw [BitVec.getLsbD_or, getLsbD_fieldByte _ _ _ _ hj, getLsbD_fieldByte _ _ _ _ hj, getLsbD_fieldByte _ _ _ _ hj,
    Nat.mul_comm v, Nat.testBit_two_pow_mul_add _ hv, ← Nat.add_assoc]
  generalize 8 * a + (7 - j) = q
  by_cases hq : p + w ≤ q
  · rw [decide_eq_false (by omega : ¬ q < p + w), decide_eq_true hq, decide_eq_true (by omega : p ≤ q), Bool.and_false,
      Bool.false_and, Bool.false_or, Bool.true_and]
    by_cases hk : q < p + w + k
    · rw [if_pos (by omega)]
    · rw [decide_eq_false hk, Bool.false_and, Bool.false_and]
  · rw [decide_eq_false hq, Bool.false_and, Bool.false_and, Bool.or_false, if_neg (by omega),
      decide_eq_true (by omega : q < p + w), decide_eq_true (by omega : q < p + w + k),
      show p + w + k - 1 - q - k = p + w - 1 - q by omega]

/-- The bytes that `orBytes` lists are those of its range. -/
theorem State.lookup_orBytes (s : State) (a n : Nat) (f : Nat → Byte) (x : Nat) :
    Memory.lookup (s.orBytes a n f).buf x =
      if a ≤ x ∧ x < a + n then some (s.byte x ||| f x) else Memory.lookup s.buf x := by
  induction n generalizing s a with
  | zero => rw [State.orBytes, if_neg (by omega)]
  | succ n ih =>
    rw [State.orBytes, ih, State.byte_orByte, State.orByte, State.setByte_buf, Memory.lookup_insert]
    by_cases hx : x = a
    · subst hx
      rw [if_neg (by omega), if_pos rfl, if_pos (by omega)]
    · rw [if_neg hx, if_neg hx]
      exact if_congr (by omega) rfl rfl

theorem State.lookup_streamOr (s : State) (p v x : Nat) {w : Nat} (hw : 1 ≤ w) :
    Memory.lookup (s.streamOr p w v).buf x =
      if p / 8 ≤ x ∧ x ≤ (p + w - 1) / 8 then some (s.byte x ||| fieldByte p w v x) else Memory.lookup s.buf x := by
  have hend := touchedCount_end p hw
  rw [State.streamOr, State.lookup_orBytes]
  exact if_congr (by omega) rfl rfl

theorem State.byte_streamOr (s : State) (p v x : Nat) {w : Nat} (hw : 1 ≤ w) :
    (s.streamOr p w v).byte x = s.byte x ||| fieldByte p w v x := by
  have hend := touchedCount_end p hw
  rw [State.streamOr, State.byte_orBytes]
  split
  · rfl
  · rw [fieldByte_outside (by omega), BitVec.or_zero]

/-- ORing two fields side by side leaves the written bytes that ORing them as one field leaves. -/
theorem State.lookup_streamOr_streamOr (s : State) (p v : Nat) {w k v' : Nat} (hw : 1 ≤ w) (hk : 1 ≤ k) (hv : v' < 2 ^ k)
    (x : Nat) :
    Memory.lookup ((s.streamOr p w v).streamOr (p + w) k v').buf x =
      Memory.lookup (s.streamOr p (w + k) (v * 2 ^ k + v')).buf x := by
  rw [State.lookup_streamOr _ _ _ _ hk, State.lookup_streamOr _ _ _ _ hw, State.lookup_streamOr _ _ _ _ (by omega : 1 ≤ w + k),
    State.byte_streamOr _ _ _ _ hw, ← fieldByte_or_fieldByte p w hv, BitVec.or_assoc]
  by_cases hsecond : (p + w) / 8 ≤ x ∧ x ≤ (p + w + k - 1) / 8
  · rw [if_pos hsecond, if_pos (by omega)]
  · rw [if_neg hsecond]
    by_cases hfirst : p / 8 ≤ x ∧ x ≤ (p + w - 1) / 8
    · rw [if_pos hfirst, if_pos (by omega), fieldByte_outside (p := p + w) (by omega), BitVec.or_zero]
    · rw [if_neg hfirst, if_neg (by omega)]

/-! ### What a sequence of PACKBITS leaves when it completes -/

theorem exec_packbits_of_unfaulted {w : BitVec 8} {s t : State} (h : exec (.packbits w) s = .next t) (ht : t.faulted = false) :
    s.PackbitsFits w.toNat ∧ t = (packField w.toNat s).succeed := by
  obtain ⟨hf, rfl⟩ | ⟨-, hv, rfl⟩ | ⟨-, hv, -⟩ | ⟨-, c, -, rfl⟩ := exec_cases h
  · rw [hf] at ht
    cases ht
  · exact ⟨(packbitsVerdict_iff_fits _ _).mp hv, rfl⟩
  · exact absurd hv (packbitsVerdict_ne_invalidWidth _ s)
  · rw [State.takeFault_faulted] at ht
    cases ht

theorem packAll_cons_next {w : BitVec 8} {v : Word} {ps : List (BitVec 8 × Word)} {s u : State}
    (h : packAll ((w, v) :: ps) s = .next u) :
    ∃ t, exec (.packbits w) (s.regWrite .val v) = .next t ∧ packAll ps t = .next u :=
  ⟨_, exec_eq _ _, (packAll_cons (exec_eq _ _) ps).symm.trans h⟩

/-- A faulted unit stays faulted. -/
theorem packAll_faulted {ps : List (BitVec 8 × Word)} {s u : State} (h : packAll ps s = .next u) (hs : s.faulted = true) :
    u.faulted = true := by
  induction ps generalizing s with
  | nil =>
    cases h
    exact hs
  | cons x ps ih =>
    obtain ⟨t, hexec, hrest⟩ := packAll_cons_next h
    have hready : (s.regWrite .val x.2).faulted = true := (State.regWrite_faulted ..).trans hs
    rw [exec_faulted hready] at hexec
    cases hexec
    exact ih hrest hready

/-- The first of the commands has completed, and the others start where it ends. -/
theorem packAll_cons_of_unfaulted {w : BitVec 8} {v : Word} {ps : List (BitVec 8 × Word)} {s u : State}
    (h : packAll ((w, v) :: ps) s = .next u) (hu : u.faulted = false) :
    (s.regWrite .val v).PackbitsFits w.toNat ∧ packAll ps (packField w.toNat (s.regWrite .val v)).succeed = .next u := by
  obtain ⟨t, hexec, hrest⟩ := packAll_cons_next h
  have ht : t.faulted = false := by
    rw [← Bool.not_eq_true]
    intro hft
    rw [packAll_faulted hrest hft] at hu
    cases hu
  obtain ⟨hfits, rfl⟩ := exec_packbits_of_unfaulted hexec ht
  exact ⟨hfits, hrest⟩

/-- The sequence changes VAL, CUR and BUF, and leaves ERR = 0. -/
theorem packAll_frame {ps : List (BitVec 8 × Word)} {s u : State} (hne : ps ≠ []) (h : packAll ps s = .next u)
    (hu : u.faulted = false) :
    u = { s with val := u.val, cur := u.cur, buf := u.buf, status := withErr s.status errOk } := by
  induction ps generalizing s with
  | nil => exact absurd rfl hne
  | cons x ps ih =>
    obtain ⟨-, hrest⟩ := packAll_cons_of_unfaulted h hu
    rw [packField_eq] at hrest
    cases ps with
    | nil =>
      cases hrest
      rfl
    | cons y ps =>
      rw [ih (List.cons_ne_nil y ps) hrest]
      simp only [State.succeed, State.regWrite, withErr_withErr]

/-- The sequence keeps BUF in canonical form. -/
theorem wf_packAll {ps : List (BitVec 8 × Word)} {s u : State} (h : packAll ps s = .next u) (hu : u.faulted = false)
    (hwf : Memory.wf s.buf = true) : Memory.wf u.buf = true := by
  induction ps generalizing s with
  | nil =>
    cases h
    exact hwf
  | cons x ps ih => exact ih (packAll_cons_of_unfaulted h hu).2 (commandBody_wf (.packbits x.1) (s := s.regWrite .val x.2) hwf)

/-- The written bytes are those of the concatenation ORed in as one field. -/
theorem lookup_packAll {ps : List (BitVec 8 × Word)} {s u : State} (hne : ps ≠ []) (hps : LegalFields ps)
    (h : packAll ps s = .next u) (hu : u.faulted = false) (x : Nat) :
    Memory.lookup u.buf x =
      Memory.lookup (s.streamOr s.cur.toNat (totalBits (ps.map (·.1))) (concatFields ps)).buf x := by
  induction ps generalizing s with
  | nil => exact absurd rfl hne
  | cons y ps ih =>
    obtain ⟨w, v⟩ := y
    obtain ⟨⟨hpos, -, -⟩, hrestLegal⟩ := legalFields_cons hps
    obtain ⟨⟨-, hbounds, -⟩, hrest⟩ := packAll_cons_of_unfaulted h hu
    have hfirst : (packField w.toNat (s.regWrite .val v)).succeed.buf = (s.streamOr s.cur.toNat w.toNat v.toNat).buf :=
      State.streamOr_buf_congr (s := s.regWrite .val v) (t := s) rfl rfl _ _ _
    rw [List.map_cons, totalBits_cons, concatFields_cons]
    cases ps with
    | nil =>
      cases hrest
      rw [hfirst, List.map_nil, totalBits_nil, concatFields_nil, Nat.pow_zero, Nat.mul_one, Nat.add_zero, Nat.add_zero]
    | cons z ps =>
      have hcur : (packField w.toNat (s.regWrite .val v)).succeed.cur.toNat = s.cur.toNat + w.toNat := toNat_advancedCur hbounds
      have htotal : 1 ≤ totalBits ((z :: ps).map (·.1)) := by
        rw [List.map_cons, totalBits_cons]
        exact Nat.le_add_right_of_le (legalFields_cons hrestLegal).1.1
      have hresets : (packField w.toNat (s.regWrite .val v)).succeed.resets =
          (s.streamOr s.cur.toNat w.toNat v.toNat).resets := by
        rw [packField_eq, State.streamOr_resets]
        rfl
      rw [ih (List.cons_ne_nil z ps) hrestLegal hrest, hcur, State.streamOr_buf_congr hfirst hresets,
        State.lookup_streamOr_streamOr s _ _ hpos htotal (concatFields_lt hrestLegal)]

/-! ### The block path and the cursor path into a zero window (rule R136) -/

@[simp] theorem totalBits_sameWidth (w : BitVec 8) (vs : List Word) :
    totalBits ((vs.map fun v => (w, v)).map (·.1)) = vs.length * w.toNat := by
  simp [totalBits, Function.comp_def]

/-- At one width the concatenation of rule R108 is that of rule R132. -/
theorem concatFields_sameWidth {w : BitVec 8} {vs : List Word} (hfit : ∀ v ∈ vs, v.toNat < 2 ^ w.toNat) :
    concatFields (vs.map fun v => (w, v)) = concatLanes w.toNat vs := by
  rw [concatFields, List.foldl_map, concatLanes_of_fits hfit]

theorem legalFields_sameWidth {w : BitVec 8} {vs : List Word} (hw : 1 ≤ w.toNat ∧ w.toNat ≤ 63)
    (hfit : ∀ v ∈ vs, v.toNat < 2 ^ w.toNat) : LegalFields (vs.map fun v => (w, v)) := by
  intro x hx
  obtain ⟨v, hv, rfl⟩ := List.mem_map.mp hx
  exact ⟨hw.1, hw.2, hfit v hv⟩

/-- The first stream position of a window in BUF does not wrap: BUF_LEN is at most 2^32 (00_scope.md rule R11). -/
theorem toNat_windowStart {s : State} {w : Nat} (hbounds : s.base.toNat + w ≤ s.params.bufLen) :
    (BitVec.ofNat 64 (8 * s.base.toNat) : Word).toNat = 8 * s.base.toNat := by
  rw [BitVec.toNat_ofNat]
  unfold Params.bufLen at hbounds
  omega

/-- The premises of rules R136 and R142 are those of PACKBLK, in both DIRTY_MODEs. -/
theorem packblkFits_of_zero {s : State} {w : Nat} (hpos : 1 ≤ w) (hmax : w ≤ 63) (hbounds : s.base.toNat + w ≤ s.params.bufLen)
    (hlanes : ∀ j : Fin 8, s.blk[j].toNat < 2 ^ w) (hzero : ∀ a, s.base.toNat ≤ a → a < s.base.toNat + w → s.byte a = 0) :
    s.PackblkFits w :=
  ⟨⟨hpos, hmax⟩, hbounds, (s.forall_lanes_iff w).mpr hlanes, fun _ => hzero⟩

/-- Eight PACKBITS from the start of a zero window complete, leave the written bytes that PACKBLK leaves, and differ from it in CUR
and VAL. -/
theorem packAll_lanes {w : BitVec 8} {s : State} (hf : s.faulted = false) (hfits : s.PackblkFits w.toNat)
    (hzero : ∀ a, s.base.toNat ≤ a → a < s.base.toNat + w.toNat → s.byte a = 0) :
    ∃ u, packAll (s.blk.toList.map fun v => (w, v)) { s with cur := BitVec.ofNat 64 (8 * s.base.toNat) } = .next u ∧
      u.faulted = false ∧ u.cur.toNat = 8 * (s.base.toNat + w.toNat) ∧
      u = { (packWindow w.toNat s).succeed with cur := u.cur, val := u.val, buf := u.buf } ∧
      ∀ x, Memory.lookup u.buf x = Memory.lookup (packWindow w.toNat s).buf x := by
  obtain ⟨hw, hbounds, hfit, -⟩ := hfits
  have hlegal := legalFields_sameWidth hw hfit
  have hcur := toNat_windowStart hbounds
  have hlength : s.blk.toList.length = 8 := s.length_lanes
  have hne : (s.blk.toList.map fun v => (w, v)) ≠ [] := by
    rw [← List.length_pos_iff, List.length_map, hlength]
    decide
  obtain ⟨u, hall, hfu, -, hcur', -⟩ :=
    packAll_of_zero_bytes (s := { s with cur := BitVec.ofNat 64 (8 * s.base.toNat) }) hf hcur hlegal
      (by rw [totalBits_sameWidth, hlength]; show _ ≤ 8 * s.params.bufLen; omega)
      (by rw [totalBits_sameWidth, hlength]; exact fun a hlo hhi => hzero a hlo (by omega))
  refine ⟨u, hall, hfu, ?cur, ?frame, fun x => ?written⟩
  case cur => rw [hcur', totalBits_sameWidth, hlength]; omega
  case frame =>
    rw [packAll_frame hne hall hfu, packWindow_eq]
    rfl
  case written =>
    rw [lookup_packAll hne hlegal hall hfu, totalBits_sameWidth, hlength, concatFields_sameWidth hfit, hcur]
    exact congrArg (Memory.lookup · x)
      (State.streamOr_buf_congr (s := { s with cur := BitVec.ofNat 64 (8 * s.base.toNat) }) (t := s) rfl rfl _ _ _)

theorem State.byte_of_lookup_eq {s t : State} {a : Nat} (h : Memory.lookup s.buf a = Memory.lookup t.buf a)
    (hresets : s.resets = t.resets) : s.byte a = t.byte a := by
  rw [State.byte, State.byte, h, hresets]

/-- Settles O22: both paths OR the concatenation of the lanes into the window, as one field or as eight. -/
theorem crossPathPack : Obligations.CrossPathPack := by
  intro w s hf hpos hmax hbounds hlanes hzero
  have hfits := packblkFits_of_zero hpos hmax hbounds hlanes hzero
  obtain ⟨u, hall, hfu, hcur, hframe, hwritten⟩ := packAll_lanes hf hfits hzero
  refine ⟨_, u, exec_packblk_of_fits hf hfits, hall,
    fun a => State.byte_of_lookup_eq (hwritten a) (by rw [hframe]), hcur, hframe,
    fun hwf => Memory.ext_of_wf (wf_packAll hall hfu hwf) (commandBody_wf (.packblk w) hwf) hwritten⟩

/-! ### The window read by both paths (rule R141) -/

/-- UNPACKBITS at one width reads the fields one behind the other. -/
theorem unpackAll_replicate {w : BitVec 8} (hpos : 1 ≤ w.toNat) (hmax : w.toNat ≤ 63) (n : Nat) {s : State}
    (hf : s.faulted = false) (hbounds : s.cur.toNat + n * w.toNat ≤ 8 * s.params.bufLen) (vs : List Word) :
    ∃ u, unpackAll (List.replicate n w) s vs =
        .next (u, vs ++ (List.range n).map fun j => BitVec.ofNat 64 (s.streamRead (s.cur.toNat + j * w.toNat) w.toNat)) ∧
      u.cur.toNat = s.cur.toNat + n * w.toNat := by
  induction n generalizing s vs with
  | zero => exact ⟨s, by simp [unpackAll], by omega⟩
  | succ n ih =>
    rw [Nat.succ_mul] at hbounds
    obtain ⟨t, hunpack, hft, hparams, hcur, hstream, hval⟩ := exec_unpackbits_reads hf (w := w) ⟨⟨hpos, hmax⟩, by omega⟩
    obtain ⟨u, hall, hcur'⟩ := ih hft (by rw [hcur, hparams]; omega) (vs ++ [t.val])
    have hfirst : t.val = BitVec.ofNat 64 (s.streamRead (s.cur.toNat + 0 * w.toNat) w.toNat) := by
      rw [Nat.zero_mul, Nat.add_zero, ← hval, BitVec.ofNat_toNat, BitVec.setWidth_eq]
    have hothers (j : Nat) : t.streamRead (t.cur.toNat + j * w.toNat) w.toNat =
        s.streamRead (s.cur.toNat + (j + 1) * w.toNat) w.toNat := by
      rw [hcur, Nat.succ_mul, Nat.add_right_comm, Nat.add_assoc]
      exact State.streamRead_congr fun i _ => hstream _
    refine ⟨u, ?_, by rw [hcur', hcur, Nat.succ_mul]; omega⟩
    rw [List.replicate_succ, unpackAll_cons hunpack, hall, List.range_succ_eq_map, List.map_cons, List.map_map, hfirst,
      List.append_assoc, List.singleton_append]
    simp only [hothers, Function.comp_def, Nat.succ_eq_add_one]

/-- The lanes that UNPACKBLK leaves, in order. -/
theorem lanes_unpackWindow (w : Nat) (s : State) :
    (unpackWindow w s).lanes =
      (List.range 8).map fun j => BitVec.ofNat 64 (s.streamRead (8 * s.base.toNat + j * w) w) := by
  apply List.ext_getElem
  · rw [State.length_lanes, List.length_map, List.length_range]
  · intro j hj hj'
    rw [State.length_lanes] at hj
    rw [List.getElem_map, List.getElem_range]
    exact (Vector.getElem_toList _).trans (unpackWindow_blk w s ⟨j, hj⟩)

/-- Eight UNPACKBITS from the start of the window read the lanes that UNPACKBLK leaves. -/
theorem unpackAll_window {w : BitVec 8} {s : State} (hf : s.faulted = false) (hfits : s.UnpackblkFits w.toNat) :
    ∃ u, unpackAll (List.replicate 8 w) { s with cur := BitVec.ofNat 64 (8 * s.base.toNat) } [] =
        .next (u, (unpackWindow w.toNat s).blk.toList) ∧
      u.cur.toNat = 8 * (s.base.toNat + w.toNat) := by
  obtain ⟨⟨hpos, hmax⟩, hbounds⟩ := hfits
  have hcur := toNat_windowStart hbounds
  obtain ⟨u, hall, hcur'⟩ := unpackAll_replicate hpos hmax 8 (s := { s with cur := BitVec.ofNat 64 (8 * s.base.toNat) }) hf
    (by rw [hcur]; show _ ≤ 8 * s.params.bufLen; omega) []
  refine ⟨u, ?_, by rw [hcur', hcur]; omega⟩
  rw [hall, List.nil_append, ← State.lanes, lanes_unpackWindow]
  simp only [hcur, State.streamRead_withCur]

/-- Settles O23: both paths read the fields of the window, one behind the other. -/
theorem crossPathUnpack : Obligations.CrossPathUnpack := by
  intro w s hf hfits
  obtain ⟨u, hall, hcur⟩ := unpackAll_window hf hfits
  exact ⟨_, u, exec_unpackblk_of_fits hf hfits, hall, hcur⟩

/-! ### The round trip (rule R142) -/

/-- UNPACKBLK restores the lanes that were packed into the window. -/
theorem unpackWindow_blk_of_packed {w : Nat} {s x : State} (hfits : s.PackblkFits w)
    (hzero : ∀ a, s.base.toNat ≤ a → a < s.base.toNat + w → s.byte a = 0) (hbase : x.base = s.base)
    (hbytes : ∀ a, x.byte a = (packWindow w s).byte a) : (unpackWindow w x).blk = s.blk := by
  obtain ⟨⟨hpos, hmax⟩, -, hfit, -⟩ := hfits
  apply Vector.ext
  intro j hj
  apply BitVec.eq_of_toNat_eq
  calc (unpackWindow w x).blk[j].toNat
      = x.streamRead (8 * s.base.toNat + j * w) w := by rw [← hbase]; exact toNat_unpackWindow_blk hmax x ⟨j, hj⟩
    _ = (packWindow w s).streamRead (8 * s.base.toNat + j * w) w :=
        State.streamRead_congr fun i _ => by rw [State.streamBit, State.streamBit, hbytes]
    _ = s.blk[j].toNat := streamRead_packWindow_lane hpos hfit hzero ⟨j, hj⟩

/-- Settles O24: the two packs leave the same bytes, and both ways to read them give the lanes of the window. -/
theorem roundTripBlock : Obligations.RoundTripBlock := by
  intro w s hf hpos hmax hbounds hlanes hzero
  have hfits := packblkFits_of_zero hpos hmax hbounds hlanes hzero
  obtain ⟨u, hall, hfu, -, hframe, hwritten⟩ := packAll_lanes hf hfits hzero
  refine ⟨_, u, exec_packblk_of_fits hf hfits, hall, fun x hx => ?_⟩
  have hpacked : x.faulted = false ∧ x.base = s.base ∧ x.params = s.params ∧
      ∀ a, x.byte a = (packWindow w.toNat s).byte a := by
    obtain rfl | rfl := hx
    · exact ⟨(State.succeed_faulted _).trans ((commandBody_faulted (.packblk w) s).trans hf), packWindow_base _ s,
        packWindow_params _ s, fun _ => rfl⟩
    · exact ⟨hfu, (congrArg State.base hframe).trans (packWindow_base _ s),
        (congrArg State.params hframe).trans (packWindow_params _ s),
        fun a => State.byte_of_lookup_eq (hwritten a) (by rw [hframe]; rfl)⟩
  obtain ⟨hfx, hbase, hparams, hbytes⟩ := hpacked
  have hblk := unpackWindow_blk_of_packed hfits hzero hbase hbytes
  have hfits' : x.UnpackblkFits w.toNat := ⟨⟨hpos, hmax⟩, by rw [hbase, hparams]; exact hbounds⟩
  constructor
  · intro k
    refine ⟨_, exec_unpackblk_of_fits (s := { x with blk := k }) hfx hfits', ?_⟩
    rw [State.succeed_blk, unpackWindow_ignores_blk, hblk]
  · obtain ⟨y, hread, -⟩ := unpackAll_window hfx hfits'
    rw [hblk] at hread
    rw [← hbase]
    exact ⟨y, hread⟩

end Sys2Proof.Machine

/-! PROOFS. The statements of 42_delta_pipeline.md: the deltas and their running sums, the length of the packed region, and what the host's
packing and unpacking programs leave and return; with the rules for programs run one after the other that they rest on. -/

namespace Sys2Proof.Machine

/-! ### The deltas and their running sums (rules R171, R177) -/

@[simp] theorem length_deltasFrom (prev : Word) (es : List Word) : (deltasFrom prev es).length = es.length := by
  induction es generalizing prev with
  | nil => rfl
  | cons e es ih => rw [deltasFrom, List.length_cons, List.length_cons, ih]

@[simp] theorem length_deltas (es : List Word) : (deltas es).length = es.length :=
  length_deltasFrom 0 es

/-- Delta `i` is the difference of entry `i` and the one before it, which for the first is `prev`. -/
theorem getD_deltasFrom (prev : Word) {es : List Word} {i : Nat} (hi : i < es.length) :
    (deltasFrom prev es).getD i 0 = es.getD i 0 - (prev :: es).getD i 0 := by
  induction es generalizing prev i with
  | nil => exact absurd hi (Nat.not_lt_zero i)
  | cons e es ih =>
    cases i with
    | zero => rfl
    | succ i => exact ih e (Nat.lt_of_succ_lt_succ hi)

theorem getD_deltas {es : List Word} {i : Nat} (hi : i < es.length) :
    (deltas es).getD i 0 = if i = 0 then es.getD 0 0 else es.getD i 0 - es.getD (i - 1) 0 := by
  rw [deltas, getD_deltasFrom 0 hi]
  cases i with
  | zero => exact BitVec.sub_zero _
  | succ i => rfl

/-- Settles O55: where entry `i` is not below entry `i - 1` their difference does not wrap. -/
theorem deltasOfEntries : Obligations.DeltasOfEntries := by
  refine fun es => ⟨length_deltas es, fun i hi => ⟨getD_deltas hi, fun hasc => ?_⟩⟩
  rw [getD_deltas hi]
  split
  case isTrue => rfl
  case isFalse hne =>
    have hle := List.pairwise_iff_getElem.mp hasc (i - 1) i (by omega) hi (by omega)
    rw [← List.getD_eq_getElem _ 0, ← List.getD_eq_getElem _ 0] at hle
    exact BitVec.toNat_sub_of_le hle

theorem sumsFrom_deltasFrom (prev : Word) (es : List Word) : sumsFrom prev (deltasFrom prev es) = es := by
  induction es generalizing prev with
  | nil => rfl
  | cons e es ih => rw [deltasFrom, sumsFrom, add_sub_cancel, ih]

/-- Settles O56: each sum restores the entry its delta was taken from. -/
theorem runningSumsGiveTheEntriesBack : Obligations.RunningSumsGiveTheEntriesBack :=
  sumsFrom_deltasFrom 0

/-! ### The length of the packed region (rule R175) -/

/-- The bits of the full groups and those of the tail are all the bits. -/
theorem group_bits_add_tail_bits (w n : Nat) : 8 * (groupCount n * w) + tailCount n * w = n * w := by
  rw [groupCount, tailCount, ← Nat.mul_assoc, ← Nat.add_mul, Nat.div_add_mod]

/-- Settles O57: the full groups end on a byte boundary. -/
theorem regionLength_eq : Obligations.RegionLength := by
  intro w n
  rw [regionLength, ← group_bits_add_tail_bits w n]
  omega

/-! ### Programs run one after the other (rule R200) -/

/-- A program that runs has well-formed transactions: the first acts, and the others run from the state it leaves. -/
theorem runProgram_cons_next {s t : State} {op : HostOp} {rest : List HostOp} (h : runProgram s (op :: rest) = .next t) :
    ∃ x u, resolve s.params op = .txn x ∧ programProblem s.params rest = none ∧ perform x s = .next u ∧
      runProgram u rest = .next t := by
  cases hstep : step { s with program := op :: rest } with
  | fault r => exact nomatch r
  | refused r => simp [runProgram, Host.Core.run, core, hstep] at h
  | next u =>
    obtain ⟨hnil, -⟩ | ⟨op', rest', x, hprogram, hproblem, hx, -⟩ := step_cases hstep
    · cases hnil
    · cases hprogram
      have hrest : programProblem s.params rest = none := by simpa [programProblem, hx] using hproblem
      obtain ⟨u, hu⟩ := perform_next x s
      exact ⟨x, u, hx, hrest, hu, (runProgram_cons (s := s) hx hrest hu).symm.trans h⟩

theorem programProblem_of_runProgram {s t : State} {ops : List HostOp} (h : runProgram s ops = .next t) :
    programProblem s.params ops = none := by
  cases ops with
  | nil => rfl
  | cons op rest =>
    obtain ⟨x, -, hx, hrest, -⟩ := runProgram_cons_next h
    simp [programProblem, hx, hrest]

/-- A program that runs to `t` and one that runs from `t`, joined, run as one. -/
theorem runProgram_append {s t u : State} {xs ys : List HostOp} (hxs : runProgram s xs = .next t)
    (hys : runProgram t ys = .next u) : runProgram s (xs ++ ys) = .next u := by
  induction xs generalizing s with
  | nil =>
    cases hxs
    exact hys
  | cons op xs ih =>
    obtain ⟨x, v, hx, -, hperform, hrest⟩ := runProgram_cons_next hxs
    have hjoined := ih hrest
    have hproblem := programProblem_of_runProgram hjoined
    rw [perform_params hperform] at hproblem
    rw [List.cons_append, runProgram_cons hx hproblem hperform, hjoined]

/-- Programs in sequence keep what each of them takes from its number to the next. -/
theorem runProgram_flatMap_range {f : Nat → List HostOp} {I : Nat → State → Prop} {s : State} {n : Nat}
    (hstart : I 0 { s with program := [] })
    (hstep : ∀ k < n, ∀ t, I k t → ∃ u, runProgram t (f k) = .next u ∧ I (k + 1) u) :
    ∃ t, runProgram s ((List.range n).flatMap f) = .next t ∧ I n t := by
  induction n with
  | zero => exact ⟨_, rfl, hstart⟩
  | succ n ih =>
    obtain ⟨t, ht, hI⟩ := ih fun k hk => hstep k (by omega)
    obtain ⟨u, hu, hI'⟩ := hstep n (by omega) t hI
    refine ⟨u, ?_, hI'⟩
    rw [List.range_succ, List.flatMap_append, List.flatMap_singleton]
    exact runProgram_append ht hu

/-! ### The lines of the pipeline's programs (rules R173, R174, R177) -/

/-- An address up to the end of BUF is a legal BASE: BUF_LEN is at most 2^32 (00_scope.md rule R11). -/
theorem toNat_ofNat_address {p : Params} {a : Nat} (ha : a ≤ p.bufLen) : (BitVec.ofNat 64 a : Word).toNat = a := by
  unfold Params.bufLen at ha
  rw [BitVec.toNat_ofNat]
  omega

/-! ### What the host's reads return (rule R201) -/

/-- The integer that a read returned. -/
def Returned.toNat : Returned → Nat
  | .reg _ v => v.toNat
  | .buf _ b => b.toNat

/-- From `s` to `t` the reads have returned the integers `xs`; the stream is as it was, and the unit is not faulted. -/
structure Reads (s t : State) (xs : List Nat) : Prop where
  faulted : t.faulted = false
  params : t.params = s.params
  stream : ∀ q, t.streamBit q = s.streamBit q
  returned : ∃ rs, t.trace = s.trace ++ rs ∧ rs.map Returned.toNat = xs

/-- What changes registers alone returns nothing. -/
theorem Reads.nothing {s t : State} (hf : t.faulted = false) (hparams : t.params = s.params)
    (hstream : ∀ q, t.streamBit q = s.streamBit q) (htrace : t.trace = s.trace) : Reads s t [] :=
  ⟨hf, hparams, hstream, [], htrace.trans (List.append_nil _).symm, rfl⟩

theorem Reads.trans {s t u : State} {xs ys : List Nat} (h : Reads s t xs) (h' : Reads t u ys) : Reads s u (xs ++ ys) where
  faulted := h'.faulted
  params := h'.params.trans h.params
  stream q := (h'.stream q).trans (h.stream q)
  returned := by
    obtain ⟨rs, hrs, rfl⟩ := h.returned
    obtain ⟨rs', hrs', rfl⟩ := h'.returned
    exact ⟨rs ++ rs', by rw [hrs', hrs, List.append_assoc], List.map_append⟩

/-- A write of BASE inside BUF. -/
theorem asmSetbase_reads {s : State} (hf : s.faulted = false) {a : Nat} (ha : a ≤ s.params.bufLen) :
    ∃ t, runProgram s (asmSetbase (BitVec.ofNat 64 a)) = .next t ∧ t.base.toNat = a ∧ t.blk = s.blk ∧ Reads s t [] :=
  ⟨_, runProgram_asmWr hf (by decide) _ rfl, toNat_ofNat_address ha, rfl, Reads.nothing hf rfl (fun _ => rfl) rfl⟩

/-- A write of CUR at the start of a byte inside BUF. -/
theorem asmSetcur_reads {s : State} (hf : s.faulted = false) {b : Nat} (hb : b ≤ s.params.bufLen) :
    ∃ t, runProgram s (asmSetcur b 0) = .next t ∧ t.cur.toNat = 8 * b ∧ Reads s t [] := by
  refine ⟨_, runProgram_asmWr hf (by decide) _ rfl, ?_, Reads.nothing hf rfl (fun _ => rfl) rfl⟩
  unfold Params.bufLen at hb
  exact (BitVec.toNat_ofNat ..).trans (by omega)

/-! ### Concatenations (rule R132) -/

theorem concatLanes_append (w : Nat) (us vs : List Word) :
    concatLanes w (us ++ vs) = concatLanes w us * 2 ^ (vs.length * w) + concatLanes w vs := by
  induction vs using List.reverseRecOn with
  | nil => simp [concatLanes]
  | append_singleton vs v ih =>
    rw [← List.append_assoc, concatLanes_concat, concatLanes_concat, ih, List.length_append, List.length_singleton,
      Nat.succ_mul, Nat.pow_add]
    ring

theorem concatLanes_cons {w : Nat} {v : Word} (hv : v.toNat < 2 ^ w) (vs : List Word) :
    concatLanes w (v :: vs) = v.toNat * 2 ^ (vs.length * w) + concatLanes w vs := by
  have hfirst : concatLanes w [v] = v.toNat := by simp [concatLanes, Nat.mod_eq_of_lt hv]
  rw [← List.singleton_append, concatLanes_append, hfirst]

/-! ### What a pack into zero bits leaves -/

/-- `t` is `s` but for the `n` stream bits from position `p` on, which hold the integer `x`, and is not faulted. -/
structure Fills (s t : State) (p n x : Nat) : Prop where
  faulted : t.faulted = false
  params : t.params = s.params
  outside : ∀ q, q < p ∨ p + n ≤ q → t.streamBit q = s.streamBit q
  field : t.streamRead p n = x

/-- The end of a program fills no bits. -/
theorem Fills.none {s : State} (hf : s.faulted = false) (p : Nat) : Fills s { s with program := [] } p 0 0 :=
  ⟨hf, rfl, fun _ _ => rfl, rfl⟩

/-- What is left to issue does not matter. -/
theorem Fills.idle {s t : State} {p n x : Nat} (h : Fills s t p n x) : Fills s { t with program := [] } p n x :=
  ⟨h.faulted, h.params, h.outside,
    (State.streamRead_buf_congr (s := { t with program := [] }) (t := t) rfl rfl p n).trans h.field⟩

/-- Reads leave the stream to the field filled after them. -/
theorem Reads.fills {s s' t : State} {xs : List Nat} {p n x : Nat} (h : Reads s s' xs) (h' : Fills s' t p n x) :
    Fills s t p n x :=
  ⟨h'.faulted, h'.params.trans h.params, fun q hq => (h'.outside q hq).trans (h.stream q), h'.field⟩

/-- A field filled behind another: together they are one field. -/
theorem Fills.trans {s t u : State} {p n k x y : Nat} (h : Fills s t p n x) (h' : Fills t u (p + n) k y) :
    Fills s u p (n + k) (x * 2 ^ k + y) where
  faulted := h'.faulted
  params := h'.params.trans h.params
  outside q hq := (h'.outside q (by omega)).trans (h.outside q (by omega))
  field := by
    have hfirst : u.streamRead p n = t.streamRead p n := State.streamRead_congr fun i hi => h'.outside _ (by omega)
    rw [State.streamRead_add, hfirst, h.field, h'.field]

/-- What lay behind the filled field lies there still. -/
theorem Fills.clean {s t : State} {p n x m : Nat} (h : Fills s t p n x)
    (hclean : ∀ q, p ≤ q → q < m → s.streamBit q = false) : ∀ q, p + n ≤ q → q < m → t.streamBit q = false :=
  fun q hlo hhi => (h.outside q (.inr hlo)).trans (hclean q (by omega) hhi)

/-! ### Packing a full group (rule R173) -/

/-- The eight values from number `m` on, as the lanes of a block. -/
def lanesFrom (ds : List Word) (m : Nat) : Vector Word 8 :=
  #v[ds.getD m 0, ds.getD (m + 1) 0, ds.getD (m + 2) 0, ds.getD (m + 3) 0,
     ds.getD (m + 4) 0, ds.getD (m + 5) 0, ds.getD (m + 6) 0, ds.getD (m + 7) 0]

theorem toList_lanesFrom {ds : List Word} {m : Nat} (hm : m + 8 ≤ ds.length) :
    (lanesFrom ds m).toList = (ds.drop m).take 8 := by
  apply List.ext_getElem
  · simp
    omega
  · intro j hj hj'
    rw [Vector.length_toList] at hj
    rw [List.getElem_take, List.getElem_drop, ← List.getD_eq_getElem ds 0]
    interval_cases j <;> rfl

/-- The lines before the command of group `g` load its lanes and the address of its window. -/
theorem packGroup_operands {s : State} (hf : s.faulted = false) {ds : List Word} {g a : Nat} (hg : 8 * g + 8 ≤ ds.length)
    (ha : a ≤ s.params.bufLen) :
    ∃ t, runProgram s (asmSetblk (lanesFrom ds (8 * g)) ++ asmSetbase (BitVec.ofNat 64 a)) = .next t ∧
      t.lanes = (ds.drop (8 * g)).take 8 ∧ t.base.toNat = a ∧ Reads s t [] := by
  have hblk : Reads s { s with blk := lanesFrom ds (8 * g), program := [] } [] := Reads.nothing hf rfl (fun _ => rfl) rfl
  obtain ⟨t, ht, hbase, hlanes, hreads⟩ := asmSetbase_reads hblk.faulted ha
  refine ⟨t, runProgram_append (runProgram_asmSetblk hf _) ht, ?_, hbase, hblk.trans hreads⟩
  rw [State.lanes, hlanes, toList_lanesFrom hg]

/-- PACKBLK into a window of zero bits fills it with the concatenation of the lanes. -/
theorem exec_packblk_fills {w : BitVec 8} {s : State} (hf : s.faulted = false) (hw : 1 ≤ w.toNat ∧ w.toNat ≤ 63)
    (hbounds : s.base.toNat + w.toNat ≤ s.params.bufLen) (hfit : ∀ v ∈ s.lanes, v.toNat < 2 ^ w.toNat)
    (hclean : ∀ q, 8 * s.base.toNat ≤ q → q < 8 * (s.base.toNat + w.toNat) → s.streamBit q = false) :
    ∃ t, exec (.packblk w) s = .next t ∧
      Fills s t (8 * s.base.toNat) (8 * w.toNat) (concatLanes w.toNat s.lanes) := by
  have hzero := (State.streamZero_bytes_iff s s.base.toNat w.toNat).mp
    ((State.streamZero_iff _ _ _).mpr fun q hlo hhi => hclean q hlo (by omega))
  refine ⟨_, exec_packblk_of_fits hf ⟨hw, hbounds, hfit, fun _ => hzero⟩, ?faulted, ?params, fun q hq => ?outside, ?field⟩
  case faulted => exact (State.succeed_faulted _).trans ((commandBody_faulted (.packblk w) s).trans hf)
  case params => exact packWindow_params _ s
  case outside => exact State.streamBit_streamOr_outside s _ _ (by omega) hq
  case field =>
    rw [State.streamRead_succeed, ← State.memRead_eq_streamRead, memRead_packWindow hw.1 hzero]

/-- A group packed into zero bits. -/
theorem packGroup_fills {w r g : Nat} {ds : List Word} {s : State} (hf : s.faulted = false) (hw : 1 ≤ w ∧ w ≤ 63)
    (hg : 8 * g + 8 ≤ ds.length) (hfit : ∀ d ∈ ds, d.toNat < 2 ^ w) (hbounds : r + g * w + w ≤ s.params.bufLen)
    (hclean : ∀ q, 8 * (r + g * w) ≤ q → q < 8 * (r + g * w + w) → s.streamBit q = false) :
    ∃ t, runProgram s (packGroup w r ds g) = .next t ∧
      Fills s t (8 * (r + g * w)) (8 * w) (concatLanes w ((ds.drop (8 * g)).take 8)) := by
  have hwidth : (BitVec.ofNat 8 w).toNat = w := toNat_ofNat_width (by omega)
  obtain ⟨t, ht, hlanes, hbase, hstart⟩ := packGroup_operands hf hg (Nat.le_of_add_right_le hbounds)
  obtain ⟨u, hexec, hfills⟩ := exec_packblk_fills (w := BitVec.ofNat 8 w) hstart.faulted (by rwa [hwidth])
    (by rwa [hbase, hwidth, hstart.params])
    (by rw [hlanes, hwidth]; exact fun d hd => hfit d (List.mem_of_mem_drop (List.mem_of_mem_take hd)))
    (by rw [hbase, hwidth]; exact fun q hlo hhi => (hstart.stream q).trans (hclean q hlo hhi))
  rw [hbase, hwidth, hlanes] at hfills
  rw [packGroup, asmPackblk_eq (by omega)]
  exact ⟨_, runProgram_append ht (runProgram_command hexec rfl), hstart.fills hfills.idle⟩

/-- Full group after full group: the first `8 * n` values fill the bits from the start of the region on. -/
theorem packGroups_fill {w r n : Nat} {ds : List Word} {s : State} (hf : s.faulted = false) (hw : 1 ≤ w ∧ w ≤ 63)
    (hn : 8 * n ≤ ds.length) (hfit : ∀ d ∈ ds, d.toNat < 2 ^ w) (hbounds : r + n * w ≤ s.params.bufLen)
    (hclean : ∀ q, 8 * r ≤ q → q < 8 * (r + n * w) → s.streamBit q = false) :
    ∃ t, runProgram s ((List.range n).flatMap (packGroup w r ds)) = .next t ∧
      Fills s t (8 * r) (8 * (n * w)) (concatLanes w (ds.take (8 * n))) := by
  refine runProgram_flatMap_range (I := fun g t => Fills s t (8 * r) (8 * (g * w)) (concatLanes w (ds.take (8 * g))))
    ?start fun g hg t ht => ?group
  case start =>
    rw [Nat.zero_mul]
    exact Fills.none hf _
  case group =>
    have hend := field_end_le w hg
    obtain ⟨u, hu, hfills⟩ := packGroup_fills (r := r) (g := g) ht.faulted hw (by omega) hfit (by rw [ht.params]; omega)
      fun q hlo hhi => ht.clean hclean q (by omega) (by omega)
    refine ⟨u, hu, ?_⟩
    have hlength : ((ds.drop (8 * g)).take 8).length = 8 := by
      rw [List.length_take, List.length_drop]
      omega
    rw [Nat.mul_add 8 r] at hfills
    rw [Nat.succ_mul g, Nat.mul_add 8 (g * w), Nat.mul_succ, List.take_add, concatLanes_append, hlength]
    exact ht.trans hfills

/-! ### Packing the tail (rule R174) -/

/-- One value packed at CUR into zero bits. -/
theorem asmPack_fills {w e : Nat} {v : Word} {s : State} (hf : s.faulted = false) (hw : 1 ≤ w ∧ w ≤ 63) (hfit : v.toNat < 2 ^ w)
    (hend : s.cur.toNat + w ≤ 8 * e) (hbounds : e ≤ s.params.bufLen)
    (hclean : ∀ q, s.cur.toNat ≤ q → q < 8 * e → s.streamBit q = false) :
    ∃ t, runProgram s (asmPack w v) = .next t ∧ t.cur.toNat = s.cur.toNat + w ∧ Fills s t s.cur.toNat w v.toNat := by
  have hwidth : (BitVec.ofNat 8 w).toNat = w := toNat_ofNat_width (by omega)
  have hpack := exec_packbits_of_clean (w := BitVec.ofNat 8 w) (v := v) (s := { s with program := [] }) hf
  rw [hwidth] at hpack
  have htarget : 8 * ((s.cur.toNat + w - 1) / 8 + 1) ≤ 8 * e := by omega
  obtain ⟨t, hexec, hft, hparams, hcur, houtside, hfield⟩ := hpack hw.1 hw.2 hfit
    (hend.trans (Nat.mul_le_mul_left 8 hbounds)) fun q hlo hhi => hclean q hlo (hhi.trans_le htarget)
  exact ⟨t, (runProgram_asmPack hf (by omega) v).trans hexec, hcur, hft, hparams, houtside, hfield⟩

/-- Value after value: each pack leaves the bits of the others zero. -/
theorem asmPacks_fill {w e : Nat} {vs : List Word} {s : State} (hf : s.faulted = false) (hw : 1 ≤ w ∧ w ≤ 63)
    (hfit : ∀ v ∈ vs, v.toNat < 2 ^ w) (hend : s.cur.toNat + vs.length * w ≤ 8 * e) (hbounds : e ≤ s.params.bufLen)
    (hclean : ∀ q, s.cur.toNat ≤ q → q < 8 * e → s.streamBit q = false) :
    ∃ t, runProgram s (vs.flatMap (asmPack w)) = .next t ∧ t.cur.toNat = s.cur.toNat + vs.length * w ∧
      Fills s t s.cur.toNat (vs.length * w) (concatLanes w vs) := by
  induction vs generalizing s with
  | nil =>
    rw [List.length_nil, Nat.zero_mul]
    exact ⟨_, rfl, rfl, Fills.none hf _⟩
  | cons v vs ih =>
    obtain ⟨hv, hvs⟩ := List.forall_mem_cons.mp hfit
    rw [List.length_cons, Nat.succ_mul] at hend
    obtain ⟨t, ht, hcur, hfirst⟩ := asmPack_fills hf hw hv (by omega) hbounds hclean
    obtain ⟨u, hu, hcur', hrest⟩ := ih hfirst.faulted hvs (by omega) (by rw [hfirst.params]; exact hbounds)
      (hcur ▸ hfirst.clean hclean)
    rw [hcur] at hrest hcur'
    rw [List.flatMap_cons, List.length_cons, Nat.succ_mul, Nat.add_comm _ w, concatLanes_cons hv]
    exact ⟨u, runProgram_append ht hu, by omega, hfirst.trans hrest⟩

theorem length_tail (ds : List Word) : (ds.drop (8 * groupCount ds.length)).length = tailCount ds.length := by
  rw [List.length_drop, groupCount, tailCount]
  omega

/-- The tail packed into zero bits behind the full groups. -/
theorem packRest_fills {w r : Nat} {ds : List Word} {s : State} (hf : s.faulted = false) (hw : 1 ≤ w ∧ w ≤ 63)
    (hfit : ∀ d ∈ ds, d.toNat < 2 ^ w) (hbounds : r + regionLength w ds.length ≤ s.params.bufLen)
    (hclean : ∀ q, 8 * (r + groupCount ds.length * w) ≤ q → q < 8 * (r + regionLength w ds.length) → s.streamBit q = false) :
    ∃ t, runProgram s (packRest w r ds) = .next t ∧
      t.cur.toNat = 8 * (r + groupCount ds.length * w) + tailCount ds.length * w ∧
      Fills s t (8 * (r + groupCount ds.length * w)) (tailCount ds.length * w)
        (concatLanes w (ds.drop (8 * groupCount ds.length))) := by
  have hregion : regionLength w ds.length = groupCount ds.length * w + (tailCount ds.length * w + 7) / 8 := rfl
  obtain ⟨t, ht, hstart, hreads⟩ := asmSetcur_reads hf (b := r + groupCount ds.length * w) (by omega)
  obtain ⟨u, hu, hcur, hfills⟩ := asmPacks_fill (e := r + regionLength w ds.length)
    (vs := ds.drop (8 * groupCount ds.length)) hreads.faulted hw (fun d hd => hfit d (List.mem_of_mem_drop hd))
    (by rw [hstart, length_tail]; omega) (by rwa [hreads.params])
    (by rw [hstart]; exact fun q hlo hhi => (hreads.stream q).trans (hclean q hlo hhi))
  rw [hstart, length_tail] at hcur hfills
  exact ⟨u, runProgram_append ht hu, hcur, hreads.fills hfills⟩

/-! ### The packed region (rules R175, R176) -/

/-- The full groups, then the tail. -/
theorem packRegion_fills {w r : Nat} {ds : List Word} {s : State} (hf : s.faulted = false) (hw : 1 ≤ w ∧ w ≤ 63)
    (hfit : ∀ d ∈ ds, d.toNat < 2 ^ w) (hbounds : r + regionLength w ds.length ≤ s.params.bufLen)
    (hclean : ∀ q, 8 * r ≤ q → q < 8 * (r + regionLength w ds.length) → s.streamBit q = false) :
    ∃ t, runProgram s ((List.range (groupCount ds.length)).flatMap (packGroup w r ds) ++ packRest w r ds) = .next t ∧
      t.cur.toNat = 8 * (r + groupCount ds.length * w) + tailCount ds.length * w ∧
      Fills s t (8 * r) (ds.length * w) (concatLanes w ds) := by
  have hregion : regionLength w ds.length = groupCount ds.length * w + (tailCount ds.length * w + 7) / 8 := rfl
  have hgroups : 8 * groupCount ds.length ≤ ds.length := Nat.mul_div_le _ _
  obtain ⟨t, ht, hfirst⟩ := packGroups_fill hf hw hgroups hfit (by omega) fun q hlo hhi => hclean q hlo (by omega)
  have hclean' := hfirst.clean hclean
  rw [← Nat.mul_add] at hclean'
  obtain ⟨u, hu, hcur, hrest⟩ := packRest_fills hfirst.faulted hw hfit (by rw [hfirst.params]; exact hbounds) hclean'
  rw [Nat.mul_add 8 r] at hrest
  have hboth := hfirst.trans hrest
  rw [group_bits_add_tail_bits, ← length_tail, ← concatLanes_append, List.take_append_drop] at hboth
  exact ⟨u, runProgram_append ht hu, hcur, hboth⟩

/-- The unused bits of the last byte stay zero. -/
theorem Fills.memRead {s t : State} {a m n x : Nat} (h : Fills s t (8 * a) n x) (hn : n ≤ 8 * m)
    (hclean : ∀ q, 8 * a ≤ q → q < 8 * (a + m) → s.streamBit q = false) : t.memRead a m = x * 2 ^ (8 * m - n) := by
  have hrest : t.streamRead (8 * a + n) (8 * m - n) = 0 := by
    apply Nat.eq_of_testBit_eq
    intro i
    rw [State.testBit_streamRead, Nat.zero_testBit, Bool.and_eq_false_imp, decide_eq_true_eq]
    exact fun hi => h.clean hclean _ (by omega) (by omega)
  rw [State.memRead_eq_streamRead, show 8 * m = n + (8 * m - n) by omega, State.streamRead_add, h.field, hrest, Nat.add_zero,
    Nat.add_sub_cancel_left]

/-- Bytes that the field does not reach stay. -/
theorem Fills.byte {s t : State} {a m n x : Nat} (h : Fills s t (8 * a) n x) (hn : n ≤ 8 * m) {b : Nat}
    (hb : b < a ∨ a + m ≤ b) : t.byte b = s.byte b :=
  (State.byte_eq_iff t s b).mpr fun i hi => h.outside _ (by omega)

/-- Settles O58: the groups and the tail fill one field with the concatenation of the deltas. -/
theorem deltaRegionLayout : Obligations.DeltaRegionLayout := by
  intro w r es s hf hpos hmax n hfit hbounds hzero
  have hclean := streamBit_of_zero_bytes hzero
  rw [← Nat.mul_add] at hclean
  obtain ⟨t, ht, hcur, hfills⟩ := packRegion_fills (r := r) (ds := deltas es) hf ⟨hpos, hmax⟩ hfit
    (by rwa [length_deltas]) (by rwa [length_deltas])
  rw [length_deltas] at ht hcur hfills
  have hfield : n * w ≤ 8 * regionLength w n := by
    rw [regionLength_eq]
    omega
  rw [concatLanes_of_fits hfit] at hfills
  exact ⟨t, ht, hfills.faulted, hfills.memRead hfield hclean, hcur, fun a ha => hfills.byte hfield ha⟩

/-! ### Unpacking a full group (rule R177) -/

/-- The `n` consecutive fields of `w` bits from stream position `p` on. -/
def State.fields (s : State) (p w n : Nat) : List Nat :=
  (List.range n).map fun k => s.streamRead (p + k * w) w

theorem State.fields_add (s : State) (p w n m : Nat) : s.fields p w (n + m) = s.fields p w n ++ s.fields (p + n * w) w m := by
  simp only [State.fields, List.range_add, List.map_append, List.map_map, Function.comp_def, Nat.add_mul, Nat.add_assoc]

theorem State.fields_one (s : State) (p w : Nat) : s.fields p w 1 = [s.streamRead p w] := by
  simp [State.fields]

/-- The fields of the stream are where they were. -/
theorem Reads.fields {s t : State} {xs : List Nat} (h : Reads s t xs) (p w n : Nat) : t.fields p w n = s.fields p w n :=
  List.map_congr_left fun _ _ => State.streamRead_congr fun _ _ => h.stream _

theorem runProgram_asmRd_lanes (s : State) :
    runProgram s [asmRd (.blk 0), asmRd (.blk 1), asmRd (.blk 2), asmRd (.blk 3), asmRd (.blk 4), asmRd (.blk 5),
      asmRd (.blk 6), asmRd (.blk 7)] =
    .next { s with trace := s.trace ++ (List.finRange 8).map fun j => .reg (.blk j) s.blk[j], program := [] } := by
  iterate 8 rw [runProgram_asmRd _ _ (by simp)]
  rw [runProgram_nil]
  simp [State.returns, State.regRead, List.finRange_succ]

/-- Reading the eight registers BLK[j] returns the lanes. -/
theorem asmRd_lanes_reads {s : State} (hf : s.faulted = false) :
    ∃ t, runProgram s [asmRd (.blk 0), asmRd (.blk 1), asmRd (.blk 2), asmRd (.blk 3), asmRd (.blk 4), asmRd (.blk 5),
      asmRd (.blk 6), asmRd (.blk 7)] = .next t ∧ Reads s t (s.lanes.map (·.toNat)) := by
  refine ⟨_, runProgram_asmRd_lanes s, hf, rfl, fun _ => rfl, _, rfl, ?_⟩
  rw [State.lanes_eq]
  rfl

/-- UNPACKBLK returns nothing, and its lanes are the fields of the window. -/
theorem exec_unpackblk_reads {w : BitVec 8} {s : State} (hf : s.faulted = false) (hfits : s.UnpackblkFits w.toNat) :
    ∃ t, exec (.unpackblk w) s = .next t ∧ Reads s t [] ∧
      t.lanes.map (·.toNat) = s.fields (8 * s.base.toNat) w.toNat 8 := by
  have ⟨⟨_, hmax⟩, _⟩ := hfits
  have hlanes : (unpackWindow w.toNat s).succeed.lanes = (unpackWindow w.toNat s).lanes := rfl
  refine ⟨_, exec_unpackblk_of_fits hf hfits, Reads.nothing ((State.succeed_faulted _).trans hf) rfl (fun _ => rfl) rfl, ?_⟩
  rw [hlanes, lanes_unpackWindow, List.map_map]
  exact List.map_congr_left fun j _ => toNat_ofNat_streamRead s _ hmax

/-- The lines that unpack group `g` return its eight fields. -/
theorem unpackGroup_reads {w r g : Nat} {s : State} (hf : s.faulted = false) (hw : 1 ≤ w ∧ w ≤ 63)
    (hbounds : r + g * w + w ≤ s.params.bufLen) :
    ∃ t, runProgram s (unpackGroup w r g) = .next t ∧ Reads s t (s.fields (8 * (r + g * w)) w 8) := by
  have hwidth : (BitVec.ofNat 8 w).toNat = w := toNat_ofNat_width (by omega)
  obtain ⟨t, ht, hbase, -, hstart⟩ := asmSetbase_reads hf (a := r + g * w) (by omega)
  obtain ⟨u, hexec, hblk, hlanes⟩ := exec_unpackblk_reads (w := BitVec.ofNat 8 w) hstart.faulted
    ⟨by rwa [hwidth], by rwa [hbase, hwidth, hstart.params]⟩
  obtain ⟨v, hv, hreads⟩ := asmRd_lanes_reads hblk.faulted
  rw [hlanes, hbase, hwidth, hstart.fields] at hreads
  rw [unpackGroup, asmUnpackblk_eq (by omega)]
  exact ⟨v, runProgram_append ht ((runProgram_command hexec (by simp)).trans hv), (hstart.trans hblk).trans hreads⟩

/-- Group after group: the first `8 * n` fields of the region. -/
theorem unpackGroups_read {w r n : Nat} {s : State} (hf : s.faulted = false) (hw : 1 ≤ w ∧ w ≤ 63)
    (hbounds : r + n * w ≤ s.params.bufLen) :
    ∃ t, runProgram s ((List.range n).flatMap (unpackGroup w r)) = .next t ∧ Reads s t (s.fields (8 * r) w (8 * n)) := by
  refine runProgram_flatMap_range (I := fun g t => Reads s t (s.fields (8 * r) w (8 * g)))
    (Reads.nothing hf rfl (fun _ => rfl) rfl) fun g hg t ht => ?_
  have hend := field_end_le w hg
  obtain ⟨u, hu, hreads⟩ := unpackGroup_reads (r := r) (g := g) ht.faulted hw (by rw [ht.params]; omega)
  rw [ht.fields, Nat.mul_add, ← Nat.mul_assoc] at hreads
  refine ⟨u, hu, ?_⟩
  rw [Nat.mul_succ, State.fields_add]
  exact ht.trans hreads

/-! ### Unpacking the tail (rule R177) -/

/-- `unpack W` returns the field at CUR. -/
theorem asmUnpack_reads {w : Nat} {s : State} (hf : s.faulted = false) (hw : 1 ≤ w ∧ w ≤ 63)
    (hbounds : s.cur.toNat + w ≤ 8 * s.params.bufLen) :
    ∃ t, runProgram s (asmUnpack w) = .next t ∧ t.cur.toNat = s.cur.toNat + w ∧
      Reads s t (s.fields s.cur.toNat w 1) := by
  have hwidth : (BitVec.ofNat 8 w).toNat = w := toNat_ofNat_width (by omega)
  have hfits : ({ s with program := [] } : State).UnpackbitsFits (BitVec.ofNat 8 w).toNat := by
    rw [hwidth]
    exact ⟨hw, hbounds⟩
  obtain ⟨t, hexec, hrun⟩ := runProgram_asmUnpack s (w := w) (by omega)
  obtain ⟨t', hexec', hft, hparams, hcur, hstream, hval⟩ := exec_unpackbits_reads (s := { s with program := [] }) hf hfits
  cases hexec.symm.trans hexec'
  have htrace : t.trace = s.trace := exec_keeps hexec State.trace (fun _ _ _ => rfl) fun _ => rfl
  rw [hwidth] at hcur hval
  refine ⟨_, hrun, hcur, hft, hparams, hstream, [.reg .val t.val], by rw [htrace], ?_⟩
  rw [List.map_singleton, Returned.toNat, hval, State.fields_one]
  exact congrArg ([·]) (State.streamRead_congr fun _ _ => rfl)

/-- Field after field from CUR on. -/
theorem asmUnpacks_read {w n : Nat} {s : State} (hf : s.faulted = false) (hw : 1 ≤ w ∧ w ≤ 63)
    (hbounds : s.cur.toNat + n * w ≤ 8 * s.params.bufLen) :
    ∃ t, runProgram s ((List.range n).flatMap fun _ => asmUnpack w) = .next t ∧
      t.cur.toNat = s.cur.toNat + n * w ∧ Reads s t (s.fields s.cur.toNat w n) := by
  refine runProgram_flatMap_range
    (I := fun k t => t.cur.toNat = s.cur.toNat + k * w ∧ Reads s t (s.fields s.cur.toNat w k))
    ⟨by rw [Nat.zero_mul, Nat.add_zero], Reads.nothing hf rfl (fun _ => rfl) rfl⟩ fun k hk t ⟨hcur, ht⟩ => ?_
  have hend := field_end_le w hk
  obtain ⟨u, hu, hcur', hreads⟩ := asmUnpack_reads ht.faulted hw (by rw [ht.params]; omega)
  rw [ht.fields, hcur] at hreads
  refine ⟨u, hu, by rw [Nat.succ_mul]; omega, ?_⟩
  rw [State.fields_add]
  exact ht.trans hreads

/-- Settles O59: the groups return their fields, and the tail goes on where they end. -/
theorem deltaUnpackReturnsTheFields : Obligations.DeltaUnpackReturnsTheFields := by
  intro w r n s hf hpos hmax hbounds
  have hregion : regionLength w n = groupCount n * w + (tailCount n * w + 7) / 8 := rfl
  obtain ⟨t, ht, hgroups⟩ := unpackGroups_read (r := r) (n := groupCount n) hf ⟨hpos, hmax⟩ (by omega)
  obtain ⟨u, hu, hcur, hstart⟩ := asmSetcur_reads hgroups.faulted (b := r + groupCount n * w) (by rw [hgroups.params]; omega)
  obtain ⟨v, hv, -, htail⟩ := asmUnpacks_read (n := tailCount n) hstart.faulted ⟨hpos, hmax⟩
    (by rw [hcur, hstart.params, hgroups.params]; omega)
  rw [hcur, hstart.fields, hgroups.fields, Nat.mul_add, ← Nat.mul_assoc] at htail
  obtain ⟨hfv, -, -, rs, htrace, hrs⟩ := (hgroups.trans hstart).trans htail
  refine ⟨v, rs, runProgram_append (runProgram_append ht hu) hv, hfv, htrace, ?_⟩
  rw [List.append_nil, ← State.fields_add, groupCount, tailCount, Nat.div_add_mod] at hrs
  refine Eq.trans (List.map_congr_left fun x _ => ?_) hrs
  cases x <;> rfl

end Sys2Proof.Machine

/-! PROOFS. The statements of 43_host_port.md and of reset: what each transaction does, which programs are refused and how the others
run, and the premise P-CLEAN, with the lemmas about a step of a run that they rest on. -/

namespace Sys2Proof.Machine

/-! ### Reads and writes through the port (rules R190 to R196) -/

theorem performOp_of_resolve {op : HostOp} {x : Txn} {s : State} (hx : resolve s.params op = .txn x) :
    performOp op s = perform x s := by
  simp only [performOp, hx]

theorem performOp_asmRd (r : Reg) (s : State) : performOp (asmRd r) s = .next (s.returns (.reg r (s.regRead r))) :=
  performOp_of_resolve (resolve_asmRd _ r)

theorem performOp_asmWr {s : State} (hf : s.faulted = false) {r : Reg} (hr : r ≠ .cmd) (v : Word) :
    performOp (asmWr r v) s = .next (s.regWrite r v) :=
  (performOp_of_resolve (resolve_asmWr _ r v)).trans (perform_wr_reg hf hr v)

theorem resolve_brd {p : Params} {a : Nat} (ha : a < p.bufLen) : resolve p (.brd a) = .txn (.brd a) :=
  if_pos ha

theorem resolve_bwr {p : Params} {a b : Nat} (ha : a < p.bufLen) (hb : b ≤ 255) :
    resolve p (.bwr a b) = .txn (.bwr a (BitVec.ofNat 8 b)) := by
  rw [resolve, if_neg (by omega), if_neg (by omega)]

/-- Settles O40: each line of the register map is the read of its register. -/
theorem readsReturnTheState : Obligations.ReadsReturnTheState := by
  intro s
  exact ⟨performOp_asmRd .cmd s, performOp_asmRd .status s, performOp_asmRd .fcmd s, performOp_asmRd .cur s,
    performOp_asmRd .val s, performOp_asmRd .base s, fun j => performOp_asmRd (.blk j) s,
    fun _ ha => performOp_of_resolve (resolve_brd ha)⟩

theorem State.blk_regWrite_blk (s : State) (j k : Fin 8) (v : Word) :
    (s.regWrite (.blk j) v).blk[k] = if k = j then v else s.blk[k] := by
  simp only [State.regWrite, Fin.getElem_fin, Vector.getElem_set, Fin.ext_iff, eq_comm]

/-- Settles O41: each line of the register map is the write of its register, and none of the six is CMD. -/
theorem writesSetTheRegister : Obligations.WritesSetTheRegister := by
  intro v s hf
  exact ⟨performOp_asmWr hf (r := .cur) (by simp) v, performOp_asmWr hf (r := .val) (by simp) v,
    performOp_asmWr hf (r := .base) (by simp) v,
    fun j => ⟨_, performOp_asmWr hf (r := .blk j) (by simp) v, rfl, fun k => s.blk_regWrite_blk j k v⟩,
    performOp_asmWr hf (r := .status) (by simp) v, performOp_asmWr hf (r := .fcmd) (by simp) v⟩

/-- Settles O42: the line is the write of its byte, and a byte up to 255 is written whole. -/
theorem bufferWriteSetsTheByte : Obligations.BufferWriteSetsTheByte := by
  intro a b s hf ha hb
  refine ⟨_, (performOp_of_resolve (resolve_bwr ha hb)).trans (perform_bwr hf a _), s.setByte_eq a _, ?_, fun x hx => ?_⟩
  · rw [State.byte_setByte, if_pos rfl, toNat_ofNat_width hb]
  · rw [State.byte_setByte, if_neg hx]

/-! ### The faulted state and reset (rules R192, R198, R215) -/

@[simp] theorem State.takeReset_faulted (s : State) : s.takeReset.faulted = false := by
  rw [State.faulted, State.takeReset_status]
  decide

@[simp] theorem State.returns_faulted (s : State) (y : Returned) : (s.returns y).faulted = s.faulted := rfl

/-- While the unit is faulted a transaction reads, is ignored, or resets. -/
theorem perform_cases_of_faulted {x : Txn} {s t : State} (hf : s.faulted = true) (h : perform x s = .next t) :
    (x ≠ .reset ∧ ∃ y, t = s.returns y) ∨ (x ≠ .reset ∧ t = s) ∨ (x = .reset ∧ t = s.takeReset) := by
  cases x with
  | rd r => cases h; exact .inl ⟨by simp, _, rfl⟩
  | brd a => cases h; exact .inl ⟨by simp, _, rfl⟩
  | wr r v => rw [perform_wr_faulted hf] at h; cases h; exact .inr (.inl ⟨by simp, rfl⟩)
  | bwr a b => rw [perform_bwr_faulted hf] at h; cases h; exact .inr (.inl ⟨by simp, rfl⟩)
  | reset => cases h; exact .inr (.inr ⟨rfl, rfl⟩)

theorem perform_unfaulted_iff_reset {x : Txn} {s t : State} (hf : s.faulted = true) (h : perform x s = .next t) :
    t.faulted = false ↔ x = .reset := by
  obtain ⟨hx, y, rfl⟩ | ⟨hx, rfl⟩ | ⟨hx, rfl⟩ := perform_cases_of_faulted hf h <;> simp [hx, hf]

/-- Settles O35: writes and commands are ignored, and of the other transactions reset alone leaves the faulted state. -/
theorem faultedUnitIsFrozen : Obligations.FaultedUnitIsFrozen := by
  intro s hf
  exact ⟨perform_wr_faulted hf, perform_bwr_faulted hf, exec_faulted hf, fun _ _ => perform_unfaulted_iff_reset hf⟩

/-- Settles O48: the state a reset leaves holds the reset values, as does the state after power-on. -/
theorem resetValues : Obligations.ResetValues := by
  intro s
  have hlanes : ∀ j : Fin 8, State.reset.blk[j] = 0 := by decide
  exact ⟨⟨s.takeReset, rfl, s.takeReset_faulted, rfl, rfl, rfl, rfl, rfl, hlanes, rfl⟩, ⟨rfl, rfl, rfl, rfl, rfl, hlanes⟩,
    fun _ _ h hf ht => (perform_unfaulted_iff_reset hf h).mp ht⟩

/-! ### One step (rules R197, R200, R229) -/

theorem HostOp.wf_eq_true_iff (p : Params) (op : HostOp) : HostOp.wf p op = true ↔ ∃ x, resolve p op = .txn x := by
  cases h : resolve p op <;> simp [HostOp.wf, h]

theorem HostOp.wf_eq_false_iff (p : Params) (op : HostOp) : HostOp.wf p op = false ↔ ∃ why, resolve p op = .illFormed why := by
  cases h : resolve p op <;> simp [HostOp.wf, h]

/-- P-FORMED of a program, transaction by transaction. -/
theorem wf_cons_iff (p : Params) (op : HostOp) (rest : List HostOp) :
    Program.wf p (op :: rest) = true ↔ (∃ x, resolve p op = .txn x) ∧ Program.wf p rest = true := by
  rw [Program.wf, List.all_cons, Bool.and_eq_true, HostOp.wf_eq_true_iff, Program.wf]

theorem step_idle {s : State} (hp : s.program = []) : step s = .next s := by
  simp only [step, advance, hp]

theorem step_of_wf {s : State} {op : HostOp} {rest : List HostOp} {x : Txn} (hp : s.program = op :: rest)
    (hx : resolve s.params op = .txn x) (hrest : Program.wf s.params rest = true) :
    step s = perform x { s with program := rest } :=
  step_cons hp hx ((programProblem_eq_none_iff _ _).mpr hrest)

/-- Settles O39: the transaction that the step performs is the one that the first line asks for. -/
theorem stepPerformsTheNextTransaction : Obligations.StepPerformsTheNextTransaction := by
  intro s
  refine ⟨step_idle, fun op rest hp hwf => ?_⟩
  obtain ⟨⟨x, hx⟩, hrest⟩ := (wf_cons_iff _ _ _).mp hwf
  rw [step_of_wf hp hx hrest, performOp_of_resolve (s := { s with program := rest }) hx]

/-- The CMD write of data that decodes executes the command, in every state: a faulted unit ignores the one and the other. -/
theorem perform_wr_decoded {d : Word} {i : Instr} (hd : decode d = .ok i) (s : State) : perform (.wr .cmd d) s = exec i s := by
  rw [(decode_eq_ok_iff d i).mp hd, perform_wr_cmdData]

theorem step_command {s : State} {d : Word} {rest : List HostOp} {i : Instr} (hp : s.program = asmWr .cmd d :: rest)
    (hrest : Program.wf s.params rest = true) (hd : decode d = .ok i) : step s = exec i { s with program := rest } :=
  (step_of_wf hp (resolve_asmWr _ _ _) hrest).trans (perform_wr_decoded hd _)

theorem decode_of_decodeTableWord {nbits w : Nat} {i : Instr} (h : decodeTableWord nbits w = some i) :
    decode (BitVec.ofNat 64 (w % 2 ^ nbits)) = .ok i := by
  unfold decodeTableWord at h
  split at h
  · cases h
  · split at h
    · cases h; assumption
    · cases h

/-- Settles O38: the first line resolves to the CMD write, and `withFetchWord` puts one first. -/
theorem stepRunsTheDecodedCommand : Obligations.StepRunsTheDecodedCommand :=
  ⟨fun _ _ _ _ hp hrest hd => step_command hp hrest hd,
    fun s nbits w _ hwf h => step_command (s := s.withFetchWord nbits w) rfl hwf (decode_of_decodeTableWord h)⟩

/-! ### Which programs are refused (rule R197) -/

/-- The offsets of the register map (10_state.md rule R34). -/
def portOffsets : List Nat := [0x00, 0x08, 0x10, 0x18, 0x20, 0x28, 0x40, 0x48, 0x50, 0x58, 0x60, 0x68, 0x70, 0x78]

theorem Reg.atOffset_eq_none_iff (off : Nat) : Reg.atOffset off = none ↔ off ∉ portOffsets := by
  constructor
  · have hmapped : ∀ o ∈ portOffsets, Reg.atOffset o ≠ none := by decide
    exact fun h hmem => hmapped off hmem h
  · intro h
    simp only [portOffsets, List.mem_cons, List.not_mem_nil, not_or] at h
    simp only [Reg.atOffset, h, if_false]

theorem resolveReg_illFormed_iff (off bits : Nat) (t : Reg → Txn) :
    (∃ why, resolveReg off bits t = .illFormed why) ↔ off ∉ portOffsets ∨ bits ≠ 64 := by
  rw [← Reg.atOffset_eq_none_iff, resolveReg]
  cases Reg.atOffset off with
  | none => simp
  | some r => by_cases hbits : bits = 64 <;> simp [hbits]

theorem resolve_brd_illFormed_iff (p : Params) (a : Nat) : (∃ why, resolve p (.brd a) = .illFormed why) ↔ p.bufLen ≤ a := by
  rw [resolve]
  split
  · simpa
  · simpa using Nat.not_lt.mp ‹_›

theorem resolve_bwr_illFormed_iff (p : Params) (a b : Nat) :
    (∃ why, resolve p (.bwr a b) = .illFormed why) ↔ p.bufLen ≤ a ∨ 255 < b := by
  rw [resolve]
  split
  · simp [*]
  · split <;> simp [*]

theorem step_next_of_wf {s : State} (hwf : Program.wf s.params s.program = true) : ∃ t, step s = .next t := by
  cases hp : s.program with
  | nil => exact ⟨s, step_idle hp⟩
  | cons op rest =>
    rw [hp] at hwf
    obtain ⟨⟨x, hx⟩, hrest⟩ := (wf_cons_iff _ _ _).mp hwf
    rw [step_of_wf hp hx hrest]
    exact perform_next _ _

theorem step_of_problem {s : State} {why : IllFormed} (h : programProblem s.params s.program = some why) :
    step s = .refused (.illFormed why) := by
  cases hp : s.program with
  | nil => simp [hp] at h
  | cons op rest =>
    rw [hp] at h
    simp only [step, advance, hp, h]

/-- A step is refused just when what is pending is not P-FORMED. -/
theorem step_refused_iff (s : State) :
    (∃ why, step s = .refused (.illFormed why)) ↔ Program.wf s.params s.program = false := by
  rw [← Bool.not_eq_true, ← programProblem_eq_none_iff]
  cases hproblem : programProblem s.params s.program with
  | none =>
    obtain ⟨t, ht⟩ := step_next_of_wf ((programProblem_eq_none_iff _ _).mp hproblem)
    simp [ht]
  | some why => simp [step_of_problem hproblem]

/-- Settles O43: the four cases of an ill-formed line, kind of line by kind of line. -/
theorem illFormedProgramsAreRefused : Obligations.IllFormedProgramsAreRefused := by
  intro s
  rw [step_refused_iff, Program.wf, List.all_eq_false]
  refine exists_congr fun op => and_congr_right fun _ => ?_
  rw [Bool.not_eq_true, HostOp.wf_eq_false_iff]
  cases op with
  | rd off bits => exact resolveReg_illFormed_iff off bits _
  | wr off bits v => exact resolveReg_illFormed_iff off bits _
  | brd a => exact resolve_brd_illFormed_iff _ a
  | bwr a b => exact resolve_bwr_illFormed_iff _ a b
  | reset => simp [resolve]

/-! ### Runs (rules R200, R201) -/

/-- A well-formed program runs to its end. -/
theorem runProgram_next {s : State} {ops : List HostOp} (hwf : Program.wf s.params ops = true) :
    ∃ t, runProgram s ops = .next t ∧ t.program = [] ∧ t.params = s.params := by
  induction ops generalizing s with
  | nil => exact ⟨_, runProgram_nil s, rfl, rfl⟩
  | cons op rest ih =>
    obtain ⟨⟨x, hx⟩, hrest⟩ := (wf_cons_iff _ _ _).mp hwf
    obtain ⟨u, hu⟩ := perform_next x s
    have hparams := perform_params hu
    rw [runProgram_cons hx ((programProblem_eq_none_iff _ _).mpr hrest) hu, ← hparams]
    exact ih (hparams ▸ hrest)

theorem wf_of_endsCorrectly {s : State} {ops : List HostOp} (h : endsCorrectly (runProgram s ops)) :
    Program.wf s.params ops = true := by
  cases hrun : runProgram s ops with
  | next t => exact (programProblem_eq_none_iff _ _).mp (programProblem_of_runProgram hrun)
  | fault r => simp [hrun, endsCorrectly] at h
  | refused r => simp [hrun, endsCorrectly] at h

theorem wf_reset_cons (p : Params) (ops : List HostOp) : Program.wf p (.reset :: ops) = Program.wf p ops := rfl

/-- Settles O44: a run is a program whose first line is a reset, which is well-formed. -/
theorem runsOfFormedProgramsComplete : Obligations.RunsOfFormedProgramsComplete := by
  intro s ops
  constructor
  · intro hwf
    obtain ⟨t, ht, hprogram, hparams⟩ := runProgram_next (s := s) (ops := .reset :: ops) hwf
    refine ⟨t, ht, hprogram, hparams, ?_⟩
    rw [runOf, ht, endsCorrectly]
    exact and_iff_left hprogram
  · intro hwf h
    have hformed := wf_of_endsCorrectly h
    rw [wf_reset_cons, hwf] at hformed
    cases hformed

/-! ### What a run keeps from one reset to the next -/

theorem perform_program {x : Txn} {s t : State} (h : perform x s = .next t) : t.program = s.program := by
  have hkept := perform_withProgram h s.program
  injection h.symm.trans hkept with heq
  have hprogram := congrArg State.program heq
  exact hprogram

/-- A step waits, or performs the transaction that its line asks for and leaves the rest pending. -/
theorem step_of_program {s t : State} {op : HostOp} {rest : List HostOp} (hp : s.program = op :: rest) (h : step s = .next t) :
    ∃ x, resolve s.params op = .txn x ∧ perform x { s with program := rest } = .next t ∧ t.program = rest := by
  obtain ⟨hnil, -⟩ | ⟨op', rest', x, hp', -, hx, hperform⟩ := step_cases h
  · simp [hp] at hnil
  · cases hp.symm.trans hp'
    exact ⟨x, hx, hperform, perform_program hperform⟩

theorem eq_of_resolveReg {off bits : Nat} {t : Reg → Txn} {x : Txn} (h : resolveReg off bits t = .txn x) : ∃ r, x = t r := by
  unfold resolveReg at h
  split at h
  · cases h
  · split at h
    · cases h
      exact ⟨_, rfl⟩
    · cases h

theorem eq_reset_of_resolve {p : Params} {op : HostOp} (h : resolve p op = .txn .reset) : op = .reset := by
  cases op with
  | rd off bits => exact nomatch (eq_of_resolveReg h).choose_spec
  | wr off bits v => exact nomatch (eq_of_resolveReg h).choose_spec
  | brd a => simp only [resolve] at h; split at h <;> cases h
  | bwr a b => simp only [resolve] at h; split at h <;> [cases h; (split at h <;> cases h)]
  | reset => rfl

theorem run_succ {k : Nat} {s u : State} (h : Host.Core.run core (k + 1) s = .next u) :
    ∃ t, step s = .next t ∧ Host.Core.run core k t = .next u := by
  cases hstep : step s with
  | next t => exact ⟨t, rfl, by simpa [Host.Core.run, core, hstep] using h⟩
  | fault r => exact nomatch r
  | refused r => simp [Host.Core.run, core, hstep] at h

/-- None of the first `k` lines is a reset. -/
def NoResetBefore (ops : List HostOp) (k : Nat) : Prop := ∀ i < k, ops[i]? ≠ some .reset

@[simp] theorem noResetBefore_zero (ops : List HostOp) : NoResetBefore ops 0 := fun _ h => absurd h (Nat.not_lt_zero _)

@[simp] theorem noResetBefore_cons (op : HostOp) (ops : List HostOp) (k : Nat) :
    NoResetBefore (op :: ops) (k + 1) ↔ op ≠ .reset ∧ NoResetBefore ops k := by
  rw [NoResetBefore, Nat.forall_lt_succ_left]
  simp [NoResetBefore]

/-- What every transaction but reset keeps, and what does not look at the pending program, a run keeps up to its next reset. -/
theorem run_keeps {P : State → Prop} (hprogram : ∀ s p, P s → P { s with program := p })
    (hperform : ∀ x s t, x ≠ .reset → perform x s = .next t → P s → P t) {k : Nat} {s u : State}
    (hrun : Host.Core.run core k s = .next u) (hreset : NoResetBefore s.program k) (hs : P s) : P u := by
  induction k generalizing s with
  | zero => cases hrun; exact hs
  | succ k ih =>
    obtain ⟨t, hstep, hrest⟩ := run_succ hrun
    cases hp : s.program with
    | nil =>
      rw [step_idle hp] at hstep
      cases hstep
      exact ih hrest (by simp [NoResetBefore, hp]) hs
    | cons op rest =>
      obtain ⟨x, hx, hnext, hpending⟩ := step_of_program hp hstep
      rw [hp, noResetBefore_cons] at hreset
      have hx' : x ≠ .reset := by
        rintro rfl
        exact hreset.1 (eq_reset_of_resolve hx)
      exact ih hrest (hpending ▸ hreset.2) (hperform _ _ _ hx' hnext (hprogram _ _ hs))

/-- A faulted unit is still faulted where a run comes to before the next reset (rule R192). -/
theorem run_keeps_faulted {k : Nat} {s u : State} (hrun : Host.Core.run core k s = .next u)
    (hreset : NoResetBefore s.program k) (hs : s.faulted = true) : u.faulted = true := by
  refine run_keeps (P := fun v => v.faulted = true) (fun _ _ => id) (fun x v t hx h hv => ?_) hrun hreset hs
  exact Bool.eq_true_of_not_eq_false fun hf => hx ((perform_unfaulted_iff_reset hv h).mp hf)

/-- Byte `a` has been written since the last reset, so it reads as no draw (log entry 4). -/
def State.Written (s : State) (a : Nat) : Prop := ∃ b, Memory.lookup s.buf a = some b

theorem State.written_setByte (s : State) (a : Nat) (b : Byte) : (s.setByte a b).Written a :=
  ⟨b, Memory.lookup_insert_same a b s.buf⟩

/-- A write that leaves the unit not faulted was not ignored (rule R192). -/
theorem written_of_perform_bwr {s t : State} {a : Nat} {b : Byte} (h : perform (.bwr a b) s = .next t)
    (ht : t.faulted = false) : t.Written a := by
  cases hs : s.faulted with
  | true =>
    rw [perform_bwr_faulted hs] at h
    cases h
    cases hs.symm.trans ht
  | false =>
    rw [perform_bwr hs] at h
    cases h
    exact s.written_setByte a b

theorem State.Written.setByte {s : State} {a : Nat} (h : s.Written a) (x : Nat) (b : Byte) : (s.setByte x b).Written a := by
  rw [State.Written, State.setByte_buf, Memory.lookup_insert]
  split
  · exact ⟨b, rfl⟩
  · exact h

theorem State.Written.streamOr {s : State} {a : Nat} (h : s.Written a) (p w v : Nat) : (s.streamOr p w v).Written a := by
  rw [State.Written, State.streamOr, State.lookup_orBytes]
  split
  · exact ⟨_, rfl⟩
  · exact h

theorem State.Written.commandBody {s : State} {a : Nat} (h : s.Written a) (i : Instr) : (commandBody i s).Written a := by
  cases i with
  | packbits w => exact h.streamOr _ _ _
  | unpackbits w => exact h
  | packblk w => exact h.streamOr _ _ _
  | unpackblk w => exact h

theorem exec_written {i : Instr} {s t : State} {a : Nat} (h : exec i s = .next t) (hs : s.Written a) : t.Written a := by
  obtain ⟨-, rfl⟩ | ⟨-, -, rfl⟩ | ⟨-, -, rfl⟩ | ⟨-, c, -, rfl⟩ := exec_cases h
  · exact hs
  · exact hs.commandBody i
  · exact hs
  · exact hs

theorem perform_written {x : Txn} {s t : State} {a : Nat} (hx : x ≠ .reset) (h : perform x s = .next t) (hs : s.Written a) :
    t.Written a := by
  obtain ⟨y, rfl⟩ | ⟨-, rfl⟩ | ⟨-, r, v, -, -, rfl⟩ | ⟨-, d, -, hissue⟩ | ⟨-, x, b, -, rfl⟩ | ⟨hreset, -⟩ := perform_cases h
  · exact hs
  · exact hs
  · rwa [State.Written, State.regWrite_buf]
  · obtain ⟨i, -, hexec⟩ | ⟨why, -, rfl⟩ := issue_cases hissue
    · exact exec_written hexec hs
    · exact hs
  · exact hs.setByte x b
  · exact absurd hreset hx

/-- A written byte is still written where a run comes to before the next reset. -/
theorem run_keeps_written {k a : Nat} {s u : State} (hrun : Host.Core.run core k s = .next u)
    (hreset : NoResetBefore s.program k) (hs : s.Written a) : u.Written a :=
  run_keeps (P := fun v => v.Written a) (fun _ _ => id) (fun _ _ _ => perform_written) hrun hreset hs

/-! ### Bytes written 0 before a line of a run (rule R200) -/

/-- A line before line `k` writes 0 to byte `a`, and no line between them is a reset. -/
def ClearedBefore (ops : List HostOp) (k a : Nat) : Prop :=
  ∃ j, j < k ∧ ops[j]? = some (.bwr a 0) ∧ ∀ i, j < i → i < k → ops[i]? ≠ some .reset

@[simp] theorem not_clearedBefore_zero (ops : List HostOp) (a : Nat) : ¬ ClearedBefore ops 0 a := by
  simp [ClearedBefore]

theorem clearedBefore_cons (op : HostOp) (ops : List HostOp) (k a : Nat) :
    ClearedBefore (op :: ops) (k + 1) a ↔ (op = .bwr a 0 ∧ NoResetBefore ops k) ∨ ClearedBefore ops k a := by
  constructor
  · rintro ⟨j, hj, hop, hreset⟩
    cases j with
    | zero => exact .inl ⟨by simpa using hop, fun i hi => hreset (i + 1) (by omega) (by omega)⟩
    | succ j =>
      exact .inr ⟨j, by omega, hop, fun i hlo hhi => hreset (i + 1) (by omega) (by omega)⟩
  · rintro (⟨rfl, hreset⟩ | ⟨j, hj, hop, hreset⟩)
    · refine ⟨0, by omega, rfl, fun i hlo hhi => ?_⟩
      obtain ⟨i, rfl⟩ := Nat.exists_eq_succ_of_ne_zero (by omega : i ≠ 0)
      exact hreset i (by omega)
    · refine ⟨j + 1, by omega, hop, fun i hlo hhi => ?_⟩
      obtain ⟨i, rfl⟩ := Nat.exists_eq_succ_of_ne_zero (by omega : i ≠ 0)
      exact hreset i (by omega) (by omega)

theorem resolve_bwr_zero_eq {p : Params} {a : Nat} {x : Txn} (h : resolve p (.bwr a 0) = .txn x) : x = .bwr a 0 := by
  have ha : a < p.bufLen := by
    by_contra hout
    obtain ⟨why, hwhy⟩ := (resolve_bwr_illFormed_iff p a 0).mpr (.inl (by omega))
    cases h.symm.trans hwhy
  cases h.symm.trans (resolve_bwr_zero ha)
  rfl

/-- Where a run comes to a state that is not faulted, every byte cleared before is written: neither the fault that would have had the
write ignored nor a reset came since. -/
theorem written_of_clearedBefore {k a : Nat} {s u : State} (hrun : Host.Core.run core k s = .next u)
    (hu : u.faulted = false) (hcleared : ClearedBefore s.program k a) : u.Written a := by
  induction k generalizing s with
  | zero => exact absurd hcleared (not_clearedBefore_zero _ _)
  | succ k ih =>
    obtain ⟨t, hstep, hrest⟩ := run_succ hrun
    cases hp : s.program with
    | nil => simp [ClearedBefore, hp] at hcleared
    | cons op rest =>
      obtain ⟨x, hx, hnext, hpending⟩ := step_of_program hp hstep
      rw [hp, clearedBefore_cons, ← hpending] at hcleared
      obtain ⟨rfl, hreset⟩ | hlater := hcleared
      · have ht : t.faulted = false := Bool.eq_false_of_not_eq_true fun hf => by
          simp [run_keeps_faulted hrest hreset hf] at hu
        cases resolve_bwr_zero_eq hx
        exact run_keeps_written hrest hreset (written_of_perform_bwr hnext ht)
      · exact ih hrest hlater

/-! ### P-CLEAN (rule R200) -/

theorem unfaulted_of_mem_packTouches {d : Word} {s : State} {a : Nat} (ha : a ∈ packTouches d s) : s.faulted = false := by
  cases hd : decode d with
  | illegal why => simp [packTouches_illegal hd] at ha
  | ok i =>
    cases i with
    | packbits w => exact ((mem_packTouches_packbits_iff hd s a).mp ha).1
    | unpackbits w => simp [packTouches_unpackbits hd] at ha
    | packblk w => exact ((mem_packTouches_packblk_iff hd s a).mp ha).1
    | unpackblk w => simp [packTouches_unpackblk hd] at ha

theorem packTouches_withProgram (d : Word) (s : State) (p : List HostOp) :
    packTouches d { s with program := p } = packTouches d s := rfl

theorem mem_opTouches_iff (op : HostOp) (s : State) (a : Nat) :
    a ∈ opTouches op s ↔ ∃ d, op = asmWr .cmd d ∧ a ∈ packTouches d s := by
  cases op with
  | wr off bits d =>
    rw [opTouches, List.mem_ite_nil_right]
    simp [asmWr, and_assoc]
  | rd off bits => simp [opTouches, asmWr]
  | brd a => simp [opTouches, asmWr]
  | bwr a b => simp [opTouches, asmWr]
  | reset => simp [opTouches, asmWr]

theorem mem_clearedAfter_iff (op : HostOp) (s : State) (cleared : List Nat) (a : Nat) :
    a ∈ clearedAfter op s cleared ↔ (op = .bwr a 0 ∧ s.faulted = false) ∨ (op ≠ .reset ∧ a ∈ cleared) := by
  cases op with
  | bwr x b =>
    rw [clearedAfter]
    split
    · simp [*, eq_comm]
    · simp only [HostOp.bwr.injEq, ne_eq, reduceCtorEq, not_false_eq_true, true_and]
      tauto
  | rd off bits => simp [clearedAfter]
  | wr off bits v => simp [clearedAfter]
  | brd x => simp [clearedAfter]
  | reset => simp [clearedAfter]

theorem cleanFrom_cons_iff {op : HostOp} {rest : List HostOp} {s t : State} (h : performOp op s = .next t) (cleared : List Nat) :
    cleanFrom (op :: rest) s cleared = true ↔
      (∀ a ∈ opTouches op s, a ∈ cleared) ∧ cleanFrom rest t (clearedAfter op s cleared) = true := by
  simp only [cleanFrom, h, Bool.and_eq_true, List.all_eq_true, List.contains_iff_mem]

theorem run_cons {k : Nat} {op : HostOp} {rest : List HostOp} {s t : State} {x : Txn} (hx : resolve s.params op = .txn x)
    (hrest : Program.wf s.params rest = true) (h : perform x s = .next t) :
    Host.Core.run core (k + 1) { s with program := op :: rest } = Host.Core.run core k { t with program := rest } := by
  have hstep : step { s with program := op :: rest } = .next { t with program := rest } :=
    (step_of_wf (s := { s with program := op :: rest }) rfl hx hrest).trans (perform_withProgram h rest)
  simp only [Host.Core.run, core, hstep]

/-- P-CLEAN of what is left of a run: a byte that a CMD write touches by a pack command is cleared by a line before it, or was before
these lines and no reset came since. -/
theorem cleanFrom_iff {ops : List HostOp} {s : State} (hwf : Program.wf s.params ops = true) (cleared : List Nat) :
    cleanFrom ops s cleared = true ↔
      ∀ (k : Nat) (d : Word) (u : State), ops[k]? = some (asmWr .cmd d) →
        Host.Core.run core k { s with program := ops } = .next u →
        ∀ a ∈ packTouches d u, ClearedBefore ops k a ∨ (NoResetBefore ops k ∧ a ∈ cleared) := by
  induction ops generalizing s cleared with
  | nil => simp [cleanFrom]
  | cons op rest ih =>
    obtain ⟨⟨x, hx⟩, hrest⟩ := (wf_cons_iff _ _ _).mp hwf
    obtain ⟨t, ht⟩ := perform_next x s
    rw [cleanFrom_cons_iff ((performOp_of_resolve hx).trans ht), ih (perform_params ht ▸ hrest)]
    refine Iff.trans ?_ Nat.and_forall_add_one
    refine and_congr ?first (forall_congr' fun k => forall_congr' fun d => forall_congr' fun u => ?later)
    case first =>
      simp only [mem_opTouches_iff, List.getElem?_cons_zero, Option.some.injEq, not_clearedBefore_zero, noResetBefore_zero,
        true_and, false_or]
      constructor
      · rintro h d _ hop hrun a ha
        cases hrun
        exact h a ⟨d, hop, ha⟩
      · rintro h a ⟨d, hop, ha⟩
        exact h d _ hop rfl a ha
    case later =>
      rw [List.getElem?_cons_succ, ← run_cons hx hrest ht]
      refine forall_congr' fun _ => forall_congr' fun hrun => forall_congr' fun a => forall_congr' fun ha => ?_
      have hunfaulted (hop : op = .bwr a 0) (hreset : NoResetBefore rest k) : s.faulted = false :=
        Bool.eq_false_of_not_eq_true fun hf => by
          have hu := run_keeps_faulted hrun ((noResetBefore_cons _ _ _).mpr ⟨by simp [hop], hreset⟩) hf
          cases hu.symm.trans (unfaulted_of_mem_packTouches ha)
      rw [clearedBefore_cons, noResetBefore_cons, mem_clearedAfter_iff]
      tauto

theorem premiseClean_iff {s : State} {ops : List HostOp} (hwf : Program.wf s.params ops = true) :
    premiseClean s ops = true ↔
      ∀ (k : Nat) (d : Word) (u : State), (HostOp.reset :: ops)[k]? = some (asmWr .cmd d) →
        Host.Core.run core k { s with program := .reset :: ops } = .next u →
        ∀ a ∈ packTouches d u, ClearedBefore (.reset :: ops) k a := by
  simp only [premiseClean, cleanFrom_iff (ops := .reset :: ops) hwf, List.not_mem_nil, and_false, or_false]

/-- Settles O46: at the start of a run nothing is cleared, so what P-CLEAN asks for is a line of the run. -/
theorem premiseCleanMeansCleared : Obligations.PremiseCleanMeansCleared :=
  fun _ _ => premiseClean_iff

/-- Settles O47: the byte was cleared since the last reset, and the unit that touches it is not faulted, so the write acted. -/
theorem cleanPacksMeetNoDraw : Obligations.CleanPacksMeetNoDraw := by
  intro s ops k d u hwf hclean hop hrun a ha
  have hcleared := (premiseClean_iff hwf).mp hclean k d u hop hrun a ha
  exact written_of_clearedBefore hrun (unfaulted_of_mem_packTouches ha) hcleared

end Sys2Proof.Machine

/-! PROOFS. The statement of 44_block_engines.md: the wiring of the engines E_1, E_3 and E_8 is the one listed. -/

namespace Sys2Proof.Machine

/-! ### The listed wiring (rules R301, R303, R308) -/

/-- A field that one source holds whole is wired as one slice of it. -/
theorem slices_of_field_in_one_source {unit p n : Nat} (hn : 0 < n) (h : p % unit + n ≤ unit) :
    (List.range (sliceCount unit p n)).map (sliceAt unit p n) =
      [⟨p / unit, unit - 1 - p % unit, unit - (p % unit + n)⟩] := by
  have hp : p / unit * unit + p % unit = p := Nat.div_add_mod' p unit
  have hlast : (p + n - 1) / unit = p / unit :=
    Nat.div_eq_of_lt_le (by omega) (by rw [Nat.succ_mul]; omega)
  have hcount : sliceCount unit p n = 1 := by rw [sliceCount, hlast, Nat.sub_self]
  rw [hcount, List.range_one, List.map_singleton, List.singleton_inj, sliceAt, Nat.add_zero, Slice.mk.injEq]
  omega

/-- Engine E_1 unpacks each value from its one stream bit. -/
theorem unpackWiring_one (j : Nat) : unpackWiring 1 j = [⟨j / 8, 7 - j % 8, 7 - j % 8⟩] := by
  rw [unpackWiring_eq, Nat.mul_one, slices_of_field_in_one_source (by decide) (by omega), Nat.add_comm (j % 8), ← Nat.sub_sub]

/-- Engine E_8 packs each byte from the lane of its number. -/
theorem packWiring_eight (k : Nat) : packWiring 8 k = [⟨k, 7, 0⟩] := by
  rw [packWiring_eq, slices_of_field_in_one_source (by decide) (by omega), Nat.mul_div_cancel_left k (by decide),
    Nat.mul_mod_right]

/-- At width 8 lanes and bytes are alike, so both directions are wired the same. -/
theorem unpackWiring_eight (j : Nat) : unpackWiring 8 j = [⟨j, 7, 0⟩] := by
  rw [unpackWiring_eq, Nat.mul_comm, ← packWiring_eq, packWiring_eight]

/-- Settles O19: E_8 is straight wiring and E_1 unpacks bit by bit, for every number; the remaining lines are evaluated one by one. -/
theorem engineListings : Obligations.EngineListings := by
  refine ⟨⟨?packOne, ?unpackOne, by decide⟩, ?three, fun k _ => ⟨packWiring_eight k, unpackWiring_eight k⟩⟩
  case packOne => decide
  case unpackOne =>
    intro j hj
    rw [unpackWiring_one, Nat.div_eq_of_lt hj, Nat.mod_eq_of_lt hj]
  case three => decide

end Sys2Proof.Machine

/-! PROOFS. The statements of 60_exceptions.md: how a CMD write ends, the order of the checks, and that a faulted unit explains its own
fault; with the lemmas about the verdict on a CMD write that they rest on. -/

namespace Sys2Proof.Machine

/-! ### The end of a CMD write by its verdict (rules R210, R216) -/

theorem verdictOf_of_decode_ok {d : Word} {i : Instr} (h : decode d = .ok i) (s : State) : verdictOf d s = commandVerdict i s := by
  simp only [verdictOf, h]

theorem verdictOf_of_decode_illegal {d : Word} {why : Illegal} (h : decode d = .illegal why) (s : State) :
    verdictOf d s = .fault .illegalCmd := by
  simp only [verdictOf, h]

/-- The three ways a CMD write ends that a unit takes, one for each verdict. -/
theorem issue_cases_of_ready {d : Word} {s t : State} (hf : s.faulted = false) (h : issue d s = .next t) :
    (verdictOf d s = .done ∧ ∃ i, decode d = .ok i ∧ t = (commandBody i s).succeed) ∨
    (verdictOf d s = .invalidWidth ∧ t = s.reportInvalidWidth) ∨
    (∃ c, verdictOf d s = .fault c ∧ t = s.takeFault c d) := by
  obtain ⟨i, hd, hexec⟩ | ⟨why, hd, rfl⟩ := issue_cases h
  · rw [verdictOf_of_decode_ok hd]
    obtain ⟨hfaulted, -⟩ | ⟨-, hv, ht⟩ | ⟨-, hv, ht⟩ | ⟨-, c, hv, ht⟩ := exec_cases hexec
    · rw [hf] at hfaulted
      cases hfaulted
    · exact .inl ⟨hv, i, hd, ht⟩
    · exact .inr (.inl ⟨hv, ht⟩)
    · rw [(decode_eq_ok_iff d i).mp hd]
      exact .inr (.inr ⟨c, hv, ht⟩)
  · exact .inr (.inr ⟨.illegalCmd, verdictOf_of_decode_illegal hd s, rfl⟩)

/-! ### A faulted unit explains its own fault (rule R212) -/

/-- The checks of a CMD write look at the registers, BUF and the parameters only. -/
theorem verdictOf_congr {s t : State} (d : Word) (hval : t.val = s.val) (hcur : t.cur = s.cur) (hbase : t.base = s.base)
    (hblk : t.blk = s.blk) (hbuf : t.buf = s.buf) (hparams : t.params = s.params) (hresets : t.resets = s.resets) :
    verdictOf d t = verdictOf d s := by
  cases hd : decode d with
  | illegal why => rw [verdictOf_of_decode_illegal hd, verdictOf_of_decode_illegal hd]
  | ok i =>
    rw [verdictOf_of_decode_ok hd, verdictOf_of_decode_ok hd]
    exact commandVerdict_congr i hval hcur hbase hblk hbuf hparams hresets

theorem State.causeRecomputable_of_unfaulted {s : State} (hf : s.faulted = false) : s.CauseRecomputable := by
  intro hfaulted
  rw [hf] at hfaulted
  cases hfaulted

/-- The fault entry keeps all that the checks look at, and FCMD the data they were made on (rule R214). -/
theorem State.causeRecomputable_takeFault {d : Word} {c : FaultCause} {s : State} (hv : verdictOf d s = .fault c) :
    (s.takeFault c d).CauseRecomputable :=
  fun _ => ⟨c, (verdictOf_congr d rfl rfl rfl rfl rfl rfl rfl).trans hv, s.takeFault_fcause c d⟩

/-- What the host has pending and what was returned to it play no part in the cause of a fault. -/
theorem State.CauseRecomputable.withHost {s : State} (hs : s.CauseRecomputable) (p : List HostOp) (r : List Returned) :
    State.CauseRecomputable { s with program := p, trace := r } := by
  intro hf
  obtain ⟨c, hv, hcode⟩ := hs hf
  exact ⟨c, (verdictOf_congr s.fcmd rfl rfl rfl rfl rfl rfl rfl).trans hv, hcode⟩

theorem issue_causeRecomputable {d : Word} {s t : State} (hf : s.faulted = false) (h : issue d s = .next t) :
    t.CauseRecomputable := by
  obtain ⟨-, i, -, rfl⟩ | ⟨-, rfl⟩ | ⟨c, hv, rfl⟩ := issue_cases_of_ready hf h
  · exact State.causeRecomputable_of_unfaulted (by rw [State.succeed_faulted, commandBody_faulted, hf])
  · exact State.causeRecomputable_of_unfaulted (by rw [State.reportInvalidWidth_faulted, hf])
  · exact State.causeRecomputable_takeFault hv

/-- Of the transactions a CMD write alone can fault a unit, and a faulted unit keeps all that its cause was computed from. -/
theorem perform_causeRecomputable {x : Txn} {s t : State} (hs : s.CauseRecomputable) (h : perform x s = .next t) :
    t.CauseRecomputable := by
  obtain ⟨y, rfl⟩ | ⟨-, rfl⟩ | ⟨hf, r, v, -, -, rfl⟩ | ⟨hf, d, -, hissue⟩ | ⟨hf, a, b, -, rfl⟩ | ⟨-, rfl⟩ := perform_cases h
  · exact hs.withHost s.program (s.trace ++ [y])
  · exact hs
  · exact State.causeRecomputable_of_unfaulted (by rw [State.regWrite_faulted, hf])
  · exact issue_causeRecomputable hf hissue
  · exact State.causeRecomputable_of_unfaulted hf
  · exact State.causeRecomputable_of_unfaulted s.takeReset_faulted

/-- Settles O36: a step waits or performs one transaction, and each transaction keeps the cause recomputable. -/
theorem causeRecomputableKept : Obligations.CauseRecomputableKept := by
  intro s t hs h
  obtain ⟨-, rfl⟩ | ⟨op, rest, x, -, -, -, hperform⟩ := step_cases h
  · exact hs
  · exact perform_causeRecomputable (hs.withHost rest s.trace) hperform

/-! ### What each end writes (rules R210, R213, R214) -/

theorem FaultCause.toNat_code_bounds (c : FaultCause) : 1 ≤ c.code.toNat ∧ c.code.toNat ≤ 5 := by
  cases c <;> decide

/-- Settles O29: the three ways a CMD write ends, with the STATUS word of each. -/
theorem threeOutcomes : Obligations.ThreeOutcomes := by
  intro d s hf
  obtain ⟨t, ht⟩ := issue_next d s
  refine ⟨t, ht, ?_⟩
  obtain ⟨-, i, hd, rfl⟩ | ⟨-, rfl⟩ | ⟨c, -, rfl⟩ := issue_cases_of_ready hf ht
  · exact .inl ⟨statusErr_withErr _ _, by rw [State.succeed_faulted, commandBody_faulted, hf], i, hd, rfl⟩
  · exact .inr (.inl ⟨statusErr_withErr _ _, by rw [State.reportInvalidWidth_faulted, hf], rfl,
      fun n hn => getLsbD_withErr_of_le _ _ hn⟩)
  · refine .inr (.inr ⟨s.takeFault_err c d, s.takeFault_faulted c d, rfl, ?_⟩)
    rw [State.takeFault_fcause]
    exact c.toNat_code_bounds

/-- Settles O30: the report is a write of ERR, after which the unit takes the next command as before. -/
theorem invalidWidthReport : Obligations.InvalidWidthReport := by
  intro w i s hf hw hi
  have hbad := (widthOk_eq_false_iff _).mpr hw
  have hv : commandVerdict i s = .invalidWidth := by
    obtain rfl | rfl := hi
    · exact packblkVerdict_of_bad_width hbad s
    · exact unpackblkVerdict_of_bad_width hbad s
  have hready : s.reportInvalidWidth.faulted = false := by rw [State.reportInvalidWidth_faulted, hf]
  exact ⟨_, exec_invalidWidth hf hv, rfl, statusErr_withErr _ _, hready, fun n hn => getLsbD_withErr_of_le _ _ hn,
    exec_ready hready⟩

/-- Settles O32: of the three ways a CMD write ends, the verdict leaves the fault entry. -/
theorem faultEntry : Obligations.FaultEntry := by
  intro d c s hf hv
  obtain ⟨t, ht⟩ := issue_next d s
  refine ⟨t, ht, ?_⟩
  obtain ⟨hdone, -⟩ | ⟨hwidth, -⟩ | ⟨c', hv', rfl⟩ := issue_cases_of_ready hf ht
  · cases hdone.symm.trans hv
  · cases hwidth.symm.trans hv
  · cases hv'.symm.trans hv
    exact ⟨rfl, s.takeFault_err c d, s.takeFault_faulted c d, s.takeFault_fcause c d, rfl,
      fun n hn => s.getLsbD_takeFault_status c d hn⟩

/-! ### The order of the checks (rule R216) -/

theorem widthOk_ite {α : Type} (w : Nat) (x y : α) :
    (if !widthOk w then x else y) = if w = 0 ∨ 63 < w then x else y := by
  simp only [Bool.not_eq_true', widthOk_eq_false_iff]

theorem dirty_iff (s : State) (p n : Nat) :
    dirty s p n = true ↔ s.params.dirtyMode = .fault ∧ s.streamZero p n = false := by
  simp [dirty]

theorem lanes_any_tooWide_iff (w : Nat) (s : State) :
    s.lanes.any (tooWide w) = true ↔ ∃ j : Fin 8, 2 ^ w ≤ s.blk[j].toNat := by
  rw [← Bool.not_eq_false, lanes_any_tooWide_eq_false_iff]
  simp

/-- The checks of PACKBITS on the registers (rule R103). -/
theorem packbitsVerdict_eq (w : Nat) (s : State) :
    packbitsVerdict w s =
      if w = 0 ∨ 63 < w then .fault .cursorWidth
      else if 8 * s.params.bufLen < s.cur.toNat + w then .fault .bounds
      else if 2 ^ w ≤ s.val.toNat then .fault .valueRange
      else if s.params.dirtyMode = .fault ∧
          s.streamZero s.cur.toNat (8 * ((s.cur.toNat + w - 1) / 8 + 1) - s.cur.toNat) = false then .fault .dirtyTarget
      else .done := by
  simp only [packbitsVerdict, widthOk_ite, cursorOutside, tooWide, decide_eq_true_eq, dirty_iff, targetLength, lastTouched]

/-- The checks of UNPACKBITS on the registers (rule R110). -/
theorem unpackbitsVerdict_eq (w : Nat) (s : State) :
    unpackbitsVerdict w s =
      if w = 0 ∨ 63 < w then .fault .cursorWidth
      else if 8 * s.params.bufLen < s.cur.toNat + w then .fault .bounds
      else .done := by
  simp only [unpackbitsVerdict, widthOk_ite, cursorOutside, decide_eq_true_eq]

/-- The checks of PACKBLK on the registers (rule R133). -/
theorem packblkVerdict_eq (w : Nat) (s : State) :
    packblkVerdict w s =
      if w = 0 ∨ 63 < w then .invalidWidth
      else if s.params.bufLen < s.base.toNat + w then .fault .bounds
      else if ∃ j : Fin 8, 2 ^ w ≤ s.blk[j].toNat then .fault .valueRange
      else if s.params.dirtyMode = .fault ∧ s.streamZero (8 * s.base.toNat) (8 * w) = false then .fault .dirtyTarget
      else .done := by
  simp only [packblkVerdict, widthOk_ite, windowOutside, decide_eq_true_eq, lanes_any_tooWide_iff, dirty_iff]

/-- The checks of UNPACKBLK on the registers (rule R140). -/
theorem unpackblkVerdict_eq (w : Nat) (s : State) :
    unpackblkVerdict w s =
      if w = 0 ∨ 63 < w then .invalidWidth
      else if s.params.bufLen < s.base.toNat + w then .fault .bounds
      else .done := by
  simp only [unpackblkVerdict, widthOk_ite, windowOutside, decide_eq_true_eq]

/-- ERR and FCAUSE after a verdict, from the FCAUSE before (rules R211, R212). -/
def Verdict.codes (v : Verdict) (fcause : BitVec 4) : BitVec 4 × BitVec 4 :=
  match v with
  | .done => (errOk, fcause)
  | .invalidWidth => (errInvalidWidth, fcause)
  | .fault c => (errFaulted, c.code)

theorem status_codes_of_issue {d : Word} {s t : State} (hf : s.faulted = false) (h : issue d s = .next t) :
    (statusErr t.status, statusFcause t.status) = (verdictOf d s).codes (statusFcause s.status) := by
  obtain ⟨hv, i, -, rfl⟩ | ⟨hv, rfl⟩ | ⟨c, hv, rfl⟩ := issue_cases_of_ready hf h <;> rw [hv]
  · rw [State.succeed_status, commandBody_status, statusErr_withErr, statusFcause_withErr]
    rfl
  · rw [State.reportInvalidWidth_status, statusErr_withErr, statusFcause_withErr]
    rfl
  · rw [State.takeFault_err, State.takeFault_fcause]
    rfl

/-- Settles O33: the verdict on the data, its checks written on the registers, with the codes of each verdict. -/
theorem checkOrder : Obligations.CheckOrder := by
  intro d s hf
  obtain ⟨t, ht⟩ := issue_next d s
  refine ⟨t, ht, (status_codes_of_issue hf ht).trans ?_⟩
  cases hd : decode d with
  | illegal why => rw [verdictOf_of_decode_illegal hd]; rfl
  | ok i =>
    rw [verdictOf_of_decode_ok hd]
    cases i with
    | packbits w =>
      simp only [commandVerdict, packbitsVerdict_eq]
      split_ifs <;> rfl
    | unpackbits w =>
      simp only [commandVerdict, unpackbitsVerdict_eq]
      split_ifs <;> rfl
    | packblk w =>
      simp only [commandVerdict, packblkVerdict_eq]
      split_ifs <;> rfl
    | unpackblk w =>
      simp only [commandVerdict, unpackblkVerdict_eq]
      split_ifs <;> rfl

/-! ### BOUNDS (rule R219) -/

theorem Verdict.eq_fault_of_codes {v : Verdict} {c : FaultCause} {fcause : BitVec 4}
    (h : v.codes fcause = (errFaulted, c.code)) : v = .fault c := by
  cases v with
  | done => simp [Verdict.codes, errOk, errFaulted] at h
  | invalidWidth => simp [Verdict.codes, errInvalidWidth, errFaulted] at h
  | fault c' => rw [FaultCause.code_injective (congrArg Prod.snd h)]

/-- A command takes a fault just when its verdict is that fault: STATUS tells the verdicts apart. -/
theorem exec_eq_takeFault_iff {s : State} (hf : s.faulted = false) (i : Instr) (c : FaultCause) :
    exec i s = .next (s.takeFault c (cmdData i)) ↔ commandVerdict i s = .fault c := by
  refine ⟨fun h => ?_, exec_fault hf⟩
  have hcodes := status_codes_of_issue hf ((issue_of_decode_ok (decode_cmdData i) s).trans h)
  rw [State.takeFault_err, State.takeFault_fcause, verdictOf_of_decode_ok (decode_cmdData i)] at hcodes
  exact Verdict.eq_fault_of_codes hcodes.symm

section Bounds

variable {w : Nat} (hw : 1 ≤ w ∧ w ≤ 63) (s : State)
include hw

theorem packbitsVerdict_eq_bounds_iff :
    packbitsVerdict w s = .fault .bounds ↔ 8 * s.params.bufLen < s.cur.toNat + w := by
  rw [packbitsVerdict_eq, if_neg (by omega), Ne.ite_eq_left_iff]
  split_ifs <;> simp

theorem unpackbitsVerdict_eq_bounds_iff :
    unpackbitsVerdict w s = .fault .bounds ↔ 8 * s.params.bufLen < s.cur.toNat + w := by
  rw [unpackbitsVerdict_eq, if_neg (by omega), Ne.ite_eq_left_iff]
  simp

theorem packblkVerdict_eq_bounds_iff :
    packblkVerdict w s = .fault .bounds ↔ s.params.bufLen < s.base.toNat + w := by
  rw [packblkVerdict_eq, if_neg (by omega), Ne.ite_eq_left_iff]
  split_ifs <;> simp

theorem unpackblkVerdict_eq_bounds_iff :
    unpackblkVerdict w s = .fault .bounds ↔ s.params.bufLen < s.base.toNat + w := by
  rw [unpackblkVerdict_eq, if_neg (by omega), Ne.ite_eq_left_iff]
  simp

end Bounds

/-- Settles O34: the fault is the verdict, which is BOUNDS just when the sum passes the end of BUF; CUR and BASE are written as any
register is. -/
theorem boundsExactly : Obligations.BoundsExactly := by
  intro w v s hf hpos hmax
  have hw : 1 ≤ w.toNat ∧ w.toNat ≤ 63 := ⟨hpos, hmax⟩
  have hfault (i : Instr) := exec_eq_takeFault_iff hf i .bounds
  exact ⟨(hfault (.packbits w)).trans (packbitsVerdict_eq_bounds_iff hw s),
    (hfault (.unpackbits w)).trans (unpackbitsVerdict_eq_bounds_iff hw s), by omega,
    (hfault (.packblk w)).trans (packblkVerdict_eq_bounds_iff hw s),
    (hfault (.unpackblk w)).trans (unpackblkVerdict_eq_bounds_iff hw s),
    performOp_asmWr hf (r := .cur) (by simp) v, performOp_asmWr hf (r := .base) (by simp) v⟩

end Sys2Proof.Machine

/-! PROOFS. The statement of 70_reset_and_hazards.md: BUF is drawn at every reset and at no other time; with the lemmas about a byte no
one wrote and about the count of resets that it rests on. -/

namespace Sys2Proof.Machine

/-! ### A byte that nothing wrote (rule R241) -/

/-- Where no byte is written, a byte of BUF is the draw of the last reset. -/
theorem State.byte_of_buf_nil {s : State} (h : s.buf = []) (a : Nat) : s.byte a = Config.bufDraw s.resets a := by
  rw [State.byte, h, Memory.lookup, Option.getD_none]

theorem State.byte_takeReset (s : State) (a : Nat) : s.takeReset.byte a = Config.bufDraw (s.resets + 1) a := by
  rw [State.byte_of_buf_nil s.takeReset_buf, State.takeReset_resets]

/-! ### The count of resets, layer by layer of a transaction -/

theorem exec_resets {i : Instr} {s t : State} (h : exec i s = .next t) : t.resets = s.resets :=
  exec_keeps h (·.resets) (fun _ _ _ => rfl) (fun _ => commandBody_resets i s)

theorem issue_resets {d : Word} {s t : State} (h : issue d s = .next t) : t.resets = s.resets := by
  obtain ⟨i, -, hexec⟩ | ⟨why, -, rfl⟩ := issue_cases h
  · exact exec_resets hexec
  · rw [State.takeFault_resets]

theorem perform_resets {x : Txn} {s t : State} (hx : x ≠ .reset) (h : perform x s = .next t) : t.resets = s.resets := by
  obtain ⟨y, rfl⟩ | ⟨-, rfl⟩ | ⟨-, r, v, -, -, rfl⟩ | ⟨-, d, -, hissue⟩ | ⟨-, a, b, -, rfl⟩ | ⟨hreset, -⟩ := perform_cases h
  · rw [State.returns_resets]
  · rfl
  · rw [State.regWrite_resets]
  · exact issue_resets hissue
  · rw [State.setByte_resets]
  · exact absurd hreset hx

/-- Settles O49: a reset, and power-on, leaves no byte written, so each byte is the draw of the new number; no other transaction counts
a reset. -/
theorem bufIsDrawnAtEveryReset : Obligations.BufIsDrawnAtEveryReset :=
  ⟨fun s => ⟨s.takeReset, rfl, s.takeReset_resets, s.byte_takeReset⟩, State.byte_of_buf_nil rfl, fun _ _ _ => perform_resets⟩

end Sys2Proof.Machine
